-- ==== Sys2Proof/Word.lean ====
section
/-! DEFINITION. The number types of the block (spec/00_scope.md R12): every quantity is unsigned. A `uN` of the
spec is a bit vector of that width; exact arithmetic is done on `Nat` and narrowed in one place. -/

namespace Sys2Proof

/-- One byte of the backing store (20_memory.md R75). -/
abbrev Byte := BitVec 8

/-- `u64`: cycle counts, addresses, masks and register values (00_scope.md R12, R14). -/
abbrev W64 := BitVec 64

/-- The IDX field of a frame and the K field of a response (30_encoding.md R100, R104). -/
abbrev Idx := BitVec 8

/-- One prefetched word, `PF_WB * 8` bits zero-extended to the widest PF_WB, 4 bytes (10_state.md R34). -/
abbrev PfWord := BitVec 32

/-- One command frame (30_encoding.md R100). -/
abbrev Frame := BitVec 144

/-- `MAX64` (00_scope.md R12). -/
def maxNat64 : Nat := 2 ^ 64 - 1

/-- `MAX64` as a stored `u64`. -/
def max64 : W64 := BitVec.ofNat 64 maxNat64

end Sys2Proof
end

