-- ==== Sys2Proof/Syntax.lean ====
section
/-! DEFINITION. The 19 commands of the block (spec/30_encoding.md R103), one constructor for each row of
opcode_table.json. An operand has the width of the frame field that carries it (R100, R102); a one-bit operand
is a `Bool`. -/

namespace Sys2Proof

/-- A command. Operands are unsigned, never extended, scaled or shifted (30_encoding.md R102). -/
inductive Instr where
  /-- `ES_INSERT kind, due` (R134) -/
  | esInsert (kind : Idx) (due : W64)
  /-- `ES_REMOVE kind` (R135) -/
  | esRemove (kind : Idx)
  /-- `ES_READY now` (R136) -/
  | esReady (now : W64)
  /-- `ES_POP now` (R137) -/
  | esPop (now : W64)
  /-- `CD_ADVANCE mc`, with `long` the LONG hint of `CD_ADVANCE.L` (R163) -/
  | cdAdvance (long : Bool) (mc : W64)
  /-- `CD_BUSGRANT d` (R165) -/
  | cdBusgrant (d : Idx)
  /-- `BT_COST.<w><q> addr`: `w` the width code, of which 3 is reserved, `seq` the S bit (R191) -/
  | btCost (w : BitVec 2) (seq : Bool) (addr : W64)
  /-- `BT_SETBW r, b` (R193) -/
  | btSetbw (r : Idx) (bit : Bool)
  /-- `BT_SETPF en` (R205) -/
  | btSetpf (en : Bool)
  /-- `PF_PREPARE addr` (R200) -/
  | pfPrepare (addr : W64)
  /-- `PF_READ addr` (R202) -/
  | pfRead (addr : W64)
  /-- `PF_ADVANCE cycles` (R204) -/
  | pfAdvance (cycles : W64)
  /-- `IA_SETFLAG s` (R241) -/
  | iaSetflag (src : Idx)
  /-- `IA_WRENABLE mask` (R242) -/
  | iaWrenable (mask : W64)
  /-- `IA_WRFLAGCLR mask` (R243) -/
  | iaWrflagclr (mask : W64)
  /-- `IA_HPP` (R244) -/
  | iaHpp
  /-- `IA_ACK s` (R245) -/
  | iaAck (src : Idx)
  /-- `XR_WRITE x, at, value` (R260) -/
  | xrWrite (x : Idx) (cycle : W64) (value : W64)
  /-- `XR_READ x, as_of` (R261) -/
  | xrRead (x : Idx) (asOf : W64)
  deriving DecidableEq, Repr

end Sys2Proof
end

