-- ==== Sys2Proof/WellFormed.lean ====
section
/-! DEFINITION. Which terms of `Instr` are commands. The operand widths are in the types; the one check left is
the reserved width code of BT_COST (spec/30_encoding.md R107, R112 step 4). Operand RANGES depend on `CFG` and are
checked when the command executes (R112 step 5), not here. -/

namespace Sys2Proof

/-- The width codes 0, 1, 2 price 8, 16 and 32 bits, and code 3 is reserved (20_memory.md R77). -/
def widthCodeOk (w : BitVec 2) : Bool := w != 3#2

/-- A well-formed command: one that some legal frame stands for (30_encoding.md R107). -/
def Instr.wf : Instr → Bool
  | .esInsert _ _ => true
  | .esRemove _ => true
  | .esReady _ => true
  | .esPop _ => true
  | .cdAdvance _ _ => true
  | .cdBusgrant _ => true
  | .btCost w _ _ => widthCodeOk w
  | .btSetbw _ _ => true
  | .btSetpf _ => true
  | .pfPrepare _ => true
  | .pfRead _ => true
  | .pfAdvance _ => true
  | .iaSetflag _ => true
  | .iaWrenable _ => true
  | .iaWrflagclr _ => true
  | .iaHpp => true
  | .iaAck _ => true
  | .xrWrite _ _ _ => true
  | .xrRead _ _ => true

end Sys2Proof
end

