-- ==== Sys2Proof/Decode.lean ====
section
/-! DEFINITION. Decoding a frame to a command and encoding a command as a frame (spec/30_encoding.md R100 to R103,
R107, R112, R113), and the rows of opcode_table.json as data. -/

namespace Sys2Proof

/-- Why a frame is illegal (30_encoding.md R107). -/
inductive Reject where
  /-- OP is none of the 19 values of R103 (R112 step 2) -/
  | unknownOp (op : BitVec 8)
  /-- a must-be-zero bit of the named row is 1 (R112 step 3) -/
  | mustBeZero (mnemonic : String)
  /-- BT_COST with the reserved width code W = 3 (R112 step 4) -/
  | reservedWidth
  /-- a frame shown as bytes is 18 bytes (R109, R113); raised by `frameOfBytes` only -/
  | wrongLength (bytes : Nat)
  deriving DecidableEq, Repr

/-- OP, bits 143:136 (30_encoding.md R100). -/
def Frame.op (f : Frame) : BitVec 8 := f.extractLsb' 136 8
/-- IDX, bits 135:128 (30_encoding.md R100). -/
def Frame.idx (f : Frame) : Idx := f.extractLsb' 128 8
/-- A, bits 127:64 (30_encoding.md R100). -/
def Frame.a (f : Frame) : W64 := f.extractLsb' 64 64
/-- B, bits 63:0 (30_encoding.md R100). -/
def Frame.b (f : Frame) : W64 := f.extractLsb' 0 64

/-- The frame with the four given fields (30_encoding.md R100). -/
def Frame.mk (op : BitVec 8) (idx : Idx) (a b : W64) : Frame := op ++ idx ++ a ++ b

/-- A one-bit operand as a `u64` field. -/
def bit64 (b : Bool) : W64 := if b then 1#64 else 0#64

/-- The IDX field of CD_ADVANCE: bit 0 = LONG (R103). -/
def longIdx (long : Bool) : Idx := if long then 1#8 else 0#8

/-- The IDX field of BT_COST: bits 1:0 = W, bit 2 = S (R103). -/
def costIdx (w : BitVec 2) (seq : Bool) : Idx := (0#5 : BitVec 5) ++ BitVec.ofBool seq ++ w

/-- The command `i` when every must-be-zero part named by `mbz` is zero (30_encoding.md R112 step 3). -/
def whenZero (mnemonic : String) (mbz : Bool) (i : Instr) : Except Reject Instr :=
  if mbz then .ok i else .error (.mustBeZero mnemonic)

/-- The decoding procedure, steps 2 to 4 of 30_encoding.md R112. It depends on the frame alone. -/
def decode (f : Frame) : Except Reject Instr :=
  let x := f.idx
  let a := f.a
  let idx0 := x == 0#8
  let a0 := a == 0#64
  let b0 := f.b == 0#64
  match f.op.toNat with
  | 0x10 => whenZero "ES_INSERT" b0 (.esInsert x a)
  | 0x11 => whenZero "ES_REMOVE" (a0 && b0) (.esRemove x)
  | 0x12 => whenZero "ES_READY" (idx0 && b0) (.esReady a)
  | 0x13 => whenZero "ES_POP" (idx0 && b0) (.esPop a)
  | 0x20 => whenZero "CD_ADVANCE" (x.extractLsb' 1 7 == 0#7 && b0) (.cdAdvance (x.getLsbD 0) a)
  | 0x21 => whenZero "CD_BUSGRANT" (a0 && b0) (.cdBusgrant x)
  | 0x30 =>
    if x.extractLsb' 3 5 == 0#5 && b0 then
      if widthCodeOk (x.extractLsb' 0 2) then .ok (.btCost (x.extractLsb' 0 2) (x.getLsbD 2) a)
      else .error .reservedWidth
    else .error (.mustBeZero "BT_COST")
  | 0x31 => whenZero "BT_SETBW" (a.extractLsb' 1 63 == 0#63 && b0) (.btSetbw x (a.getLsbD 0))
  | 0x32 => whenZero "BT_SETPF" (idx0 && a.extractLsb' 1 63 == 0#63 && b0) (.btSetpf (a.getLsbD 0))
  | 0x38 => whenZero "PF_PREPARE" (idx0 && b0) (.pfPrepare a)
  | 0x39 => whenZero "PF_READ" (idx0 && b0) (.pfRead a)
  | 0x3A => whenZero "PF_ADVANCE" (idx0 && b0) (.pfAdvance a)
  | 0x40 => whenZero "IA_SETFLAG" (a0 && b0) (.iaSetflag x)
  | 0x41 => whenZero "IA_WRENABLE" (idx0 && b0) (.iaWrenable a)
  | 0x42 => whenZero "IA_WRFLAGCLR" (idx0 && b0) (.iaWrflagclr a)
  | 0x43 => whenZero "IA_HPP" (idx0 && a0 && b0) .iaHpp
  | 0x44 => whenZero "IA_ACK" (a0 && b0) (.iaAck x)
  | 0x50 => .ok (.xrWrite x a f.b)
  | 0x51 => whenZero "XR_READ" b0 (.xrRead x a)
  | _ => .error (.unknownOp f.op)

/-- The frame of a command, written from the table of 30_encoding.md R103. A field it does not use is zero. -/
def encode : Instr → Frame
  | .esInsert kind due => Frame.mk 0x10#8 kind due 0#64
  | .esRemove kind => Frame.mk 0x11#8 kind 0#64 0#64
  | .esReady now => Frame.mk 0x12#8 0#8 now 0#64
  | .esPop now => Frame.mk 0x13#8 0#8 now 0#64
  | .cdAdvance long mc => Frame.mk 0x20#8 (longIdx long) mc 0#64
  | .cdBusgrant d => Frame.mk 0x21#8 d 0#64 0#64
  | .btCost w seq addr => Frame.mk 0x30#8 (costIdx w seq) addr 0#64
  | .btSetbw r b => Frame.mk 0x31#8 r (bit64 b) 0#64
  | .btSetpf en => Frame.mk 0x32#8 0#8 (bit64 en) 0#64
  | .pfPrepare addr => Frame.mk 0x38#8 0#8 addr 0#64
  | .pfRead addr => Frame.mk 0x39#8 0#8 addr 0#64
  | .pfAdvance cycles => Frame.mk 0x3A#8 0#8 cycles 0#64
  | .iaSetflag s => Frame.mk 0x40#8 s 0#64 0#64
  | .iaWrenable mask => Frame.mk 0x41#8 0#8 mask 0#64
  | .iaWrflagclr mask => Frame.mk 0x42#8 0#8 mask 0#64
  | .iaHpp => Frame.mk 0x43#8 0#8 0#64 0#64
  | .iaAck s => Frame.mk 0x44#8 s 0#64 0#64
  | .xrWrite x cycle v => Frame.mk 0x50#8 x cycle v
  | .xrRead x asOf => Frame.mk 0x51#8 x asOf 0#64

/-! ### Frames as bytes (30_encoding.md R113) -/

/-- The bytes as one number, the first byte most significant. -/
def bytesToNat (bs : List Byte) : Nat := bs.foldl (fun n b => n * 256 + b.toNat) 0

/-- The frame that 18 bytes stand for, most significant first (30_encoding.md R113). -/
def frameOfBytes (bs : List Byte) : Except Reject Frame :=
  if bs.length = 18 then .ok (BitVec.ofNat 144 (bytesToNat bs)) else .error (.wrongLength bs.length)

/-- The 18 bytes of a frame, most significant first (30_encoding.md R113). -/
def bytesOfFrame (f : Frame) : List Byte :=
  (List.range 18).map fun i => f.extractLsb' (8 * (17 - i)) 8

/-- Decoding a command that is stored or shown as bytes (30_encoding.md R113). -/
def decodeBytes (bs : List Byte) : Except Reject Instr := do
  let f ← frameOfBytes bs
  decode f

/-! ### The opcode table as data (30_encoding.md R103) -/

/-- One row of opcode_table.json: `care` is its `mask`, 1 at every fixed bit, and `fixed` its `match`. -/
structure TableRow where
  mnemonic : String
  fixed : Frame
  care : Frame
  deriving DecidableEq, Repr

/-- Whether a frame matches a row: "`frame & mask = match`" (30_encoding.md R103). -/
def TableRow.hits (row : TableRow) (f : Frame) : Bool := f &&& row.care == row.fixed

/-- The 19 rows of opcode_table.json, copied digit for digit. -/
def opcodeTable : List TableRow :=
  [⟨"ES_INSERT",    0x100000000000000000000000000000000000#144, 0xFF000000000000000000FFFFFFFFFFFFFFFF#144⟩,
   ⟨"ES_REMOVE",    0x110000000000000000000000000000000000#144, 0xFF00FFFFFFFFFFFFFFFFFFFFFFFFFFFFFFFF#144⟩,
   ⟨"ES_READY",     0x120000000000000000000000000000000000#144, 0xFFFF0000000000000000FFFFFFFFFFFFFFFF#144⟩,
   ⟨"ES_POP",       0x130000000000000000000000000000000000#144, 0xFFFF0000000000000000FFFFFFFFFFFFFFFF#144⟩,
   ⟨"CD_ADVANCE",   0x200000000000000000000000000000000000#144, 0xFFFE0000000000000000FFFFFFFFFFFFFFFF#144⟩,
   ⟨"CD_BUSGRANT",  0x210000000000000000000000000000000000#144, 0xFF00FFFFFFFFFFFFFFFFFFFFFFFFFFFFFFFF#144⟩,
   ⟨"BT_COST",      0x300000000000000000000000000000000000#144, 0xFFF80000000000000000FFFFFFFFFFFFFFFF#144⟩,
   ⟨"BT_SETBW",     0x310000000000000000000000000000000000#144, 0xFF00FFFFFFFFFFFFFFFEFFFFFFFFFFFFFFFF#144⟩,
   ⟨"BT_SETPF",     0x320000000000000000000000000000000000#144, 0xFFFFFFFFFFFFFFFFFFFEFFFFFFFFFFFFFFFF#144⟩,
   ⟨"PF_PREPARE",   0x380000000000000000000000000000000000#144, 0xFFFF0000000000000000FFFFFFFFFFFFFFFF#144⟩] ++
  [⟨"PF_READ",      0x390000000000000000000000000000000000#144, 0xFFFF0000000000000000FFFFFFFFFFFFFFFF#144⟩,
   ⟨"PF_ADVANCE",   0x3A0000000000000000000000000000000000#144, 0xFFFF0000000000000000FFFFFFFFFFFFFFFF#144⟩,
   ⟨"IA_SETFLAG",   0x400000000000000000000000000000000000#144, 0xFF00FFFFFFFFFFFFFFFFFFFFFFFFFFFFFFFF#144⟩,
   ⟨"IA_WRENABLE",  0x410000000000000000000000000000000000#144, 0xFFFF0000000000000000FFFFFFFFFFFFFFFF#144⟩,
   ⟨"IA_WRFLAGCLR", 0x420000000000000000000000000000000000#144, 0xFFFF0000000000000000FFFFFFFFFFFFFFFF#144⟩,
   ⟨"IA_HPP",       0x430000000000000000000000000000000000#144, 0xFFFFFFFFFFFFFFFFFFFFFFFFFFFFFFFFFFFF#144⟩,
   ⟨"IA_ACK",       0x440000000000000000000000000000000000#144, 0xFF00FFFFFFFFFFFFFFFFFFFFFFFFFFFFFFFF#144⟩,
   ⟨"XR_WRITE",     0x500000000000000000000000000000000000#144, 0xFF0000000000000000000000000000000000#144⟩,
   ⟨"XR_READ",      0x510000000000000000000000000000000000#144, 0xFF000000000000000000FFFFFFFFFFFFFFFF#144⟩]

/-- The mnemonic of a command (30_encoding.md R103). -/
def Instr.mnemonic : Instr → String
  | .esInsert _ _ => "ES_INSERT"
  | .esRemove _ => "ES_REMOVE"
  | .esReady _ => "ES_READY"
  | .esPop _ => "ES_POP"
  | .cdAdvance _ _ => "CD_ADVANCE"
  | .cdBusgrant _ => "CD_BUSGRANT"
  | .btCost _ _ _ => "BT_COST"
  | .btSetbw _ _ => "BT_SETBW"
  | .btSetpf _ => "BT_SETPF"
  | .pfPrepare _ => "PF_PREPARE"
  | .pfRead _ => "PF_READ"
  | .pfAdvance _ => "PF_ADVANCE"
  | .iaSetflag _ => "IA_SETFLAG"
  | .iaWrenable _ => "IA_WRENABLE"
  | .iaWrflagclr _ => "IA_WRFLAGCLR"
  | .iaHpp => "IA_HPP"
  | .iaAck _ => "IA_ACK"
  | .xrWrite _ _ _ => "XR_WRITE"
  | .xrRead _ _ => "XR_READ"

/-- The frame whose bits are `w`, numbered as opcode_table.json numbers them: the frame is the hardware's ONE
word (R100, R109), bit 0 its least significant bit. Bits of `w` from `nbits` up are taken as zero. -/
def tableFrame (nbits w : Nat) : Frame := BitVec.ofNat 144 (w % 2 ^ nbits)

/-- The command the decoder reads from a table word. A number that does not fit a frame is no frame. -/
def decodeTableWord (nbits w : Nat) : Option Instr :=
  if w % 2 ^ nbits < 2 ^ 144 then (decode (tableFrame nbits w)).toOption else none

end Sys2Proof
end

