-- ==== Sys2Proof/Config.lean ====
section
/-! DEFINITION. The configuration record `CFG` (spec/00_scope.md R9) and the reference configuration `CFG_REF`
(R9, R10). `CFG` is not state of the block (10_state.md, opening): it is what the host gives RESET. Its numbers are
naturals, so that a record that breaks a "valid when" can be written down and refused (70_reset_and_hazards.md R320,
R321); whether one is valid is `Cfg.valid` of Machine/Validity.lean. The lengths of DIV, REGION and XR_DEFAULT are
ND, NR and NX (assumption 2). -/

namespace Sys2Proof

/-- A cost for each value b of the region's bus-width bit: the last index of `WT[w][q][b]` (00_scope.md R9). -/
structure BitCost where
  b0 : Nat
  b1 : Nat
  deriving DecidableEq, Repr, Inhabited

/-- A cost for q = 0 (non-sequential) and q = 1 (sequential). -/
structure SeqCost where
  nonSeq : BitCost
  seq : BitCost
  deriving DecidableEq, Repr, Inhabited

/-- `WT[w][q][b]` for the width codes w = 0, 1, 2 (8, 16, 32 bits). -/
structure CostTable where
  w8 : SeqCost
  w16 : SeqCost
  w32 : SeqCost
  deriving DecidableEq, Repr, Inhabited

/-- `REGION[r]` (00_scope.md R9). -/
structure Region where
  lo : Nat
  hi : Nat
  wt : CostTable
  bwReset : Nat
  deriving DecidableEq, Repr, Inhabited

/-- `CFG` (00_scope.md R9). -/
structure Cfg where
  /-- `NK` -/
  nk : Nat
  /-- `DIV[d]`; its length is `ND` -/
  div : List Nat
  /-- `REF_PERIOD` -/
  refPeriod : Nat
  /-- `REF_SLACK` -/
  refSlack : Nat
  /-- `REF_STALL` -/
  refStall : Nat
  /-- `REF_STALL_LONG` -/
  refStallLong : Nat
  /-- `GRANT_PRI` -/
  grantPri : Nat
  /-- `GRANT_SEC_EVEN` -/
  grantSecEven : Nat
  /-- `GRANT_SEC_ODD` -/
  grantSecOdd : Nat
  /-- `AB` -/
  ab : Nat
  /-- `REGION[r]`; its length is `NR` -/
  regions : List Region
  /-- `PF_N` -/
  pfN : Nat
  /-- `PF_WB` -/
  pfWb : Nat
  /-- `PF_BOUNDARY` -/
  pfBoundary : Nat
  /-- `PF_HIT_COST` -/
  pfHitCost : Nat
  /-- `PF_EN_RESET` -/
  pfEnReset : Nat
  /-- `NS` -/
  ns : Nat
  /-- `PRIO`, most urgent source first -/
  prio : List Nat
  /-- `VW` -/
  vw : Nat
  /-- `XR_DEFAULT[x]`; its length is `NX` -/
  xrDefault : List Nat
  /-- `XR_CAP` -/
  xrCap : Nat
  deriving DecidableEq, Repr, Inhabited

/-- `ND`, the number of clock domains. -/
def Cfg.nd (c : Cfg) : Nat := c.div.length
/-- `NR`, the number of bus regions. -/
def Cfg.nr (c : Cfg) : Nat := c.regions.length
/-- `NX`, the number of time-ordered registers. -/
def Cfg.nx (c : Cfg) : Nat := c.xrDefault.length

/-- The table entry `WT[w][q][b]`. The reserved code 3 never reaches it (30_encoding.md R107); it reads the 32-bit
entry. -/
def CostTable.cost (t : CostTable) (w : Nat) (q b : Bool) : Nat :=
  let s := if w = 0 then t.w8 else if w = 1 then t.w16 else t.w32
  let p := if q then s.seq else s.nonSeq
  if b then p.b1 else p.b0

/-- A region whose every cost is `n` (00_scope.md R10, regions 0 and 2). -/
def flatCost (n : Nat) : CostTable :=
  let s : SeqCost := ⟨⟨n, n⟩, ⟨n, n⟩⟩
  ⟨s, s, s⟩

/-- `CFG_REF` (00_scope.md R9, R10): test values of the spec, figures of no real console. -/
def cfgRef : Cfg where
  nk := 8
  div := [7, 15, 4]
  refPeriod := 1000
  refSlack := 10
  refStall := 2
  refStallLong := 1
  grantPri := 10
  grantSecEven := 3
  grantSecOdd := 4
  ab := 32
  regions :=
    [⟨0x00000000, 0x07FFFFFF, flatCost 1, 0⟩,
     ⟨0x08000000, 0x0DFFFFFF, ⟨⟨⟨5, 4⟩, ⟨3, 2⟩⟩, ⟨⟨5, 4⟩, ⟨3, 2⟩⟩, ⟨⟨8, 6⟩, ⟨6, 4⟩⟩⟩, 0⟩,
     ⟨0x0E000000, 0xFFFFFFFF, flatCost 5, 0⟩]
  pfN := 8
  pfWb := 2
  pfBoundary := 0x20000
  pfHitCost := 1
  pfEnReset := 0
  ns := 16
  prio := [0, 1, 2, 3, 4, 5, 6, 7, 8, 9, 10, 11, 12, 13, 14, 15]
  vw := 32
  xrDefault := [0, 0]
  xrCap := 4

/-- The `CFG_REF` names of the event kinds, in the order of their numbers (00_scope.md R11). Labels only. -/
def kindNames : List String :=
  ["VBLANK", "HBLANK", "VCOUNT", "TIMER0", "TIMER1", "TIMER2", "TIMER3", "DMA"]

end Sys2Proof
end

