-- ==== Sys2Proof/Machine/State.lean ====
section
/-! DEFINITION. The state of the block as plain data (spec/10_state.md R20), what stands around it (the configuration,
the backing store, what arrives at the command port and from the host, what goes out), and the state after reset
(R46). -/

namespace Sys2Proof.Machine

/-- Why the MODEL stops. A fault of the BLOCK (60_exceptions.md R281) is no such stop: it is a next state with
`FAULT = 1`. -/
inductive Fault where
  /-- Raised by every command served in RUN when the block's elements are no value of the type that
  10_state.md R20 gives them for a valid CFG (a missing domain, an empty heap, an address of more than AB bits). The
  spec has no such state and no run from reset meets one. Safe: the model stops where the hardware has no state. -/
  | malformed
  /-- Raised when the platform changes a byte of the backing store outside 0..2^AB-1, an address that does not exist
  (20_memory.md R70). Safe: the model stops where there is nothing to change. After a RESET with an invalid CFG there is
  no valid AB, and the `ab` of the invalid record is the bound (assumption 14, DESIGN CHOICE). Safe too: the model stops
  where the platform may go on. -/
  | noSuchAddress
  deriving DecidableEq, Repr

/-- Why the model has no meaning for a command. -/
inductive Refusal where
  /-- Raised by `exec` alone, for a command that has no meaning yet, with its mnemonic. Safe. No arm raises it. -/
  | notModelled (mnemonic : String)
  deriving DecidableEq, Repr

/-- The cause codes of a fatal fault (60_exceptions.md R281). -/
inductive Cause where
  | illegalCmd
  | kindRange
  | heapCorrupt
  | divZero
  | cfgInvalid
  | operandRange
  | cdOverflow
  | pfMisaligned
  | restoreInvalid
  deriving DecidableEq, Repr

/-- A heap entry `(kind, due)`, with the kind NK marking the sentinel (10_state.md R23, R24). -/
structure Entry where
  kind : Nat
  due : W64
  deriving DecidableEq, Repr, Inhabited

/-- An entry `(cycle, value)` of a time-ordered register (10_state.md R40). -/
structure Stamp where
  cycle : W64
  value : W64
  deriving DecidableEq, Repr, Inhabited

/-- The complete state of the block: the tuple of 10_state.md R20, every element under its own name. `LEN` is the
length of `heap` (R23: "an array of exactly LEN entries") and `PF_LEN` the length of `pfQ` (R34). A value of this
type is also a SNAPSHOT image (60_exceptions.md R301). -/
structure Block where
  /-- `HEAP[0..LEN-1]`, slot 0 first (R23) -/
  heap : List Entry
  /-- `PRESENT`, bit k for kind k (R25) -/
  present : BitVec 8
  /-- `ACC[d]` (R28) -/
  acc : List W64
  /-- `STALL[d]` (R28) -/
  stall : List W64
  /-- `TOGGLE` (R29) -/
  toggle : Bool
  /-- `REFCNT` (R30) -/
  refcnt : W64
  /-- `BW[r]` (R32) -/
  bw : List Bool
  /-- `PF_EN` (R33) -/
  pfEn : Bool
  /-- `PF_Q`, oldest word first (R34) -/
  pfQ : List PfWord
  /-- `RADDR` (R35) -/
  raddr : W64
  /-- `WADDR` (R35) -/
  waddr : W64
  /-- `ACTIVE` (R36) -/
  active : Bool
  /-- `REM` (R36) -/
  rem : W64
  /-- `ENABLE` (R38) -/
  enable : W64
  /-- `FLAG` (R38) -/
  flag : W64
  /-- `SEQ[x]`, oldest entry first (R40) -/
  seq : List (List Stamp)
  /-- `FAULT` (R42) -/
  fault : Bool
  /-- `CAUSE` (R42) -/
  cause : BitVec 8
  deriving DecidableEq, Repr, Inhabited

/-- `STATUS` (30_encoding.md R105). -/
inductive Status where
  | ok
  | none
  | fault
  | faulted
  deriving DecidableEq, Repr

/-- A response: the four fixed fields of 30_encoding.md R104 and the tick vector `(T[d], G[d])` of R106, empty but
for CD_ADVANCE. -/
structure Response where
  status : Status
  k : BitVec 8
  r0 : W64
  r1 : W64
  ticks : List (W64 × W64)
  deriving DecidableEq, Repr

/-- What reaches the block from outside, one item a step: frames at the command port (20_memory.md R70), the host's
actions between commands (60_exceptions.md R300), and the platform changing a byte of the backing store
(20_memory.md R73, R85). -/
inductive Input where
  | frame (f : Frame)
  | reset (cfg : Cfg)
  | snapshot
  | restore (image : Block)
  | backWrite (addr : Nat) (value : Byte)
  deriving DecidableEq, Repr

/-- What the block hands out: a command's response, or SNAPSHOT's image (60_exceptions.md R300). -/
inductive Output where
  | response (r : Response)
  | image (im : Block)
  deriving DecidableEq, Repr

/-- The backing store's bytes, the addresses strictly rising and no listed byte equal to `unlistedByte`. -/
abbrev Memory := List Host.Cell

/-- The machine: the block, and what the spec gives it to work with. -/
structure State where
  /-- `CFG`, as the last RESET gave it (00_scope.md R9, 60_exceptions.md R300) -/
  cfg : Cfg
  /-- the block's own elements (10_state.md R20) -/
  blk : Block
  /-- the backing store `BACK`, as bytes (20_memory.md R73, R75) -/
  back : Memory
  /-- what has arrived and is not yet performed, next first (20_memory.md R81) -/
  inbox : List Input
  /-- what the last performed input handed out: the port's and the host's output, no state of the block (R21) -/
  out : Option Output
  /-- the model's own: how many free values have been drawn (assumption 6) -/
  drawn : Nat
  deriving DecidableEq, Repr

/-- The sentinel `(NK, MAX64)` (10_state.md R24). -/
def sentinel (c : Cfg) : Entry := ⟨c.nk, max64⟩

/-- Every element at its reset value (10_state.md R46). -/
def Block.reset (c : Cfg) : Block where
  heap := [sentinel c]
  present := 0#8
  acc := List.replicate c.nd 0#64
  stall := List.replicate c.nd 0#64
  toggle := false
  refcnt := 0#64
  bw := c.regions.map fun r => r.bwReset == 1
  pfEn := c.pfEnReset == 1
  pfQ := []
  raddr := 0#64
  waddr := 0#64
  active := false
  rem := 0#64
  enable := 0#64
  flag := 0#64
  seq := List.replicate c.nx []
  fault := false
  cause := 0#8

/-- The machine right after `RESET(CFG_REF)` (10_state.md R46, 70_reset_and_hazards.md R322): nothing has arrived,
nothing is handed out, the backing store lists no byte. -/
def State.reset : State where
  cfg := cfgRef
  blk := Block.reset cfgRef
  back := []
  inbox := []
  out := none
  drawn := 0

end Sys2Proof.Machine

/-- The elements a RESET with an invalid CFG leaves: "every element other than `FAULT` and `CAUSE` is unspecified"
(70_reset_and_hazards.md R320, 93_implementation_defined.md U16). A FREE VALUE: the n-th such RESET of a run leaves
the n-th value, and nothing says which it is (assumption 6). -/
opaque Sys2Proof.Config.unspecifiedBlock : Nat → Sys2Proof.Machine.Block
end

