-- ==== Sys2Proof/Machine/Flags.lean ====
section
/-! DEFINITION. The one-bit elements and derived conditions of the block (spec/10_state.md R43): PRESENT's bits,
`full` and `empty`, ready, pending, and a prefetch hit. -/

namespace Sys2Proof.Machine

/-- `PRESENT[k]` (10_state.md R25). -/
def isPresent (present : BitVec 8) (k : Nat) : Bool := present.getLsbD k

/-- `PRESENT[k] <- 1` (R134). -/
def setPresent (present : BitVec 8) (k : Nat) : BitVec 8 := present ||| (1#8 <<< k)

/-- `PRESENT[k] <- 0` (R138). -/
def clearPresent (present : BitVec 8) (k : Nat) : BitVec 8 := present &&& ~~~(1#8 <<< k)

/-- `full` is `PF_LEN = PF_N` (R196). -/
def Block.pfFull (c : Cfg) (b : Block) : Bool := b.pfQ.length == c.pfN

/-- `empty` is `PF_LEN = 0` (R196). -/
def Block.pfEmpty (b : Block) : Bool := b.pfQ.isEmpty

/-- The root is a real entry and is due at or before `now` (R136; 90_conflicts.md C1: the kind is tested too). -/
def rootReady (c : Cfg) (root : Entry) (now : W64) : Bool := root.kind != c.nk && root.due ≤ now

/-- `PENDING = ENABLE & FLAG`, computed when asked (10_state.md R39). -/
def Block.pending (b : Block) : W64 := b.enable &&& b.flag

/-- A request for `a` hits (R199). -/
def Block.pfHits (b : Block) (a : W64) : Bool := a == b.raddr && (b.active || !b.pfEmpty)

end Sys2Proof.Machine
end

