-- ==== Sys2Proof/Machine/Validity.lean ====
section
/-! DEFINITION. The checks of RESET and RESTORE: configuration validity (spec/70_reset_and_hazards.md R321), the
widths and lengths of the block's elements (10_state.md R20), and its invariants (R26, R31, R37, R41, R42), which
together are what 60_exceptions.md R302 checks of an image. -/

namespace Sys2Proof

/-! ### Configuration (00_scope.md R9, 70_reset_and_hazards.md R321) -/

/-- "some DIV[d] = 0" (R320), the check that comes first. -/
def Cfg.hasZeroDiv (c : Cfg) : Bool := c.div.any (· == 0)

/-- A power of two that is at most `2^limit`. -/
def isPow2UpTo (limit n : Nat) : Bool := (List.range (limit + 1)).any fun k => n == 2 ^ k

/-- Two regions share no address. -/
def Region.disjoint (r s : Region) : Bool := r.hi < s.lo || s.hi < r.lo

/-- The regions are pairwise disjoint. -/
def disjointRegions : List Region → Bool
  | [] => true
  | r :: rs => rs.all (Region.disjoint r) && disjointRegions rs

/-- The regions cover 0..2^AB-1: one starts at 0, and behind each stands the end of the space or another region. For
disjoint ranges below 2^AB this is the same as "their union is 0..2^AB-1" (`Laws/Validity.lean`). -/
def coversSpace (ab : Nat) (rs : List Region) : Bool :=
  rs.any (fun r => r.lo == 0) &&
  rs.all fun r => r.hi + 1 == 2 ^ ab || rs.any fun s => s.lo == r.hi + 1

/-- The bounds of one cost: a 32-bit number. -/
def cost32 (n : Nat) : Bool := n < 2 ^ 32

/-- Every entry of a cost table is at most 2^32-1. -/
def CostTable.inRange (t : CostTable) : Bool :=
  [t.w8, t.w16, t.w32].all fun s => [s.nonSeq, s.seq].all fun p => cost32 p.b0 && cost32 p.b1

/-- One region's own checks. -/
def Region.ok (ab : Nat) (r : Region) : Bool :=
  r.lo ≤ r.hi && r.hi < 2 ^ ab && r.wt.inRange && r.bwReset ≤ 1

/-- `PRIO` is a permutation of 0..NS-1. -/
def prioOk (ns : Nat) (prio : List Nat) : Bool :=
  prio.length == ns && (List.range ns).all fun s => prio.contains s

/-- A u64 parameter. -/
def fits64 (n : Nat) : Bool := n ≤ maxNat64

/-- The checks on the counts and on the clock domain converter's constants. -/
def Cfg.clockOk (c : Cfg) : Bool :=
  1 ≤ c.nk && c.nk ≤ 8 && 1 ≤ c.nd && c.nd ≤ 8 &&
  c.div.all (fun d => 1 ≤ d && fits64 d) &&
  fits64 c.refPeriod && ((c.refPeriod == 0 && c.refSlack == 0) || c.refSlack < c.refPeriod) &&
  fits64 c.refStall && c.refStallLong ≤ c.refStall &&
  fits64 c.grantPri && fits64 c.grantSecEven && fits64 c.grantSecOdd

/-- The checks on the bus regions. -/
def Cfg.busOk (c : Cfg) : Bool :=
  1 ≤ c.ab && c.ab ≤ 64 && 1 ≤ c.nr && c.nr ≤ 256 &&
  c.regions.all (Region.ok c.ab) && disjointRegions c.regions && coversSpace c.ab c.regions

/-- The checks on the prefetch unit's constants. -/
def Cfg.pfOk (c : Cfg) : Bool :=
  1 ≤ c.pfN && c.pfN ≤ 255 && (c.pfWb == 1 || c.pfWb == 2 || c.pfWb == 4) &&
  isPow2UpTo c.ab c.pfBoundary && c.pfWb ≤ c.pfBoundary && cost32 c.pfHitCost && c.pfEnReset ≤ 1

/-- The checks on the arbiter's and the time-ordered registers' constants. -/
def Cfg.iaXrOk (c : Cfg) : Bool :=
  1 ≤ c.ns && c.ns ≤ 64 && prioOk c.ns c.prio && 1 ≤ c.nx && c.nx ≤ 256 && 1 ≤ c.vw && c.vw ≤ 64 &&
  c.xrDefault.all (fun v => v < 2 ^ c.vw) && 1 ≤ c.xrCap && c.xrCap ≤ 255

/-- `CFG` is valid: every "valid when" of 00_scope.md R9 (R321). -/
def Cfg.valid (c : Cfg) : Bool := c.clockOk && c.busOk && c.pfOk && c.iaXrOk

end Sys2Proof

namespace Sys2Proof.Machine

/-! ### The type of the block's elements (10_state.md R20) -/

/-- Every element has the width and the length that R20 gives it under `c`. -/
def Block.fits (c : Cfg) (b : Block) : Bool :=
  b.heap.all (fun e => e.kind ≤ c.nk) && 1 ≤ b.heap.length && b.heap.length ≤ c.nk + 1 &&
  b.present.toNat < 2 ^ c.nk &&
  b.acc.length == c.nd && b.stall.length == c.nd &&
  b.bw.length == c.nr &&
  b.pfQ.length ≤ c.pfN && b.pfQ.all (fun w => w.toNat < 2 ^ (8 * c.pfWb)) &&
  b.raddr.toNat < 2 ^ c.ab && b.waddr.toNat < 2 ^ c.ab &&
  b.enable.toNat < 2 ^ c.ns && b.flag.toNat < 2 ^ c.ns &&
  b.seq.length == c.nx &&
  b.seq.all fun q => q.length ≤ c.xrCap && q.all fun e => e.value.toNat < 2 ^ c.vw

/-! ### The invariants -/

/-- `less(a, b)`: the order of entries (40_event_scheduler.md R130). -/
def less (a b : Entry) : Bool := a.due < b.due || (a.due == b.due && a.kind < b.kind)

/-- Slot i of an array (R23). The default is never read: every rule reads live slots. -/
def slot (h : List Entry) (i : Nat) : Entry := h.getD i default

/-- Heap order (10_state.md R26 (e)): no live slot is less than its parent. -/
def heapOrdered (h : List Entry) : Bool :=
  (List.range h.length).all fun i => i == 0 || !less (slot h i) (slot h ((i - 1) / 2))

/-- The kinds of the entries are pairwise different (R26 (c)). -/
def distinctKinds : List Entry → Bool
  | [] => true
  | e :: es => es.all (fun e' => e'.kind != e.kind) && distinctKinds es

/-- Some live entry has kind k. -/
def hasKind (h : List Entry) (k : Nat) : Bool := h.any fun e => e.kind == k

/-- R26 (b), (c), (d), (e); (a) is in `Block.fits`. Given (c), (b) says that the sentinel is live. -/
def Block.esOk (c : Cfg) (b : Block) : Bool :=
  b.heap.contains (sentinel c) && distinctKinds b.heap &&
  (List.range c.nk).all (fun k => isPresent b.present k == hasKind b.heap k) &&
  heapOrdered b.heap

/-- R31: every remainder below its divider, and the periodic count below its threshold. -/
def Block.cdOk (c : Cfg) (b : Block) : Bool :=
  (List.range c.nd).all (fun d => (b.acc.getD d 0).toNat < c.div.getD d 0) &&
  (if c.refPeriod = 0 then b.refcnt == 0#64 else b.refcnt.toNat < c.refPeriod - c.refSlack)

/-- R37 (b), (c), (d), (e); (a) is in `Block.fits`, and (f) follows from PF_N >= 1. -/
def Block.pfInv (c : Cfg) (b : Block) : Bool :=
  (b.active || b.rem == 0#64) &&
  b.waddr.toNat == (b.raddr.toNat + b.pfQ.length * c.pfWb) % 2 ^ c.ab &&
  b.raddr.toNat % c.pfWb == 0 && b.waddr.toNat % c.pfWb == 0 &&
  (!b.active || (b.pfEn && b.pfQ.length < c.pfN))

/-- The cycles of a sequence strictly increase (10_state.md R41). -/
def increasing : List Stamp → Bool
  | [] => true
  | e :: es => es.all (fun e' => e.cycle < e'.cycle) && increasing es

/-- R41; the bounds on length and value are in `Block.fits`. -/
def Block.xrOk (b : Block) : Bool := b.seq.all increasing

/-- `CAUSE = 0` exactly when `FAULT = 0`, and one of the codes 0x01 to 0x09 otherwise (R42; R302). -/
def Block.causeOk (b : Block) : Bool :=
  if b.fault then 1 ≤ b.cause.toNat && b.cause.toNat ≤ 9 else b.cause == 0#8

/-- Everything that 60_exceptions.md R302 checks of an image. -/
def Block.legal (c : Cfg) (b : Block) : Bool :=
  b.fits c && b.esOk c && b.cdOk c && b.pfInv c && b.xrOk && b.causeOk

end Sys2Proof.Machine
end

