-- ==== Sys2Proof/Machine/Operands.lean ====
section
/-! DEFINITION. How an operand is read from its field and checked (spec/30_encoding.md R102, R112 step 5): event
kind, domain, region, interrupt source and mask, register index and value, bus address, and the response fields a
result is placed in (R104). -/

namespace Sys2Proof.Machine

/-- The number of an IDX operand: a kind, a domain, a region, a source or a register (R102). -/
def idxNat (x : Idx) : Nat := x.toNat

/-- An event kind is in range: 0..NK-1 (R102, R134). -/
def kindInRange (c : Cfg) (x : Idx) : Bool := idxNat x < c.nk

/-- A secondary domain: 1..ND-1 (R102, R165). -/
def secondaryDomain (c : Cfg) (x : Idx) : Bool := 1 ≤ idxNat x && idxNat x < c.nd

/-- A region is in range: 0..NR-1 (R102, R193). -/
def regionInRange (c : Cfg) (x : Idx) : Bool := idxNat x < c.nr

/-- A register index is in range: 0..NX-1 (R102, R262). -/
def registerInRange (c : Cfg) (x : Idx) : Bool := idxNat x < c.nx

/-- A register value is in range: below 2^VW (R102, R262). -/
def valueInRange (c : Cfg) (v : W64) : Bool := v.toNat < 2 ^ c.vw

/-- A bus address is in range: below 2^AB (R102, R191, R207). -/
def addressInRange (c : Cfg) (a : W64) : Bool := a.toNat < 2 ^ c.ab

/-- A prefetch address is a multiple of PF_WB (R207). -/
def addressAligned (c : Cfg) (a : W64) : Bool := a.toNat % c.pfWb == 0

/-- `VALID = 2^NS - 1` (43_interrupt_arbiter.md R240). -/
def validSources (c : Cfg) : W64 := BitVec.ofNat 64 (2 ^ c.ns - 1)

/-- A mask operand: bits NS..63 are ignored (R240). -/
def maskOperand (c : Cfg) (m : W64) : W64 := m &&& validSources c

/-- `bit(s) = (1 << s) & VALID`, which is 0 when s >= NS (R240). -/
def sourceBit (c : Cfg) (x : Idx) : W64 := (1#64 <<< idxNat x) &&& validSources c

/-- A number placed in a 64-bit field. -/
def toW64 (n : Nat) : W64 := BitVec.ofNat 64 n

/-- A number placed in the K field. -/
def toK (n : Nat) : BitVec 8 := BitVec.ofNat 8 n

/-- `respond(OK, K, R0)`: R1 and the vector are empty (R104). -/
def Response.okWith (k : BitVec 8) (r0 : W64) : Response := ⟨.ok, k, r0, 0#64, []⟩

/-- `respond(OK)` (R104). -/
def Response.okay : Response := Response.okWith 0#8 0#64

/-- `respond(NONE)`: nothing to do (R105). -/
def Response.nothing : Response := ⟨.none, 0#8, 0#64, 0#64, []⟩

/-- The response to a command that raised a fault with this code (R105, 60_exceptions.md R282). -/
def Response.faultWith (code : BitVec 8) : Response := ⟨.fault, code, 0#64, 0#64, []⟩

/-- The response of a faulted block with this CAUSE (R105, 60_exceptions.md R283). -/
def Response.faultedWith (code : BitVec 8) : Response := ⟨.faulted, code, 0#64, 0#64, []⟩

/-- The STATUS codes (R105). -/
def Status.code : Status → BitVec 8
  | .ok => 0x00#8
  | .none => 0x01#8
  | .fault => 0x02#8
  | .faulted => 0x03#8

/-- The cause codes (60_exceptions.md R281). -/
def Cause.code : Cause → BitVec 8
  | .illegalCmd => 0x01#8
  | .kindRange => 0x02#8
  | .heapCorrupt => 0x03#8
  | .divZero => 0x04#8
  | .cfgInvalid => 0x05#8
  | .operandRange => 0x06#8
  | .cdOverflow => 0x07#8
  | .pfMisaligned => 0x08#8
  | .restoreInvalid => 0x09#8

/-- The fixed fields of a response as bits: `STATUS ++ K ++ R0 ++ R1` (R104). -/
def Response.fixedBits (r : Response) : BitVec 144 := r.status.code ++ r.k ++ r.r0 ++ r.r1

/-- The vector of a response as 64-bit words, in order of d: `T[0], G[0], T[1], G[1], ...` (R106). -/
def Response.vectorWords (r : Response) : List W64 := r.ticks.flatMap fun tg => [tg.1, tg.2]

/-- A 64-bit word as 8 bytes, most significant first (R113). -/
def bytesOfW64 (w : W64) : List Byte := (List.range 8).map fun i => w.extractLsb' (8 * (7 - i)) 8

/-- A response as bytes: the 18 bytes of its fixed fields (R113), then its vector (R106). -/
def Response.bytes (r : Response) : List Byte :=
  bytesOfFrame r.fixedBits ++ r.vectorWords.flatMap bytesOfW64

/-- The length of a response in bits: 144, and 128 for each domain of the vector (R104, R106). -/
def Response.bitLength (r : Response) : Nat := 144 + 128 * r.ticks.length

end Sys2Proof.Machine
end

