-- ==== Sys2Proof/Machine/Ops.lean ====
section
/-! DEFINITION. The operations that every command shares: serving a command, taking a fault and leaving the faulted
mode (spec/60_exceptions.md R280 to R284, R300 to R303), the port's inbox, and the backing store as bytes
(20_memory.md R73, R75). -/

namespace Sys2Proof.Machine

/-! ### The backing store -/

/-- What a byte of the backing store that nothing lists holds (assumption 4, DESIGN CHOICE). -/
def unlistedByte : Byte := 0#8

/-- The canonical form: addresses strictly rising, no listed byte equal to `unlistedByte`. -/
def Memory.wf : Memory → Bool
  | [] => true
  | (a, v) :: m => v != unlistedByte && m.all (fun x => a < x.1) && Memory.wf m

/-- The byte at an address. -/
def Memory.read : Memory → Nat → Byte
  | [], _ => unlistedByte
  | (a, v) :: m, x => if x = a then v else Memory.read m x

/-- Storing a byte, keeping the canonical form: the value an unlisted address reads as removes the entry. -/
def Memory.write : Memory → Nat → Byte → Memory
  | [], x, v => if v = unlistedByte then [] else [(x, v)]
  | (a, w) :: m, x, v =>
    if x < a then (if v = unlistedByte then (a, w) :: m else (x, v) :: (a, w) :: m)
    else if x = a then (if v = unlistedByte then m else (x, v) :: m)
    else (a, w) :: Memory.write m x v

/-- The n bytes from `a` up as one number, the byte at the lower address less significant (20_memory.md R75). -/
def Memory.readLE (m : Memory) (a : Nat) : Nat → Nat
  | 0 => 0
  | n + 1 => (Memory.read m a).toNat + 256 * Memory.readLE m (a + 1) n

/-- `MemRead(addr, PF_WB)`: the word `BACK` holds (00_scope.md R13, 20_memory.md R73). -/
def memRead (c : Cfg) (back : Memory) (a : W64) : PfWord := BitVec.ofNat 32 (Memory.readLE back a.toNat c.pfWb)

/-! ### Serving a command -/

/-- What a command's rule gives: the elements after it and its response, or the fault it raises. A fault names no
elements: "no state element other than FAULT and CAUSE changes" (00_scope.md R13). -/
abbrev Effect := Except Cause (Block × Response)

/-- The state with the given elements and the given response put out. -/
def State.answer (s : State) (b : Block) (r : Response) : State := { s with blk := b, out := some (.response r) }

/-- The elements after the fault F: `FAULT <- 1`, `CAUSE <- code(F)`, nothing else (60_exceptions.md R282). -/
def Block.raised (b : Block) (f : Cause) : Block := { b with fault := true, cause := f.code }

/-- TAKING A FAULT, the block's one exception: the elements of `Block.raised`, the response FAULT with the code.
"Nothing is saved, no vector is fetched, no handler runs" (60_exceptions.md R282). -/
def State.takeFault (s : State) (f : Cause) : State := s.answer (s.blk.raised f) (.faultWith f.code)

/-- While `FAULT = 1`: FAULTED with `K = CAUSE`, and nothing changes (60_exceptions.md R283). -/
def State.stillFaulted (s : State) : State := s.answer s.blk (.faultedWith s.blk.cause)

/-- The block has a valid CFG and its elements are of the type R20 gives them (assumption 3). -/
def State.shaped (s : State) : Bool := s.cfg.valid && s.blk.fits s.cfg

/-- A command in either mode (60_exceptions.md R280): FAULTED answers and changes nothing, RUN has the command's
effect or takes its fault (R282, R283). -/
def serve (s : State) (e : Effect) : Host.Outcome State Fault Refusal :=
  if s.blk.fault then .next s.stillFaulted
  else if s.shaped then
    match e with
    | .ok (b, r) => .next (s.answer b r)
    | .error f => .next (s.takeFault f)
  else .fault .malformed

/-- A frame that is no command (30_encoding.md R107, R112): illegal, whatever the elements hold. -/
def serveIllegal (s : State) : Host.Outcome State Fault Refusal :=
  if s.blk.fault then .next s.stillFaulted else .next (s.takeFault .illegalCmd)

/-! ### Host actions, among them the two that leave FAULTED (60_exceptions.md R284, R300 to R303) -/

/-- An action that hands nothing out. -/
def State.silent (s : State) : State := { s with out := none }

/-- The elements after a RESET that faults: FAULT and CAUSE, the rest unspecified (70_reset_and_hazards.md R320). -/
def Block.afterBadReset (drawn : Nat) (f : Cause) : Block := (Config.unspecifiedBlock drawn).raised f

/-- `RESET(CFG)`: construction, total and applicable in any mode (70_reset_and_hazards.md R320). -/
def hostReset (c : Cfg) (s : State) : State :=
  if c.hasZeroDiv then
    { s.silent with cfg := c, blk := Block.afterBadReset s.drawn .divZero, drawn := s.drawn + 1 }
  else if c.valid then { s.silent with cfg := c, blk := Block.reset c }
  else { s.silent with cfg := c, blk := Block.afterBadReset s.drawn .cfgInvalid, drawn := s.drawn + 1 }

/-- SNAPSHOT: the image is the value of every element; nothing else changes (60_exceptions.md R301). -/
def hostSnapshot (s : State) : State := { s with out := some (.image s.blk) }

/-- RESTORE: a legal image becomes the state; a bad one faults a block in RUN and changes nothing in one that is
FAULTED; without a valid CFG every image is refused (60_exceptions.md R302). -/
def hostRestore (im : Block) (s : State) : State :=
  if s.cfg.valid && im.legal s.cfg then { s.silent with blk := im }
  else if s.blk.fault then s.silent
  else { s.silent with blk := s.blk.raised .restoreInvalid }

/-- The platform changes a byte of the backing store (20_memory.md R73, R85): no element of the block changes.
DESIGN CHOICE (assumption 5): one byte a time, an address of 2^AB or more stops. DESIGN CHOICE (assumption 14): after a
RESET with an invalid CFG the spec gives no valid AB, and the bound is taken from the `ab` of that invalid record. -/
def platformWrite (a : Nat) (v : Byte) (s : State) : Host.Outcome State Fault Refusal :=
  if a < 2 ^ s.cfg.ab then .next { s.silent with back := s.back.write a v } else .fault .noSuchAddress

/-! ### What arrives -/

/-- The next item that has arrived, and the state without it. -/
def State.take (s : State) : Option (Input × State) :=
  match s.inbox with
  | [] => none
  | i :: rest => some (i, { s with inbox := rest })

/-- The frame of a table word at the head of what has arrived. -/
def State.arrives (s : State) (f : Frame) : State := { s with inbox := .frame f :: s.inbox }

end Sys2Proof.Machine
end

