-- ==== Sys2Proof/Machine/BusTiming.lean ====
section
/-! DEFINITION. The bus cost table commands (spec/42_bus_timing_prefetch.md R190 to R193, R205): BT_COST, BT_SETBW,
BT_SETPF. -/

namespace Sys2Proof.Machine

/-- An address lies in a region (20_memory.md R72). -/
def Region.holds (a : Nat) (r : Region) : Bool := r.lo ≤ a && a ≤ r.hi

/-- `region(a)`: under a valid CFG the unique region that holds the address (20_memory.md R72). -/
def regionOf (c : Cfg) (a : Nat) : Option Nat := c.regions.findIdx? (Region.holds a)

/-- `BW[r]`. -/
def bwOf (b : Block) (r : Nat) : Bool := b.bw.getD r false

/-- `wt(a, w, q) = REGION[region(a)].WT[w][q][BW[region(a)]]` (R190). No command reaches the last case: it serves only
under a valid CFG, whose regions hold every address (assumption 3). -/
def waitCycles (c : Cfg) (b : Block) (a w : Nat) (q : Bool) : Nat :=
  match regionOf c a with
  | some r => (c.regions.getD r default).wt.cost w q (bwOf b r)
  | none => 0

/-- The effect of BT_COST (R191). -/
def btCostEffect (c : Cfg) (b : Block) (w : BitVec 2) (seq : Bool) (a : W64) : Effect :=
  if !widthCodeOk w then .error .illegalCmd
  else if !addressInRange c a then .error .operandRange
  else .ok (b, .okWith 0#8 (toW64 (waitCycles c b a.toNat w.toNat seq)))

/-- BT_COST addr (R191). -/
def execBtCost (w : BitVec 2) (seq : Bool) (addr : W64) (s : State) : Host.Outcome State Fault Refusal :=
  serve s (btCostEffect s.cfg s.blk w seq addr)

/-- The effect of BT_SETBW (R193). -/
def btSetbwEffect (c : Cfg) (b : Block) (r : Idx) (bit : Bool) : Effect :=
  if !regionInRange c r then .error .operandRange
  else .ok ({ b with bw := b.bw.set (idxNat r) bit }, .okay)

/-- BT_SETBW r, b (R193). -/
def execBtSetbw (r : Idx) (bit : Bool) (s : State) : Host.Outcome State Fault Refusal :=
  serve s (btSetbwEffect s.cfg s.blk r bit)

/-- The effect of BT_SETPF: disabling abandons the fetch in progress (R205). -/
def btSetpfEffect (b : Block) (en : Bool) : Effect :=
  if en then .ok ({ b with pfEn := true }, .okay)
  else .ok ({ b with pfEn := false, active := false, rem := 0#64 }, .okay)

/-- BT_SETPF en (R205). -/
def execBtSetpf (en : Bool) (s : State) : Host.Outcome State Fault Refusal :=
  serve s (btSetpfEffect s.blk en)

end Sys2Proof.Machine
end

