-- ==== Sys2Proof/Machine/ClockDomains.lean ====
section
/-! DEFINITION. The Clock Domain Converter commands (spec/41_clock_domain_converter.md): the conversion R161, the
gating R162, the periodic stall R164 and CD_ADVANCE, CD_BUSGRANT. Sums are formed exactly on naturals (R167). -/

namespace Sys2Proof.Machine

/-- `ACC[d]` as a number. -/
def accOf (b : Block) (d : Nat) : Nat := (b.acc.getD d 0).toNat
/-- `STALL[d]` as a number. -/
def stallOf (b : Block) (d : Nat) : Nat := (b.stall.getD d 0).toNat
/-- `DIV[d]`. -/
def divOf (c : Cfg) (d : Nat) : Nat := c.div.getD d 0

/-- `convert(d, m)`: the ticks produced (R161). -/
def convertTicks (c : Cfg) (b : Block) (m d : Nat) : Nat := (accOf b d + m) / divOf c d
/-- `convert(d, m)`: the master cycles left over (R161). -/
def convertRest (c : Cfg) (b : Block) (m d : Nat) : Nat := (accOf b d + m) % divOf c d

/-- `TH = REF_PERIOD - REF_SLACK` (R164). -/
def periodThreshold (c : Cfg) : Nat := c.refPeriod - c.refSlack

/-- `periodic(m, LONG)`: the ticks injected and the new REFCNT (R164). -/
def periodic (c : Cfg) (b : Block) (m : Nat) (long : Bool) : Nat × Nat :=
  if c.refPeriod = 0 then (0, 0)
  else
    let count := b.refcnt.toNat + m
    let n := count / periodThreshold c
    let inj := if n = 0 then 0 else if long then c.refStallLong else n * c.refStall
    (inj, count % periodThreshold c)

/-- The stall of domain d once the injected stall has been added to the primary's (R163). -/
def stallWith (b : Block) (inj d : Nat) : Nat := if d = 0 then stallOf b 0 + inj else stallOf b d

/-- `gate(d, t)`: the ticks of the stall that this command spends (R162). -/
def stallSpent (c : Cfg) (b : Block) (inj m d : Nat) : Nat := min (stallWith b inj d) (convertTicks c b m d)

/-- `(T[d], G[d])` (R163). -/
def tickPair (c : Cfg) (b : Block) (inj m d : Nat) : W64 × W64 :=
  (toW64 (convertTicks c b m d), toW64 (convertTicks c b m d - stallSpent c b inj m d))

/-- The effect of CD_ADVANCE (R163). -/
def cdAdvanceEffect (c : Cfg) (b : Block) (long : Bool) (mc : W64) : Effect :=
  let m := mc.toNat
  let p := periodic c b m long
  if maxNat64 < stallOf b 0 + p.1 then .error .cdOverflow
  else
    let domains := List.range c.nd
    .ok ({ b with
        refcnt := toW64 p.2
        acc := domains.map fun d => toW64 (convertRest c b m d)
        stall := domains.map fun d => toW64 (stallWith b p.1 d - stallSpent c b p.1 m d) },
      ⟨.ok, 0#8, toW64 p.1, 0#64, domains.map (tickPair c b p.1 m)⟩)

/-- CD_ADVANCE mc, CD_ADVANCE.L mc (R163). -/
def execCdAdvance (long : Bool) (mc : W64) (s : State) : Host.Outcome State Fault Refusal :=
  serve s (cdAdvanceEffect s.cfg s.blk long mc)

/-- The stall a bus grant charges to the secondary domain (R165). -/
def grantSecondary (c : Cfg) (b : Block) : Nat := if b.toggle then c.grantSecOdd else c.grantSecEven

/-- The effect of CD_BUSGRANT (R165). -/
def cdBusgrantEffect (c : Cfg) (b : Block) (x : Idx) : Effect :=
  let d := idxNat x
  let sec := grantSecondary c b
  if !secondaryDomain c x then .error .operandRange
  else if maxNat64 < stallOf b 0 + c.grantPri || maxNat64 < stallOf b d + sec then .error .cdOverflow
  else
    .ok ({ b with
      stall := (b.stall.set 0 (toW64 (stallOf b 0 + c.grantPri))).set d (toW64 (stallOf b d + sec))
      toggle := !b.toggle }, .okay)

/-- CD_BUSGRANT d (R165). -/
def execCdBusgrant (d : Idx) (s : State) : Host.Outcome State Fault Refusal :=
  serve s (cdBusgrantEffect s.cfg s.blk d)

end Sys2Proof.Machine
end

