-- ==== Sys2Proof/Machine/EventScheduler.lean ====
section
/-! DEFINITION. The Event Scheduler commands (spec/40_event_scheduler.md): the heap procedures R131 to R133, R138 and
ES_INSERT, ES_REMOVE, ES_READY, ES_POP. -/

namespace Sys2Proof.Machine

/-- Exchange two slots. -/
def swapSlots (h : List Entry) (i j : Nat) : List Entry := (h.set i (slot h j)).set j (slot h i)

/-- `sift_up(i)` and the slot where the entry ends up (R131). `fuel` bounds the loop: i itself is enough. -/
def siftUp : (fuel : Nat) → List Entry → Nat → List Entry × Nat
  | 0, h, i => (h, i)
  | fuel + 1, h, i =>
    if i = 0 then (h, i)
    else if less (slot h i) (slot h ((i - 1) / 2)) then
      siftUp fuel (swapSlots h i ((i - 1) / 2)) ((i - 1) / 2)
    else (h, i)

/-- The slot that `sift_down` exchanges slot i with, i itself when it stops (R132). -/
def smallestChild (h : List Entry) (i : Nat) : Nat :=
  let l := 2 * i + 1
  let r := 2 * i + 2
  let m := if l < h.length && less (slot h l) (slot h i) then l else i
  if r < h.length && less (slot h r) (slot h m) then r else m

/-- `sift_down(i)` (R132). `fuel` bounds the loop: LEN is enough. -/
def siftDown : (fuel : Nat) → List Entry → Nat → List Entry
  | 0, h, _ => h
  | fuel + 1, h, i =>
    if smallestChild h i = i then h
    else siftDown fuel (swapSlots h i (smallestChild h i)) (smallestChild h i)

/-- `find(k)`: the smallest slot that holds kind k (R133). -/
def findKind (h : List Entry) (k : Nat) : Option Nat := h.findIdx? fun e => e.kind == k

/-- The heap after the last entry has moved into slot i and found its place (R138). -/
def refill (h : List Entry) (i : Nat) : List Entry :=
  let h' := (h.set i (slot h (h.length - 1))).dropLast
  if i < h'.length then
    let up := siftUp i h' i
    if up.2 = i then siftDown h'.length up.1 i else up.1
  else h'

/-- `remove_at(i)` (R138). -/
def removeAt (b : Block) (i : Nat) : Block :=
  { b with heap := refill b.heap i, present := clearPresent b.present (slot b.heap i).kind }

/-- The heap after the entry in slot i takes the due cycle t (R134). -/
def updateDue (h : List Entry) (i : Nat) (t : W64) : List Entry :=
  let old := (slot h i).due
  let h' := h.set i { slot h i with due := t }
  if t < old then (siftUp i h' i).1 else if old < t then siftDown h'.length h' i else h'

/-- The effect of ES_INSERT (R134). -/
def esInsertEffect (c : Cfg) (b : Block) (x : Idx) (t : W64) : Effect :=
  let k := idxNat x
  if !kindInRange c x then .error .kindRange
  else if isPresent b.present k then
    match findKind b.heap k with
    | none => .error .heapCorrupt
    | some i => .ok ({ b with heap := updateDue b.heap i t }, .okay)
  else
    .ok ({ b with
      heap := (siftUp b.heap.length (b.heap ++ [⟨k, t⟩]) b.heap.length).1
      present := setPresent b.present k }, .okay)

/-- ES_INSERT kind, due (R134). -/
def execEsInsert (kind : Idx) (due : W64) (s : State) : Host.Outcome State Fault Refusal :=
  serve s (esInsertEffect s.cfg s.blk kind due)

/-- The effect of ES_REMOVE (R135). -/
def esRemoveEffect (c : Cfg) (b : Block) (x : Idx) : Effect :=
  let k := idxNat x
  if !kindInRange c x then .error .kindRange
  else if isPresent b.present k then
    match findKind b.heap k with
    | none => .error .heapCorrupt
    | some i => .ok (removeAt b i, .okay)
  else .ok (b, .okay)

/-- ES_REMOVE kind (R135). -/
def execEsRemove (kind : Idx) (s : State) : Host.Outcome State Fault Refusal :=
  serve s (esRemoveEffect s.cfg s.blk kind)

/-- The effect of ES_READY (R136). -/
def esReadyEffect (c : Cfg) (b : Block) (now : W64) : Effect :=
  .ok (b, .okWith 0#8 (bit64 (rootReady c (slot b.heap 0) now)))

/-- ES_READY now (R136). -/
def execEsReady (now : W64) (s : State) : Host.Outcome State Fault Refusal :=
  serve s (esReadyEffect s.cfg s.blk now)

/-- The effect of ES_POP (R137). -/
def esPopEffect (c : Cfg) (b : Block) (now : W64) : Effect :=
  let root := slot b.heap 0
  if rootReady c root now then .ok (removeAt b 0, .okWith (toK root.kind) root.due) else .ok (b, .nothing)

/-- ES_POP now (R137). -/
def execEsPop (now : W64) (s : State) : Host.Outcome State Fault Refusal :=
  serve s (esPopEffect s.cfg s.blk now)

end Sys2Proof.Machine
end

