-- ==== Sys2Proof/Machine/Interrupts.lean ====
section
/-! DEFINITION. The Interrupt Priority Arbiter commands (spec/43_interrupt_arbiter.md): IA_SETFLAG, IA_WRENABLE,
IA_WRFLAGCLR, IA_HPP, IA_ACK. -/

namespace Sys2Proof.Machine

/-- IA_SETFLAG s: `FLAG <- FLAG | bit(s)` (R241). -/
def execIaSetflag (src : Idx) (s : State) : Host.Outcome State Fault Refusal :=
  serve s (.ok ({ s.blk with flag := s.blk.flag ||| sourceBit s.cfg src }, .okay))

/-- IA_WRENABLE mask: `ENABLE <- m & VALID` (R242). -/
def execIaWrenable (mask : W64) (s : State) : Host.Outcome State Fault Refusal :=
  serve s (.ok ({ s.blk with enable := maskOperand s.cfg mask }, .okay))

/-- IA_WRFLAGCLR mask: `FLAG <- FLAG & ~(m & VALID)` (R243). -/
def execIaWrflagclr (mask : W64) (s : State) : Host.Outcome State Fault Refusal :=
  serve s (.ok ({ s.blk with flag := s.blk.flag &&& ~~~(maskOperand s.cfg mask) }, .okay))

/-- "the first element of PRIO with p[s] = 1" (R244, R246). -/
def firstPending (c : Cfg) (p : W64) : Option Nat := c.prio.find? fun s => p.getLsbD s

/-- The response of IA_HPP (R244). -/
def hppResponse (c : Cfg) (b : Block) : Response :=
  match firstPending c b.pending with
  | some s => .okWith (toK s) 0#64
  | none => .nothing

/-- IA_HPP (R244). -/
def execIaHpp (s : State) : Host.Outcome State Fault Refusal :=
  serve s (.ok (s.blk, hppResponse s.cfg s.blk))

/-- IA_ACK s: `FLAG <- FLAG & ~bit(s)` (R245). -/
def execIaAck (src : Idx) (s : State) : Host.Outcome State Fault Refusal :=
  serve s (.ok ({ s.blk with flag := s.blk.flag &&& ~~~(sourceBit s.cfg src) }, .okay))

end Sys2Proof.Machine
end

