-- ==== Sys2Proof/Machine/Prefetch.lean ====
section
/-! DEFINITION. The prefetch unit (spec/42_bus_timing_prefetch.md R194 to R204, R207): the fetch engine and PF_PREPARE,
PF_READ, PF_ADVANCE. -/

namespace Sys2Proof.Machine

/-- The width code of a prefetch word: `pw = 0, 1, 2` for `PF_WB = 1, 2, 4` (R194). -/
def pfWidthCode (c : Cfg) : Nat := if c.pfWb = 1 then 0 else if c.pfWb = 2 then 1 else 2

/-- `LAT_N(a)`, "the full fetch latency" (R194). -/
def latN (c : Cfg) (b : Block) (a : W64) : Nat := waitCycles c b a.toNat (pfWidthCode c) false
/-- `LAT_S(a)`, a fetch that continues a run (R194). -/
def latS (c : Cfg) (b : Block) (a : W64) : Nat := waitCycles c b a.toNat (pfWidthCode c) true

/-- The address one word on, mod 2^AB (R198, R202). -/
def nextWord (c : Cfg) (a : W64) : W64 := toW64 ((a.toNat + c.pfWb) % 2 ^ c.ab)

/-- WADDR starts a new block of PF_BOUNDARY bytes (R197). -/
def atBoundary (c : Cfg) (b : Block) : Bool := b.waddr.toNat % c.pfBoundary == 0

/-- A fetch of the word at WADDR is in progress and needs n cycles. -/
def Block.fetching (b : Block) (n : Nat) : Block := { b with active := true, rem := toW64 n }
/-- No fetch is in progress (10_state.md R36). -/
def Block.idle (b : Block) : Block := { b with active := false, rem := 0#64 }

/-- `cont()`: after a fetch, whether the engine goes on (R197). -/
def cont (c : Cfg) (b : Block) : Block :=
  if b.pfEn && b.pfQ.length < c.pfN && !atBoundary c b then b.fetching (latS c b b.waddr) else b.idle

/-- `complete_fetch()`: the fetch of the word at WADDR completes, reading BACK now (R198). -/
def completeFetch (c : Cfg) (back : Memory) (b : Block) : Block :=
  cont c { b with pfQ := b.pfQ ++ [memRead c back b.waddr], waddr := nextWord c b.waddr }

/-- The address checks of PF_PREPARE and PF_READ, in their order (R207). -/
def checkPfAddress (c : Cfg) (a : W64) : Except Cause Unit :=
  if !addressInRange c a then .error .operandRange
  else if !addressAligned c a then .error .pfMisaligned
  else .ok ()

/-- The extra cycle of stopping a fetch one cycle before it completes (R201). -/
def extraCycle (b : Block) : Nat := if b.active && b.rem == 1#64 then 1 else 0

/-- The unit reset to start fetching at a new address: the buffer is discarded (R200, 20_memory.md R86). -/
def Block.restartAt (b : Block) (a : W64) : Block :=
  { b with pfQ := [], raddr := a, waddr := a, active := false, rem := 0#64 }

/-- PF_PREPARE once its address is good: buffer hit, hit on a fetch in progress, or miss (R200). -/
def prepare (c : Cfg) (back : Memory) (b : Block) (a : W64) : Block × Response :=
  if a == b.raddr && !b.pfEmpty then (b, .okWith 1#8 (toW64 c.pfHitCost))
  else if b.pfHits a then (completeFetch c back b, .okWith 2#8 b.rem)
  else (completeFetch c back (b.restartAt a), .okWith 0#8 (toW64 (latN c b a + extraCycle b)))

/-- The effect of PF_PREPARE (R200). -/
def pfPrepareEffect (c : Cfg) (back : Memory) (b : Block) (a : W64) : Effect := do
  checkPfAddress c a
  return prepare c back b a

/-- PF_PREPARE addr (R200). -/
def execPfPrepare (addr : W64) (s : State) : Host.Outcome State Fault Refusal :=
  serve s (pfPrepareEffect s.cfg s.back s.blk addr)

/-- The read that empties the buffer of a paused, enabled engine restarts it at WADDR with LAT_N (R202, R203). -/
def resume (c : Cfg) (b : Block) : Block :=
  if b.pfEmpty && !b.active && b.pfEn then b.fetching (latN c b b.waddr) else b

/-- PF_READ once its address is good (R202). -/
def readWord (c : Cfg) (b : Block) (a : W64) : Block × Response :=
  match b.pfQ with
  | [] => (b, .nothing)
  | w :: q =>
    if a == b.raddr then
      (resume c { b with pfQ := q, raddr := nextWord c b.raddr }, .okWith 0#8 (w.setWidth 64))
    else (b, .nothing)

/-- The effect of PF_READ (R202). -/
def pfReadEffect (c : Cfg) (b : Block) (a : W64) : Effect := do
  checkPfAddress c a
  return readWord c b a

/-- PF_READ addr (R202). -/
def execPfRead (addr : W64) (s : State) : Host.Outcome State Fault Refusal :=
  serve s (pfReadEffect s.cfg s.blk addr)

/-- The loop of PF_ADVANCE over the cycles n (R204). `fuel` bounds it: each turn but the last adds a word and `cont`
stops at a full buffer, so PF_N + 1 turns are enough (R204 (d)). -/
def runEngine (c : Cfg) (back : Memory) : (fuel : Nat) → Block → Nat → Block
  | 0, b, _ => b
  | fuel + 1, b, n =>
    if n = 0 || !b.active then b
    else if n < b.rem.toNat then { b with rem := toW64 (b.rem.toNat - n) }
    else runEngine c back fuel (completeFetch c back b) (n - b.rem.toNat)

/-- The effect of PF_ADVANCE (R204). -/
def pfAdvanceEffect (c : Cfg) (back : Memory) (b : Block) (cycles : W64) : Effect :=
  .ok (runEngine c back (c.pfN + 1) b cycles.toNat, .okay)

/-- PF_ADVANCE cycles (R204). -/
def execPfAdvance (cycles : W64) (s : State) : Host.Outcome State Fault Refusal :=
  serve s (pfAdvanceEffect s.cfg s.back s.blk cycles)

end Sys2Proof.Machine
end

