-- ==== Sys2Proof/Machine/TimeOrdered.lean ====
section
/-! DEFINITION. The Time-Ordered Cross-Domain Register commands (spec/44_time_ordered_register.md): XR_WRITE,
XR_READ. -/

namespace Sys2Proof.Machine

/-- `SEQ[x]`. -/
def seqOf (b : Block) (x : Nat) : List Stamp := b.seq.getD x []

/-- Insert so that the cycles stay increasing (R260). -/
def insertStamp (e : Stamp) : List Stamp → List Stamp
  | [] => [e]
  | f :: q => if e.cycle < f.cycle then e :: f :: q else f :: insertStamp e q

/-- Replace the value at a cycle that is stored, else insert (R260). -/
def putStamp (e : Stamp) (q : List Stamp) : List Stamp :=
  if q.any fun f => f.cycle == e.cycle then q.map fun f => if f.cycle = e.cycle then e else f
  else insertStamp e q

/-- "while |S| > XR_CAP: remove S[0]" (R260). -/
def evict (cap : Nat) (q : List Stamp) : List Stamp := q.drop (q.length - cap)

/-- The effect of XR_WRITE, with the operand checks of R262 in their order (R260). -/
def xrWriteEffect (c : Cfg) (b : Block) (x : Idx) (cycle value : W64) : Effect :=
  if !registerInRange c x then .error .operandRange
  else if !valueInRange c value then .error .operandRange
  else
    let q := evict c.xrCap (putStamp ⟨cycle, value⟩ (seqOf b (idxNat x)))
    .ok ({ b with seq := b.seq.set (idxNat x) q }, .okay)

/-- XR_WRITE x, at, value (R260). -/
def execXrWrite (x : Idx) (cycle value : W64) (s : State) : Host.Outcome State Fault Refusal :=
  serve s (xrWriteEffect s.cfg s.blk x cycle value)

/-- The most recent entry at or before a cycle, scanning from the youngest backward (R261). -/
def lastAt (q : List Stamp) (asOf : W64) : Option Stamp := q.reverse.find? fun e => e.cycle ≤ asOf

/-- The value a read returns: the default when no entry qualifies (R261). -/
def readAsOf (c : Cfg) (b : Block) (x : Nat) (asOf : W64) : W64 :=
  match lastAt (seqOf b x) asOf with
  | some e => e.value
  | none => toW64 (c.xrDefault.getD x 0)

/-- The effect of XR_READ (R261, R262). -/
def xrReadEffect (c : Cfg) (b : Block) (x : Idx) (asOf : W64) : Effect :=
  if !registerInRange c x then .error .operandRange
  else .ok (b, .okWith 0#8 (readAsOf c b (idxNat x) asOf))

/-- XR_READ x, as_of (R261). -/
def execXrRead (x : Idx) (asOf : W64) (s : State) : Host.Outcome State Fault Refusal :=
  serve s (xrReadEffect s.cfg s.blk x asOf)

end Sys2Proof.Machine
end

