-- ==== Sys2Proof/Machine/Dispatch.lean ====
section
/-! DEFINITION. One arm per command (spec/30_encoding.md R103, R112 steps 5 and 6). -/

namespace Sys2Proof.Machine

def exec (i : Instr) (s : State) : Host.Outcome State Fault Refusal :=
  match i with
  | .esInsert kind due => Sys2Proof.Machine.execEsInsert kind due s
  | .esRemove kind => Sys2Proof.Machine.execEsRemove kind s
  | .esReady now => Sys2Proof.Machine.execEsReady now s
  | .esPop now => Sys2Proof.Machine.execEsPop now s
  | .cdAdvance long mc => Sys2Proof.Machine.execCdAdvance long mc s
  | .cdBusgrant d => Sys2Proof.Machine.execCdBusgrant d s
  | .btCost w seq addr => Sys2Proof.Machine.execBtCost w seq addr s
  | .btSetbw r bit => Sys2Proof.Machine.execBtSetbw r bit s
  | .btSetpf en => Sys2Proof.Machine.execBtSetpf en s
  | .pfPrepare addr => Sys2Proof.Machine.execPfPrepare addr s
  | .pfRead addr => Sys2Proof.Machine.execPfRead addr s
  | .pfAdvance cycles => Sys2Proof.Machine.execPfAdvance cycles s
  | .iaSetflag src => Sys2Proof.Machine.execIaSetflag src s
  | .iaWrenable mask => Sys2Proof.Machine.execIaWrenable mask s
  | .iaWrflagclr mask => Sys2Proof.Machine.execIaWrflagclr mask s
  | .iaHpp => Sys2Proof.Machine.execIaHpp s
  | .iaAck src => Sys2Proof.Machine.execIaAck src s
  | .xrWrite x cycle value => Sys2Proof.Machine.execXrWrite x cycle value s
  | .xrRead x asOf => Sys2Proof.Machine.execXrRead x asOf s

end Sys2Proof.Machine
end

