-- ==== Sys2Proof/Machine/Step.lean ====
section
/-! DEFINITION. One step of the machine: the next item that has arrived is performed, whole (spec/00_scope.md R15,
20_memory.md R81). -/

namespace Sys2Proof.Machine

/-- A frame: decoded unless the block is FAULTED, then executed (30_encoding.md R112, 60_exceptions.md R283). -/
def performFrame (f : Frame) (s : State) : Host.Outcome State Fault Refusal :=
  match decode f with
  | .ok i => exec i s
  | .error _ => serveIllegal s

/-- One step. With nothing waiting the block does nothing: it "never calls anything: it answers commands" (R8). -/
def step (s : State) : Host.Outcome State Fault Refusal :=
  match s.take with
  | none => .next s
  | some (.frame f, s') => performFrame f s'
  | some (.reset c, s') => .next (hostReset c s')
  | some (.snapshot, s') => .next (hostSnapshot s')
  | some (.restore im, s') => .next (hostRestore im s')
  | some (.backWrite a v, s') => platformWrite a v s'

/-- The state with the frame of a table word as the next thing to be performed (assumption 1). -/
def State.withFetchWord (s : State) (nbits w : Nat) : State := s.arrives (tableFrame nbits w)

end Sys2Proof.Machine
end

