-- ==== Sys2Proof/Safety.lean ====
section
/-! DEFINITION. The vocabulary of claims about a safe run: the mode RUN, the invariant of the machine, the abstract
schedule (spec/10_state.md R27), and which unit a command belongs to (30_encoding.md R101). -/

namespace Sys2Proof.Machine

/-- RUN, on elements of the type that R20 gives them: the states in which a command is executed
(60_exceptions.md R280). -/
def State.running (s : State) : Bool := !s.blk.fault && s.shaped

/-- The invariant of the machine. The backing store is in its canonical form. Under a valid CFG every invariant of
10_state.md R26, R31, R37, R41, R42 holds; without one the block is FAULTED with the cause of a RESET
(70_reset_and_hazards.md R320). -/
def State.consistent (s : State) : Bool :=
  Memory.wf s.back &&
  if s.cfg.valid then s.blk.legal s.cfg
  else s.blk.fault && (s.blk.cause == Cause.code .divZero || s.blk.cause == Cause.code .cfgInvalid)

/-- A consistent machine in RUN: the state a caller may rely on between commands. -/
def State.sound (s : State) : Bool := s.consistent && !s.blk.fault

/-- `SCHED`, the abstract schedule: the due cycle of a scheduled kind (10_state.md R27). -/
def sched (b : Block) (k : Nat) : Option W64 := (b.heap.find? fun e => e.kind == k).map Entry.due

/-- Kind k is scheduled for cycle t. -/
def Scheduled (c : Cfg) (b : Block) (k : Nat) (t : W64) : Prop := k < c.nk ∧ sched b k = some t

/-- Something is due at or before `now`. -/
def SomethingDue (c : Cfg) (b : Block) (now : W64) : Prop := ∃ k t, Scheduled c b k t ∧ t ≤ now

/-- Every buffered word is the word the backing store holds at its address (10_state.md R34, 20_memory.md R85). -/
def State.mirrorsBack (s : State) : Bool :=
  (List.range s.blk.pfQ.length).all fun j =>
    s.blk.pfQ.getD j 0#32 == memRead s.cfg s.back (toW64 ((s.blk.raddr.toNat + j * s.cfg.pfWb) % 2 ^ s.cfg.ab))

/-- The five units (00_scope.md R1), with the cost table's and the prefetch unit's commands apart (R101). -/
inductive UnitName where
  | es | cd | bt | pf | ia | xr
  deriving DecidableEq, Repr

/-- The unit whose command this is (30_encoding.md R101). -/
def unitOf : Instr → UnitName
  | .esInsert .. | .esRemove .. | .esReady .. | .esPop .. => .es
  | .cdAdvance .. | .cdBusgrant .. => .cd
  | .btCost .. | .btSetbw .. | .btSetpf .. => .bt
  | .pfPrepare .. | .pfRead .. | .pfAdvance .. => .pf
  | .iaSetflag .. | .iaWrenable .. | .iaWrflagclr .. | .iaHpp | .iaAck .. => .ia
  | .xrWrite .. | .xrRead .. => .xr

/-- The pure queries (20_memory.md R78). -/
def isQuery : Instr → Bool
  | .esReady .. | .btCost .. | .iaHpp | .xrRead .. => true
  | .esInsert .. | .esRemove .. | .esPop .. | .cdAdvance .. | .cdBusgrant .. | .btSetbw .. | .btSetpf .. => false
  | .pfPrepare .. | .pfRead .. | .pfAdvance .. | .iaSetflag .. | .iaWrenable .. | .iaWrflagclr .. => false
  | .iaAck .. | .xrWrite .. => false

/-- The causes that a command can raise: the column "raised by" of 60_exceptions.md R281, read row by row. -/
def raisable : Instr → List Cause
  | .esInsert .. | .esRemove .. => [.kindRange, .heapCorrupt]
  | .esReady .. | .esPop .. => []
  | .cdAdvance .. => [.cdOverflow]
  | .cdBusgrant .. => [.operandRange, .cdOverflow]
  | .btCost .. => [.illegalCmd, .operandRange]
  | .btSetbw .. => [.operandRange]
  | .btSetpf .. => []
  | .pfPrepare .. | .pfRead .. => [.operandRange, .pfMisaligned]
  | .pfAdvance .. => []
  | .iaSetflag .. | .iaWrenable .. | .iaWrflagclr .. | .iaHpp | .iaAck .. => []
  | .xrWrite .. | .xrRead .. => [.operandRange]

end Sys2Proof.Machine
end

