-- ==== Sys2Proof/Certificates/Slice0/Obligations.lean ====
section
/-! DEFINITION. The statements for the provers, from the numbered rules of spec/. `s.running` is RUN on well-typed
elements, `s.sound` a consistent machine in RUN (Safety.lean). A fault of the block is a NEXT state with `FAULT = 1`;
completion statements conclude `exec i s = .next …` with the command's own effect. -/

open Sys2Proof Sys2Proof.Machine

/-! ### Encoding (30_encoding.md) -/

/-- No bit of an encoding is dropped: R100, R102, R103. -/
def Obligations.DecodeOfEncodeIsTheCommand : Prop :=
  ∀ i : Instr, i.wf = true → decode (encode i) = .ok i

/-- Each legal frame is the encoding of the one well-formed command it decodes to: R103, R107, R108. -/
def Obligations.DecodedFrameIsItsEncoding : Prop :=
  ∀ (f : Frame) (i : Instr), decode f = .ok i → i.wf = true ∧ encode i = f

/-- Decoding agrees with the masks and matches of the opcode table (R103): a decoded frame hits the row of its
command, at most one row is hit, and a frame that hits a row decodes to that row's command, but for BT_COST with the
reserved width code. -/
def Obligations.LegalFramesHitExactlyTheirRow : Prop :=
  ∀ f : Frame,
    (∀ i, decode f = .ok i → ∃ row ∈ opcodeTable, row.mnemonic = i.mnemonic ∧ row.hits f = true) ∧
    (∀ row ∈ opcodeTable, ∀ row' ∈ opcodeTable, row.hits f = true → row'.hits f = true → row = row') ∧
    (∀ row ∈ opcodeTable, row.hits f = true →
      (row.mnemonic = "BT_COST" ∧ f.extractLsb' 128 2 = 3#2) ∨
      ∃ i, decode f = .ok i ∧ i.mnemonic = row.mnemonic)

/-- Frames that the spec prints decode to the commands it prints beside them (95_test_vectors.md N1): one of each
unit. A sanity statement on fixed values. -/
def Obligations.PrintedFramesDecode : Prop :=
  decode 0x100300000000000000640000000000000000#144 = .ok (.esInsert 3#8 100#64) ∧
  decode 0x200100000000000007D00000000000000000#144 = .ok (.cdAdvance true 2000#64) ∧
  decode 0x300600000000080001000000000000000000#144 = .ok (.btCost 2#2 true 0x08000100#64) ∧
  decode 0x380000000000080000000000000000000000#144 = .ok (.pfPrepare 0x08000000#64) ∧
  decode 0x420000000000000080010000000000000000#144 = .ok (.iaWrflagclr 0x8001#64) ∧
  decode 0x500000000000000000050000000000000061#144 = .ok (.xrWrite 0#8 5#64 0x61#64)

/-! ### A step, the modes and faults (30_encoding.md R112, 60_exceptions.md) -/

/-- A frame that has arrived and decodes is executed, whole and alone (R112, R15); and a command stored where step
fetches is the one that runs. -/
def Obligations.StepPerformsTheDecodedCommand : Prop :=
  (∀ (s : State) (f : Frame) (rest : List Input) (i : Instr),
    s.inbox = .frame f :: rest → decode f = .ok i →
      i.wf = true ∧ step s = exec i { s with inbox := rest }) ∧
  (∀ (s : State) (i : Instr), i.wf = true → step (s.withFetchWord 144 (encode i).toNat) = exec i s)

/-- R107: a frame is illegal when it hits no row of the table (an unknown OP or a must-be-zero bit at 1) or is
BT_COST with W = 3, and an illegal frame raises F_ILLEGAL_CMD: the block becomes faulted. -/
def Obligations.IllegalFrameRaisesIllegalCmd : Prop :=
  ∀ (s : State) (f : Frame) (rest : List Input),
    s.inbox = .frame f :: rest → s.blk.fault = false →
    ((∀ row ∈ opcodeTable, row.hits f = false) ∨ (f.extractLsb' 136 8 = 0x30#8 ∧ f.extractLsb' 128 2 = 3#2)) →
    ∃ t, step s = .next t ∧ t.blk = { s.blk with fault := true, cause := 0x01#8 } ∧
      t.out = some (.response ⟨.fault, 0x01#8, 0#64, 0#64, []⟩)

/-- R283. -/
def Obligations.FaultedBlockOnlyAnswersFaulted : Prop :=
  ∀ (s : State) (f : Frame) (rest : List Input),
    s.inbox = .frame f :: rest → s.blk.fault = true →
    step s = .next { s with
      inbox := rest
      out := some (.response ⟨.faulted, s.blk.cause, 0#64, 0#64, []⟩) }

/-- R282: the state after a fault is exactly the state before it, plus the two fault elements, and the response is
FAULT with the code. -/
def Obligations.FaultIsPrecise : Prop :=
  ∀ (s t : State) (f : Frame) (rest : List Input),
    s.inbox = .frame f :: rest → s.blk.fault = false → step s = .next t → t.blk.fault = true →
    ∃ cause : Cause, t = { s with
      inbox := rest
      blk := { s.blk with fault := true, cause := cause.code }
      out := some (.response ⟨.fault, cause.code, 0#64, 0#64, []⟩) }

/-- R281, the column "raised by": a command raises no cause but its own. -/
def Obligations.CommandsRaiseOnlyTheirOwnCauses : Prop :=
  ∀ (i : Instr) (s t : State),
    exec i s = .next t → s.blk.fault = false → t.blk.fault = true →
    ∃ cause ∈ raisable i, t.blk.cause = cause.code ∧ (cause = .illegalCmd → i.wf = false)

/-- R284: no command clears FAULT or raises a second fault; only RESET with a valid CFG and RESTORE of a legal image in
RUN leave FAULTED. -/
def Obligations.OnlyResetAndRestoreLeaveFaulted : Prop :=
  ∀ s t : State, s.blk.fault = true → step s = .next t →
    (∀ f rest, s.inbox = .frame f :: rest → t.blk = s.blk) ∧
    (t.blk.fault = false →
      (∃ c rest, s.inbox = .reset c :: rest ∧ c.valid = true) ∨
      (∃ im rest, s.inbox = .restore im :: rest ∧ s.cfg.valid = true ∧ im.legal s.cfg = true ∧ im.fault = false))

/-- R286: only ES_POP, PF_READ and IA_HPP answer NONE, and NONE changes nothing and is no fault. -/
def Obligations.NoneIsNoFaultAndChangesNothing : Prop :=
  ∀ (i : Instr) (s t : State) (r : Response),
    exec i s = .next t → t.out = some (.response r) → r.status = .none →
    t.blk = s.blk ∧ t.blk.fault = false ∧
    ((∃ n, i = .esPop n) ∨ (∃ a, i = .pfRead a) ∨ i = .iaHpp)

/-- R104, R106: every command has one response; R1 is 0, the fixed fields stand in their bits, and the vector of ND
pairs goes with CD_ADVANCE's OK alone. -/
def Obligations.ResponsesHaveTheirFields : Prop :=
  ∀ (i : Instr) (s t : State), exec i s = .next t →
    ∃ r : Response, t.out = some (.response r) ∧ r.r1 = 0#64 ∧
      r.fixedBits.extractLsb' 136 8 = r.status.code ∧ r.fixedBits.extractLsb' 128 8 = r.k ∧
      r.fixedBits.extractLsb' 64 64 = r.r0 ∧ r.fixedBits.extractLsb' 0 64 = 0#64 ∧
      (((∃ l m, i = .cdAdvance l m) ∧ r.status = .ok) → r.bitLength = 144 + 128 * s.cfg.nd) ∧
      (¬ ((∃ l m, i = .cdAdvance l m) ∧ r.status = .ok) → r.bitLength = 144)

/-- The frame of every command: it touches its own unit's elements only (R43, R247), and CFG, the backing store
(20_memory.md R74) and what else has arrived stay as they are. -/
def Obligations.CommandsTouchOnlyTheirOwnUnit : Prop :=
  ∀ (i : Instr) (s t : State), exec i s = .next t →
    t.cfg = s.cfg ∧ t.inbox = s.inbox ∧ t.drawn = s.drawn ∧
    (∀ a, Memory.read t.back a = Memory.read s.back a) ∧
    (unitOf i ≠ .es → t.blk.heap = s.blk.heap ∧ t.blk.present = s.blk.present) ∧
    (unitOf i ≠ .cd → t.blk.acc = s.blk.acc ∧ t.blk.stall = s.blk.stall ∧ t.blk.toggle = s.blk.toggle ∧
      t.blk.refcnt = s.blk.refcnt) ∧
    ((∀ r b, i ≠ .btSetbw r b) → t.blk.bw = s.blk.bw) ∧
    ((∀ e, i ≠ .btSetpf e) → t.blk.pfEn = s.blk.pfEn) ∧
    (unitOf i ≠ .pf → t.blk.pfQ = s.blk.pfQ ∧ t.blk.raddr = s.blk.raddr ∧ t.blk.waddr = s.blk.waddr) ∧
    (unitOf i ≠ .pf → (∀ e, i ≠ .btSetpf e) → t.blk.active = s.blk.active ∧ t.blk.rem = s.blk.rem) ∧
    (unitOf i ≠ .ia → t.blk.enable = s.blk.enable ∧ t.blk.flag = s.blk.flag) ∧
    (unitOf i ≠ .xr → t.blk.seq = s.blk.seq)

/-- R247: of all that arrives at the command port, nothing but the five IA commands touches ENABLE or FLAG; in
particular ES_POP sets no flag. -/
def Obligations.OnlyArbiterCommandsTouchTheMasks : Prop :=
  ∀ (s t : State) (f : Frame) (rest : List Input),
    s.inbox = .frame f :: rest → step s = .next t →
    (t.blk.enable ≠ s.blk.enable ∨ t.blk.flag ≠ s.blk.flag) →
    ∃ i, decode f = .ok i ∧
      ((∃ x, i = .iaSetflag x) ∨ (∃ m, i = .iaWrenable m) ∨ (∃ m, i = .iaWrflagclr m) ∨ i = .iaHpp ∨
        ∃ x, i = .iaAck x)

/-- 20_memory.md R78, first row: a pure query changes no element, and repeating it gives the same response. -/
def Obligations.QueriesMayBeRepeated : Prop :=
  ∀ (i : Instr) (s t : State), isQuery i = true →
    exec i s = .next t → t.blk.fault = false → t.blk = s.blk ∧ exec i t = .next t

/-! ### Reset and the host (60_exceptions.md R300 to R303, 70_reset_and_hazards.md) -/

/-- R322 (with the table of 10_state.md R46): the state after a RESET with a valid configuration. -/
def Obligations.ValidResetGivesTheResetValues : Prop :=
  ∀ (s : State) (c : Cfg) (rest : List Input),
    s.inbox = .reset c :: rest → c.valid = true →
    ∃ t, step s = .next t ∧ t.cfg = c ∧
      t.blk.heap = [⟨c.nk, BitVec.allOnes 64⟩] ∧ t.blk.present = 0#8 ∧
      t.blk.acc.length = c.nd ∧ (∀ a ∈ t.blk.acc, a = 0#64) ∧
      t.blk.stall.length = c.nd ∧ (∀ a ∈ t.blk.stall, a = 0#64) ∧
      t.blk.toggle = false ∧ t.blk.refcnt = 0#64 ∧
      t.blk.bw.length = c.nr ∧
      (∀ r, r < c.nr → t.blk.bw.getD r false = ((c.regions.getD r default).bwReset == 1)) ∧
      t.blk.pfEn = (c.pfEnReset == 1) ∧ t.blk.pfQ = [] ∧ t.blk.raddr = 0#64 ∧ t.blk.waddr = 0#64 ∧
      t.blk.active = false ∧ t.blk.rem = 0#64 ∧ t.blk.enable = 0#64 ∧ t.blk.flag = 0#64 ∧
      t.blk.seq.length = c.nx ∧ (∀ q ∈ t.blk.seq, q = []) ∧
      t.blk.fault = false ∧ t.blk.cause = 0#8

/-- R320: RESET with an invalid configuration faults with F_DIV_ZERO if some divider is zero and with F_CFG_INVALID
otherwise; then every command answers FAULTED and every RESTORE is refused, until a RESET. The other elements are
unspecified (assumption 6) and the statement says nothing of them. -/
def Obligations.InvalidResetFaultsAndRefusesRestore : Prop :=
  ∀ (s : State) (c : Cfg) (rest : List Input),
    s.inbox = .reset c :: rest → c.valid = false →
    ∃ t, step s = .next t ∧ t.cfg = c ∧ t.blk.fault = true ∧
      t.blk.cause = (if 0 ∈ c.div then 0x04#8 else 0x05#8) ∧
      (∀ f more, ∃ u, step { t with inbox := .frame f :: more } = .next u ∧ u.blk = t.blk ∧
        u.out = some (.response ⟨.faulted, t.blk.cause, 0#64, 0#64, []⟩)) ∧
      (∀ im more, ∃ u, step { t with inbox := .restore im :: more } = .next u ∧ u.blk = t.blk)

/-- R321: what a valid configuration is. -/
def Obligations.ValidConfigurationMeansEveryCheck : Prop :=
  ∀ c : Cfg, c.valid = true ↔
    (1 ≤ c.nk ∧ c.nk ≤ 8 ∧ 1 ≤ c.nd ∧ c.nd ≤ 8 ∧ (∀ d ∈ c.div, 1 ≤ d ∧ d ≤ 2 ^ 64 - 1) ∧
      c.refPeriod ≤ 2 ^ 64 - 1 ∧ ((c.refPeriod = 0 ∧ c.refSlack = 0) ∨ c.refSlack < c.refPeriod) ∧
      c.refStall ≤ 2 ^ 64 - 1 ∧ c.refStallLong ≤ c.refStall ∧
      c.grantPri ≤ 2 ^ 64 - 1 ∧ c.grantSecEven ≤ 2 ^ 64 - 1 ∧ c.grantSecOdd ≤ 2 ^ 64 - 1) ∧
    (1 ≤ c.ab ∧ c.ab ≤ 64 ∧ 1 ≤ c.nr ∧ c.nr ≤ 256 ∧
      (∀ r ∈ c.regions, r.lo ≤ r.hi ∧ r.hi < 2 ^ c.ab ∧ r.bwReset ≤ 1 ∧
        ∀ w, w < 3 → ∀ q b, r.wt.cost w q b ≤ 2 ^ 32 - 1) ∧
      c.regions.Pairwise (fun r r' => ∀ a, ¬ ((r.lo ≤ a ∧ a ≤ r.hi) ∧ (r'.lo ≤ a ∧ a ≤ r'.hi))) ∧
      (∀ a, a < 2 ^ c.ab → ∃ r ∈ c.regions, r.lo ≤ a ∧ a ≤ r.hi)) ∧
    (1 ≤ c.pfN ∧ c.pfN ≤ 255 ∧ (c.pfWb = 1 ∨ c.pfWb = 2 ∨ c.pfWb = 4) ∧
      (∃ k, c.pfBoundary = 2 ^ k) ∧ c.pfWb ≤ c.pfBoundary ∧ c.pfBoundary ≤ 2 ^ c.ab ∧
      c.pfHitCost ≤ 2 ^ 32 - 1 ∧ c.pfEnReset ≤ 1) ∧
    (1 ≤ c.ns ∧ c.ns ≤ 64 ∧ c.prio.Perm (List.range c.ns) ∧ 1 ≤ c.nx ∧ c.nx ≤ 256 ∧ 1 ≤ c.vw ∧ c.vw ≤ 64 ∧
      (∀ v ∈ c.xrDefault, v < 2 ^ c.vw) ∧ 1 ≤ c.xrCap ∧ c.xrCap ≤ 255)

/-- 20_memory.md R72 and 42_bus_timing_prefetch.md R190: under a valid configuration every address lies in exactly one
region, and an access that starts there is priced by that region's table alone, at most 2^32-1 cycles. -/
def Obligations.EveryAddressHasOneRegionAndItsCost : Prop :=
  ∀ (c : Cfg) (b : Block) (a : Nat), c.valid = true → a < 2 ^ c.ab →
    ∃ r, r < c.nr ∧ regionOf c a = some r ∧
      (c.regions.getD r default).lo ≤ a ∧ a ≤ (c.regions.getD r default).hi ∧
      (∀ r', r' < c.nr → (c.regions.getD r' default).lo ≤ a → a ≤ (c.regions.getD r' default).hi → r' = r) ∧
      ∀ w, w < 3 → ∀ q, waitCycles c b a w q = (c.regions.getD r default).wt.cost w q (b.bw.getD r false) ∧
        waitCycles c b a w q < 2 ^ 32

/-- The check of an image (60_exceptions.md R302) is the widths of 10_state.md R20 and every invariant of R26, R31,
R37, R41 and R42, written here without the model's own checking functions. -/
def Obligations.LegalImageMeansEveryInvariant : Prop :=
  ∀ (c : Cfg) (b : Block), c.valid = true →
    (b.legal c = true ↔
      (1 ≤ b.heap.length ∧ b.heap.length ≤ c.nk + 1 ∧ (∀ e ∈ b.heap, e.kind ≤ c.nk) ∧
        (⟨c.nk, BitVec.allOnes 64⟩ : Entry) ∈ b.heap ∧ b.heap.Pairwise (fun e e' => e.kind ≠ e'.kind) ∧
        b.present.toNat < 2 ^ c.nk ∧
        (∀ k, k < c.nk → (b.present.getLsbD k = true ↔ ∃ e ∈ b.heap, e.kind = k)) ∧
        (∀ i e p, 0 < i → b.heap[i]? = some e → b.heap[(i - 1) / 2]? = some p →
          ¬ (e.due < p.due ∨ (e.due = p.due ∧ e.kind < p.kind)))) ∧
      (b.acc.length = c.nd ∧ b.stall.length = c.nd ∧
        (∀ d, d < c.nd → (b.acc.getD d 0#64).toNat < c.div.getD d 0) ∧
        (0 < c.refPeriod → b.refcnt.toNat < c.refPeriod - c.refSlack) ∧ (c.refPeriod = 0 → b.refcnt = 0#64)) ∧
      (b.bw.length = c.nr ∧ b.pfQ.length ≤ c.pfN ∧ (∀ w ∈ b.pfQ, w.toNat < 2 ^ (8 * c.pfWb)) ∧
        b.raddr.toNat < 2 ^ c.ab ∧ b.waddr.toNat < 2 ^ c.ab ∧ (b.active = false → b.rem = 0#64) ∧
        b.waddr.toNat = (b.raddr.toNat + b.pfQ.length * c.pfWb) % 2 ^ c.ab ∧
        c.pfWb ∣ b.raddr.toNat ∧ c.pfWb ∣ b.waddr.toNat ∧
        (b.active = true → b.pfEn = true ∧ b.pfQ.length < c.pfN)) ∧
      (b.enable.toNat < 2 ^ c.ns ∧ b.flag.toNat < 2 ^ c.ns) ∧
      (b.seq.length = c.nx ∧ ∀ q ∈ b.seq, q.length ≤ c.xrCap ∧ q.Pairwise (fun e e' => e.cycle < e'.cycle) ∧
        ∀ e ∈ q, e.value.toNat < 2 ^ c.vw) ∧
      ((b.fault = false → b.cause = 0#8) ∧ (b.fault = true → 0x01 ≤ b.cause.toNat ∧ b.cause.toNat ≤ 0x09)))

/-- R302: a legal image becomes the state, FAULT and CAUSE included; any other leaves the state as it was, but that a
block in RUN takes FAULT with F_RESTORE_INVALID; without a valid CFG every image is refused. That what else has
arrived stays is the model's choice (assumption 10). -/
def Obligations.RestoreTakesExactlyLegalImages : Prop :=
  ∀ (s : State) (im : Block) (rest : List Input), s.inbox = .restore im :: rest →
    ∃ t, step s = .next t ∧ t.cfg = s.cfg ∧ t.back = s.back ∧ t.inbox = rest ∧
      (s.cfg.valid = true → im.legal s.cfg = true → t.blk = im) ∧
      ((s.cfg.valid = false ∨ im.legal s.cfg = false) →
        (s.blk.fault = false → t.blk = { s.blk with fault := true, cause := 0x09#8 }) ∧
        (s.blk.fault = true → t.blk = s.blk))

/-- R301: SNAPSHOT hands out the whole state and changes nothing, and RESTORE of that image, at any later time under
the same CFG, brings it back. -/
def Obligations.SnapshotRestoreRoundTrips : Prop :=
  ∀ (s u : State) (rest more : List Input),
    s.consistent = true → s.cfg.valid = true → s.inbox = .snapshot :: rest →
    u.cfg = s.cfg → u.inbox = .restore s.blk :: more →
    (∃ t, step s = .next t ∧ t.out = some (.image s.blk) ∧ t.blk = s.blk ∧ t.cfg = s.cfg ∧ t.back = s.back) ∧
    (∃ v, step u = .next v ∧ v.blk = s.blk)

/-- R301, R331: two blocks with equal images, equal CFG and equal BACK answer every later command sequence
identically, whatever each handed out before. -/
def Obligations.EqualImagesAnswerAlike : Prop :=
  ∀ (fs : List Frame) (k : Nat) (s u t : State),
    s.cfg = u.cfg → s.blk = u.blk → s.back = u.back →
    s.inbox = fs.map Input.frame → u.inbox = fs.map Input.frame →
    0 < k → k ≤ fs.length → Host.Core.run Sys2Proof.core k s = .next t →
    ∃ v, Host.Core.run Sys2Proof.core k u = .next v ∧ t.blk = v.blk ∧ t.out = v.out ∧ t.inbox = v.inbox

/-- The state after reset meets the invariant (10_state.md R26, R31, R37, R41 at R46). -/
def Obligations.ResetStateIsSound : Prop := State.reset.sound = true ∧ State.reset.running = true

/-- Every step keeps the invariant, whatever arrives: commands of every unit, frames that are none, RESET, SNAPSHOT,
RESTORE and changes of the backing store (R26, R31, R37, R41, R140, R206; R302). -/
def Obligations.EveryStepKeepsConsistency : Prop :=
  ∀ s t : State, s.consistent = true → step s = .next t → t.consistent = true

/-- A consistent machine never stops: every command and host action has a next state. The one exception is the
platform naming an address that does not exist (assumption 5), by the `ab` of the last CFG, valid or not
(assumption 14). -/
def Obligations.ConsistentMachineNeverStops : Prop :=
  ∀ s : State, s.consistent = true →
    (∃ t, step s = .next t) ∨
    (∃ a v rest, s.inbox = .backWrite a v :: rest ∧ 2 ^ s.cfg.ab ≤ a ∧ step s = .fault .noSuchAddress)

/-! ### Event Scheduler (40_event_scheduler.md) -/

/-- R130: the order of entries, a strict total order on entries of different kinds, with the sentinel greatest. -/
def Obligations.LessIsTheStrictTotalOrder : Prop :=
  (∀ a b : Entry, less a b = true ↔ (a.due < b.due ∨ (a.due = b.due ∧ a.kind < b.kind))) ∧
  (∀ a : Entry, less a a = false) ∧
  (∀ a b c : Entry, less a b = true → less b c = true → less a c = true) ∧
  (∀ a b : Entry, a.kind ≠ b.kind → less a b = true ∨ less b a = true) ∧
  (∀ (c : Cfg) (e : Entry), e.kind < c.nk → less e (sentinel c) = true)

/-- R134, R139: ES_INSERT completes for every kind in range, sets `SCHED[k] = t` and PRESENT[k], adds an entry only
if there was none, and changes nothing else. -/
def Obligations.InsertSchedulesTheKind : Prop :=
  ∀ (s : State) (x : Idx) (t : W64), s.sound = true → x.toNat < s.cfg.nk →
    ∃ (h : List Entry) (p : BitVec 8),
      exec (.esInsert x t) s =
        .next (s.answer { s.blk with heap := h, present := p } ⟨.ok, 0#8, 0#64, 0#64, []⟩) ∧
      sched { s.blk with heap := h } x.toNat = some t ∧
      (∀ k, k ≠ x.toNat → sched { s.blk with heap := h } k = sched s.blk k) ∧
      h.length = s.blk.heap.length + (if (sched s.blk x.toNat).isSome then 0 else 1) ∧
      (∀ k, k < 8 → p.getLsbD k = (s.blk.present.getLsbD k || k == x.toNat))

/-- R134 (b), R140: ES_INSERT twice with the same kind and due cycle leaves the very structure, heap slots included,
that ES_INSERT once leaves. -/
def Obligations.InsertTwiceIsInsertOnce : Prop :=
  ∀ (s : State) (x : Idx) (t : W64), s.sound = true → x.toNat < s.cfg.nk →
    ∃ u, exec (.esInsert x t) s = .next u ∧ exec (.esInsert x t) u = .next u

/-- R135, R139: ES_REMOVE completes for every kind in range, takes k out of SCHED, clears PRESENT[k], and changes
nothing else; an absent kind changes nothing at all. -/
def Obligations.RemoveUnschedulesTheKind : Prop :=
  ∀ (s : State) (x : Idx), s.sound = true → x.toNat < s.cfg.nk →
    ∃ (h : List Entry) (p : BitVec 8),
      exec (.esRemove x) s =
        .next (s.answer { s.blk with heap := h, present := p } ⟨.ok, 0#8, 0#64, 0#64, []⟩) ∧
      sched { s.blk with heap := h } x.toNat = none ∧
      (∀ k, k ≠ x.toNat → sched { s.blk with heap := h } k = sched s.blk k) ∧
      (∀ k, k < 8 → p.getLsbD k = (s.blk.present.getLsbD k && k != x.toNat)) ∧
      (sched s.blk x.toNat = none → h = s.blk.heap ∧ p = s.blk.present)

/-- R134, R135: a kind at or above NK, the sentinel's value included, raises F_KIND_RANGE. -/
def Obligations.KindOutOfRangeFaults : Prop :=
  ∀ (s : State) (x : Idx) (t : W64), s.running = true → s.cfg.nk ≤ x.toNat →
    (∃ u, exec (.esInsert x t) s = .next u ∧ u.blk = { s.blk with fault := true, cause := 0x02#8 } ∧
      u.out = some (.response ⟨.fault, 0x02#8, 0#64, 0#64, []⟩)) ∧
    (∃ u, exec (.esRemove x) s = .next u ∧ u.blk = { s.blk with fault := true, cause := 0x02#8 } ∧
      u.out = some (.response ⟨.fault, 0x02#8, 0#64, 0#64, []⟩))

/-- R133: when PRESENT[k] = 1 and no live slot holds kind k, both commands raise F_HEAP_CORRUPT. No consistent state
is such a state: the premises are those of the table E7 of 95_test_vectors.md. -/
def Obligations.MissingEntryIsHeapCorrupt : Prop :=
  ∀ (s : State) (x : Idx) (t : W64), s.running = true → x.toNat < s.cfg.nk →
    s.blk.present.getLsbD x.toNat = true → (∀ e ∈ s.blk.heap, e.kind ≠ x.toNat) →
    (∃ u, exec (.esInsert x t) s = .next u ∧ u.blk = { s.blk with fault := true, cause := 0x03#8 } ∧
      u.out = some (.response ⟨.fault, 0x03#8, 0#64, 0#64, []⟩)) ∧
    (∃ u, exec (.esRemove x) s = .next u ∧ u.blk = { s.blk with fault := true, cause := 0x03#8 } ∧
      u.out = some (.response ⟨.fault, 0x03#8, 0#64, 0#64, []⟩))

/-- R136, R139: ES_READY completes, answers 1 exactly when some scheduled kind is due, and changes nothing. -/
def Obligations.ReadyTellsWhetherSomethingIsDue : Prop :=
  ∀ (s : State) (now : W64), s.sound = true →
    (SomethingDue s.cfg s.blk now → exec (.esReady now) s = .next (s.answer s.blk ⟨.ok, 0#8, 1#64, 0#64, []⟩)) ∧
    (¬ SomethingDue s.cfg s.blk now → exec (.esReady now) s = .next (s.answer s.blk ⟨.ok, 0#8, 0#64, 0#64, []⟩))

/-- R137, R139: when something is due ES_POP returns the least scheduled pair and removes it, PRESENT bit included;
otherwise it answers NONE and changes nothing. -/
def Obligations.PopReturnsTheLeastDueEvent : Prop :=
  ∀ (s : State) (now : W64), s.sound = true →
    (SomethingDue s.cfg s.blk now →
      ∃ (k : Nat) (t : W64) (h : List Entry) (p : BitVec 8),
        Scheduled s.cfg s.blk k t ∧ t ≤ now ∧
        (∀ k' t', Scheduled s.cfg s.blk k' t' → t < t' ∨ (t = t' ∧ k ≤ k')) ∧
        exec (.esPop now) s =
          .next (s.answer { s.blk with heap := h, present := p } ⟨.ok, BitVec.ofNat 8 k, t, 0#64, []⟩) ∧
        sched { s.blk with heap := h } k = none ∧
        (∀ k', k' ≠ k → sched { s.blk with heap := h } k' = sched s.blk k') ∧
        (∀ k', k' < 8 → p.getLsbD k' = (s.blk.present.getLsbD k' && k' != k))) ∧
    (¬ SomethingDue s.cfg s.blk now →
      exec (.esPop now) s = .next (s.answer s.blk ⟨.none, 0#8, 0#64, 0#64, []⟩))

/-- R139, 10_state.md R27: the array layout never shows. Two sound machines with one configuration and one abstract
schedule give every ES command the same response and again have one schedule. -/
def Obligations.HeapLayoutNeverShows : Prop :=
  ∀ (i : Instr) (s u : State), unitOf i = .es → s.sound = true → u.sound = true → s.cfg = u.cfg →
    (∀ k, sched s.blk k = sched u.blk k) →
    ∃ t v, exec i s = .next t ∧ exec i u = .next v ∧ t.out = v.out ∧ (∀ k, sched t.blk k = sched v.blk k) ∧
      t.blk.fault = v.blk.fault ∧ t.blk.cause = v.blk.cause

/-! ### Clock Domain Converter (41_clock_domain_converter.md) -/

/-- R161, R162, R163, R164, R168: CD_ADVANCE. `n` periods are crossed and `newref` is left of the count; `inj` is
injected. If the primary's stall then still fits, the command completes: conversion, gating and the new REFCNT are as
the rules say for every domain; otherwise F_CD_OVERFLOW is raised. -/
def Obligations.AdvanceConvertsAndGatesEveryDomain : Prop :=
  ∀ (s : State) (long : Bool) (mc : W64) (n newref inj : Nat), s.sound = true →
    (s.cfg.refPeriod = 0 → n = 0 ∧ newref = 0) →
    (0 < s.cfg.refPeriod → n * (s.cfg.refPeriod - s.cfg.refSlack) + newref = s.blk.refcnt.toNat + mc.toNat ∧
      newref < s.cfg.refPeriod - s.cfg.refSlack) →
    inj = (if n = 0 then 0 else if long then s.cfg.refStallLong else n * s.cfg.refStall) →
    ((s.blk.stall.getD 0 0#64).toNat + inj ≤ 2 ^ 64 - 1 →
      ∃ (b : Block) (r : Response),
        exec (.cdAdvance long mc) s = .next (s.answer b r) ∧
        r.status = .ok ∧ r.k = 0#8 ∧ r.r0.toNat = inj ∧ r.r1 = 0#64 ∧ r.ticks.length = s.cfg.nd ∧
        b = { s.blk with acc := b.acc, stall := b.stall, refcnt := b.refcnt } ∧
        b.refcnt.toNat = newref ∧ b.acc.length = s.cfg.nd ∧ b.stall.length = s.cfg.nd ∧
        ∀ d, d < s.cfg.nd → ∀ sum ticks wait,
          sum = (s.blk.acc.getD d 0#64).toNat + mc.toNat → ticks = sum / s.cfg.div.getD d 0 →
          wait = (s.blk.stall.getD d 0#64).toNat + (if d = 0 then inj else 0) →
          (r.ticks.getD d (0#64, 0#64)).1.toNat = ticks ∧
          (b.acc.getD d 0#64).toNat = sum % s.cfg.div.getD d 0 ∧
          (r.ticks.getD d (0#64, 0#64)).2.toNat = ticks - min wait ticks ∧
          (b.stall.getD d 0#64).toNat = wait - min wait ticks) ∧
    (2 ^ 64 - 1 < (s.blk.stall.getD 0 0#64).toNat + inj →
      ∃ u, exec (.cdAdvance long mc) s = .next u ∧ u.blk = { s.blk with fault := true, cause := 0x07#8 } ∧
        u.out = some (.response ⟨.fault, 0x07#8, 0#64, 0#64, []⟩))

/-- R166: conservation. No master cycle is created or lost by the conversion, and every converted tick is either
executed or spent on the domain's stall, the stall that the same command injects included. -/
def Obligations.AdvanceConservesCycles : Prop :=
  ∀ (s t : State) (long : Bool) (mc : W64) (r : Response), s.sound = true →
    exec (.cdAdvance long mc) s = .next t → t.blk.fault = false → t.out = some (.response r) →
    ∀ d, d < s.cfg.nd →
      (r.ticks.getD d (0#64, 0#64)).1.toNat * s.cfg.div.getD d 0 + (t.blk.acc.getD d 0#64).toNat =
        (s.blk.acc.getD d 0#64).toNat + mc.toNat ∧
      ∀ before after, before = (s.blk.stall.getD d 0#64).toNat + (if d = 0 then r.r0.toNat else 0) →
        after = (t.blk.stall.getD d 0#64).toNat →
        after ≤ before ∧
        (r.ticks.getD d (0#64, 0#64)).2.toNat + (before - after) = (r.ticks.getD d (0#64, 0#64)).1.toNat

/-- From R161, R164, R166: advancing by m1 and then by m2 converts, counts and injects exactly what advancing once by
m1 + m2 does (without the LONG hint, and while nothing overflows). -/
def Obligations.TwoAdvancesConvertAsOne : Prop :=
  ∀ (s t v w : State) (m1 m2 : W64) (rt rv rw : Response), s.sound = true →
    m1.toNat + m2.toNat < 2 ^ 64 →
    exec (.cdAdvance false m1) s = .next t → exec (.cdAdvance false m2) t = .next v →
    exec (.cdAdvance false (m1 + m2)) s = .next w →
    v.blk.fault = false → w.blk.fault = false →
    t.out = some (.response rt) → v.out = some (.response rv) → w.out = some (.response rw) →
    v.blk.acc = w.blk.acc ∧ v.blk.refcnt = w.blk.refcnt ∧ rt.r0.toNat + rv.r0.toNat = rw.r0.toNat ∧
    ∀ d, d < s.cfg.nd →
      (rt.ticks.getD d (0#64, 0#64)).1.toNat + (rv.ticks.getD d (0#64, 0#64)).1.toNat =
        (rw.ticks.getD d (0#64, 0#64)).1.toNat

/-- R165: CD_BUSGRANT for a secondary domain records the fixed stall against the primary and the alternating one
against d, spends none and flips TOGGLE; a stall that does not fit raises F_CD_OVERFLOW, a domain that is the primary
or none F_OPERAND_RANGE. -/
def Obligations.BusGrantRecordsBothStalls : Prop :=
  ∀ (s : State) (x : Idx) (sec : Nat), s.running = true →
    sec = (if s.blk.toggle then s.cfg.grantSecOdd else s.cfg.grantSecEven) →
    encode (.cdBusgrant x) = 0x21#8 ++ x ++ 0#64 ++ 0#64 ∧
    (1 ≤ x.toNat → x.toNat < s.cfg.nd →
      (s.blk.stall.getD 0 0#64).toNat + s.cfg.grantPri ≤ 2 ^ 64 - 1 →
      (s.blk.stall.getD x.toNat 0#64).toNat + sec ≤ 2 ^ 64 - 1 →
      ∃ st : List W64,
        exec (.cdBusgrant x) s =
          .next (s.answer { s.blk with stall := st, toggle := !s.blk.toggle } ⟨.ok, 0#8, 0#64, 0#64, []⟩) ∧
        st.length = s.cfg.nd ∧
        (st.getD 0 0#64).toNat = (s.blk.stall.getD 0 0#64).toNat + s.cfg.grantPri ∧
        (st.getD x.toNat 0#64).toNat = (s.blk.stall.getD x.toNat 0#64).toNat + sec ∧
        ∀ d, d ≠ 0 → d ≠ x.toNat → st.getD d 0#64 = s.blk.stall.getD d 0#64) ∧
    (1 ≤ x.toNat → x.toNat < s.cfg.nd →
      (2 ^ 64 - 1 < (s.blk.stall.getD 0 0#64).toNat + s.cfg.grantPri ∨
        2 ^ 64 - 1 < (s.blk.stall.getD x.toNat 0#64).toNat + sec) →
      exec (.cdBusgrant x) s = .next (s.answer { s.blk with fault := true, cause := 0x07#8 }
        ⟨.fault, 0x07#8, 0#64, 0#64, []⟩)) ∧
    ((x.toNat = 0 ∨ s.cfg.nd ≤ x.toNat) →
      exec (.cdBusgrant x) s = .next (s.answer { s.blk with fault := true, cause := 0x06#8 }
        ⟨.fault, 0x06#8, 0#64, 0#64, []⟩))

/-! ### Bus cost table (42_bus_timing_prefetch.md) -/

/-- R191: BT_COST prices an access by the one region that holds its start address, and changes nothing; the reserved
width code raises F_ILLEGAL_CMD before an address out of range raises F_OPERAND_RANGE. -/
def Obligations.CostIsTheTableEntryOfTheRegion : Prop :=
  ∀ (s : State) (w : BitVec 2) (seq : Bool) (a : W64) (r : Nat), s.running = true →
    encode (.btCost w seq a) = 0x30#8 ++ (0#5 ++ BitVec.ofBool seq ++ w) ++ a ++ 0#64 ∧
    (w ≠ 3#2 → r < s.cfg.nr → (s.cfg.regions.getD r default).lo ≤ a.toNat →
      a.toNat ≤ (s.cfg.regions.getD r default).hi →
      exec (.btCost w seq a) s = .next (s.answer s.blk
        ⟨.ok, 0#8, BitVec.ofNat 64 ((s.cfg.regions.getD r default).wt.cost w.toNat seq (s.blk.bw.getD r false)),
          0#64, []⟩)) ∧
    (w = 3#2 → exec (.btCost w seq a) s = .next (s.answer { s.blk with fault := true, cause := 0x01#8 }
      ⟨.fault, 0x01#8, 0#64, 0#64, []⟩)) ∧
    (w ≠ 3#2 → 2 ^ s.cfg.ab ≤ a.toNat →
      exec (.btCost w seq a) s = .next (s.answer { s.blk with fault := true, cause := 0x06#8 }
        ⟨.fault, 0x06#8, 0#64, 0#64, []⟩))

/-- R193: BT_SETBW writes the one bit, for the next cost that is computed (BT_COST at an address of the region then
reads the entry for the new bit), and leaves a fetch in progress its REM; a region out of range raises
F_OPERAND_RANGE. -/
def Obligations.SetBusWidthWritesOneBit : Prop :=
  ∀ (s : State) (x : Idx) (bit : Bool), s.running = true →
    encode (.btSetbw x bit) = 0x31#8 ++ x ++ (if bit then 1#64 else 0#64) ++ 0#64 ∧
    (x.toNat < s.cfg.nr →
      ∃ (bw : List Bool) (t : State), t = s.answer { s.blk with bw := bw } ⟨.ok, 0#8, 0#64, 0#64, []⟩ ∧
        exec (.btSetbw x bit) s = .next t ∧ bw.length = s.cfg.nr ∧ bw.getD x.toNat false = bit ∧
        (∀ r, r ≠ x.toNat → bw.getD r false = s.blk.bw.getD r false) ∧
        ∀ (w : BitVec 2) (seq : Bool) (a : W64), w ≠ 3#2 →
          (s.cfg.regions.getD x.toNat default).lo ≤ a.toNat → a.toNat ≤ (s.cfg.regions.getD x.toNat default).hi →
          exec (.btCost w seq a) t = .next (t.answer t.blk
            ⟨.ok, 0#8, BitVec.ofNat 64 ((s.cfg.regions.getD x.toNat default).wt.cost w.toNat seq bit),
              0#64, []⟩)) ∧
    (s.cfg.nr ≤ x.toNat → exec (.btSetbw x bit) s = .next (s.answer { s.blk with fault := true, cause := 0x06#8 }
      ⟨.fault, 0x06#8, 0#64, 0#64, []⟩))

/-- R205: BT_SETPF writes PF_EN; disabling abandons the fetch in progress, enabling starts nothing; buffered words
stay and no cycle is charged. -/
def Obligations.SetPrefetchWritesTheEnable : Prop :=
  ∀ s : State, s.running = true →
    exec (.btSetpf true) s = .next (s.answer { s.blk with pfEn := true } ⟨.ok, 0#8, 0#64, 0#64, []⟩) ∧
    exec (.btSetpf false) s = .next (s.answer { s.blk with pfEn := false, active := false, rem := 0#64 }
      ⟨.ok, 0#8, 0#64, 0#64, []⟩) ∧
    (∀ en, encode (.btSetpf en) = 0x32#8 ++ 0#8 ++ (if en then 1#64 else 0#64) ++ 0#64)

/-! ### Prefetch unit (42_bus_timing_prefetch.md) -/

/-- R207: the address checks of PF_PREPARE and PF_READ, range before alignment. -/
def Obligations.PrefetchAddressChecks : Prop :=
  ∀ (s : State) (a : W64) (i : Instr), s.running = true → (i = .pfPrepare a ∨ i = .pfRead a) →
    (2 ^ s.cfg.ab ≤ a.toNat →
      exec i s = .next (s.answer { s.blk with fault := true, cause := 0x06#8 }
        ⟨.fault, 0x06#8, 0#64, 0#64, []⟩)) ∧
    (a.toNat < 2 ^ s.cfg.ab → a.toNat % s.cfg.pfWb ≠ 0 →
      exec i s = .next (s.answer { s.blk with fault := true, cause := 0x08#8 }
        ⟨.fault, 0x08#8, 0#64, 0#64, []⟩))

/-- R200, R201 and, for the engine, R197, R198: the three classes of PF_PREPARE at a good address. `w` is the address
of the next word and `go` says whether the engine goes on after the fetch. -/
def Obligations.PrepareHasThreeClasses : Prop :=
  ∀ (s : State) (a w : W64) (go : Bool), s.sound = true →
    a.toNat < 2 ^ s.cfg.ab → a.toNat % s.cfg.pfWb = 0 →
    w.toNat = (a.toNat + s.cfg.pfWb) % 2 ^ s.cfg.ab →
    go = (s.blk.pfEn && decide (1 < s.cfg.pfN) && w.toNat % s.cfg.pfBoundary != 0) →
    (a = s.blk.raddr → s.blk.pfQ ≠ [] →
      exec (.pfPrepare a) s = .next (s.answer s.blk ⟨.ok, 1#8, BitVec.ofNat 64 s.cfg.pfHitCost, 0#64, []⟩)) ∧
    (a = s.blk.raddr → s.blk.pfQ = [] → s.blk.active = true →
      exec (.pfPrepare a) s = .next (s.answer { s.blk with
          pfQ := [memRead s.cfg s.back a], waddr := w, active := go
          rem := if go then BitVec.ofNat 64 (latS s.cfg s.blk w) else 0#64 }
        ⟨.ok, 2#8, s.blk.rem, 0#64, []⟩)) ∧
    (¬ (a = s.blk.raddr ∧ (s.blk.active = true ∨ s.blk.pfQ ≠ [])) →
      exec (.pfPrepare a) s = .next (s.answer { s.blk with
          pfQ := [memRead s.cfg s.back a], raddr := a, waddr := w, active := go
          rem := if go then BitVec.ofNat 64 (latS s.cfg s.blk w) else 0#64 }
        ⟨.ok, 0#8, BitVec.ofNat 64 (latN s.cfg s.blk a + if s.blk.active ∧ s.blk.rem = 1#64 then 1 else 0),
          0#64, []⟩))

/-- R200, 70_reset_and_hazards.md R326: PF_PREPARE at a good address makes the PF_READ of that address succeed with
the word at the head of the buffer, which is the backing store's word unless it was buffered before. -/
def Obligations.PreparedWordIsThenRead : Prop :=
  ∀ (s : State) (a : W64), s.sound = true → a.toNat < 2 ^ s.cfg.ab → a.toNat % s.cfg.pfWb = 0 →
    ∃ (t u : State) (w : PfWord),
      exec (.pfPrepare a) s = .next t ∧ t.blk.raddr = a ∧ t.blk.pfQ.head? = some w ∧
      exec (.pfRead a) t = .next u ∧ u.out = some (.response ⟨.ok, 0#8, w.setWidth 64, 0#64, []⟩) ∧
      (a = s.blk.raddr → s.blk.pfQ ≠ [] → s.blk.pfQ.head? = some w) ∧
      (¬ (a = s.blk.raddr ∧ s.blk.pfQ ≠ []) → w = memRead s.cfg s.back a)

/-- R202, R203: PF_READ at a good address pops the oldest word when it is RADDR's, and restarts a paused, enabled
engine only when that empties the buffer; otherwise it answers NONE and changes nothing. -/
def Obligations.ReadPopsTheHeadWord : Prop :=
  ∀ (s : State) (a n : W64), s.sound = true → a.toNat < 2 ^ s.cfg.ab → a.toNat % s.cfg.pfWb = 0 →
    n.toNat = (a.toNat + s.cfg.pfWb) % 2 ^ s.cfg.ab →
    (∀ w q, a = s.blk.raddr → s.blk.pfQ = w :: q →
      exec (.pfRead a) s = .next (s.answer { s.blk with
          pfQ := q, raddr := n
          active := s.blk.active || (q.isEmpty && s.blk.pfEn)
          rem := if q = [] ∧ s.blk.active = false ∧ s.blk.pfEn = true
            then BitVec.ofNat 64 (latN s.cfg s.blk s.blk.waddr) else s.blk.rem }
        ⟨.ok, 0#8, w.setWidth 64, 0#64, []⟩)) ∧
    ((a ≠ s.blk.raddr ∨ s.blk.pfQ = []) →
      exec (.pfRead a) s = .next (s.answer s.blk ⟨.none, 0#8, 0#64, 0#64, []⟩))

/-- R204, R197, R198: PF_ADVANCE. With no fetch in progress or no cycles it does nothing; cycles short of REM are taken
off it; otherwise the fetch completes and the rest of the cycles is spent from there as a PF_ADVANCE of its own. -/
def Obligations.AdvanceRunsTheEngine : Prop :=
  ∀ (s : State) (n w : W64) (go : Bool), s.sound = true →
    w.toNat = (s.blk.waddr.toNat + s.cfg.pfWb) % 2 ^ s.cfg.ab →
    go = (s.blk.pfEn && decide (s.blk.pfQ.length + 1 < s.cfg.pfN) && w.toNat % s.cfg.pfBoundary != 0) →
    ((s.blk.active = false ∨ n = 0#64) →
      exec (.pfAdvance n) s = .next (s.answer s.blk ⟨.ok, 0#8, 0#64, 0#64, []⟩)) ∧
    (s.blk.active = true → n ≠ 0#64 → n < s.blk.rem →
      exec (.pfAdvance n) s = .next (s.answer { s.blk with rem := s.blk.rem - n } ⟨.ok, 0#8, 0#64, 0#64, []⟩)) ∧
    (s.blk.active = true → n ≠ 0#64 → s.blk.rem ≤ n →
      ∃ b, exec (.pfAdvance n) s = .next (s.answer b ⟨.ok, 0#8, 0#64, 0#64, []⟩) ∧
        ∀ t : State, t = { s with
            blk := { s.blk with
              pfQ := s.blk.pfQ ++ [memRead s.cfg s.back s.blk.waddr], waddr := w, active := go
              rem := if go then BitVec.ofNat 64 (latS s.cfg s.blk w) else 0#64 } } →
          exec (.pfAdvance (n - s.blk.rem)) t = .next (t.answer b ⟨.ok, 0#8, 0#64, 0#64, []⟩))

/-- From R204: offering cycles in two commands is offering them in one. The engine loses no cycle between commands, and
cycles offered to a stopped engine are lost either way. -/
def Obligations.OfferedCyclesAddUp : Prop :=
  ∀ (s t v : State) (n m : W64), s.sound = true → n.toNat + m.toNat < 2 ^ 64 →
    exec (.pfAdvance n) s = .next t → exec (.pfAdvance m) t = .next v →
    ∃ w, exec (.pfAdvance (n + m)) s = .next w ∧ w.blk = v.blk

/-- 20_memory.md R85, 42_bus_timing_prefetch.md R206: while the backing store does not change, every buffered word is the
word at its address, through every frame of every unit, so that PF_READ a returns `BACK(a)`. -/
def Obligations.BufferMirrorsAnUnchangingStore : Prop :=
  (∀ (s t : State) (f : Frame) (rest : List Input), s.consistent = true → s.cfg.valid = true →
    s.mirrorsBack = true → s.inbox = .frame f :: rest → step s = .next t → t.mirrorsBack = true) ∧
  (∀ (s t : State) (a : W64) (r : Response), s.sound = true → s.mirrorsBack = true →
    exec (.pfRead a) s = .next t → t.out = some (.response r) → r.status = .ok →
    r.r0 = (memRead s.cfg s.back a).setWidth 64)

/-- 20_memory.md R85 (b: the unit does not watch the store): the platform's change of a byte changes that byte alone, and
no element of the block, a word fetched before included. That a byte is what the platform changes is the model's
choice (assumptions 4, 5), and so is the bound when the last CFG is invalid (assumption 14). -/
def Obligations.StoreChangesLeaveTheBlockAlone : Prop :=
  ∀ (s : State) (a : Nat) (v : Byte) (rest : List Input), Memory.wf s.back = true →
    s.inbox = .backWrite a v :: rest → a < 2 ^ s.cfg.ab →
    ∃ t, step s = .next t ∧ t.blk = s.blk ∧ t.cfg = s.cfg ∧ t.inbox = rest ∧ Memory.wf t.back = true ∧
      Memory.read t.back a = v ∧ ∀ x, x ≠ a → Memory.read t.back x = Memory.read s.back x

/-- 20_memory.md R75: a word is assembled from its bytes with the byte at the lower address less significant, and has
PF_WB * 8 bits. That the store is kept as bytes is the model's choice (assumption 4). -/
def Obligations.WordsAreLittleEndian : Prop :=
  ∀ (c : Cfg) (m : Memory) (a : W64), c.pfWb ≤ 4 →
    (memRead c m a).toNat < 2 ^ (8 * c.pfWb) ∧
    ∀ j, j < c.pfWb → (memRead c m a).extractLsb' (8 * j) 8 = Memory.read m (a.toNat + j)

/-! ### Interrupt Priority Arbiter (43_interrupt_arbiter.md) -/

/-- R241, R245 with R240: IA_SETFLAG sets and IA_ACK clears the flag of the one source named, if it exists, and nothing
else; acknowledging is writing 1 to clear that one bit. -/
def Obligations.SetFlagAndAckTouchOneFlag : Prop :=
  ∀ (s : State) (x : Idx), s.running = true →
    encode (.iaSetflag x) = 0x40#8 ++ x ++ 0#64 ++ 0#64 ∧ encode (.iaAck x) = 0x44#8 ++ x ++ 0#64 ++ 0#64 ∧
    (∃ f : W64,
      exec (.iaSetflag x) s = .next (s.answer { s.blk with flag := f } ⟨.ok, 0#8, 0#64, 0#64, []⟩) ∧
      ∀ j, j < 64 → f.getLsbD j = (s.blk.flag.getLsbD j || (decide (j < s.cfg.ns) && j == x.toNat))) ∧
    (∃ f : W64,
      exec (.iaAck x) s = .next (s.answer { s.blk with flag := f } ⟨.ok, 0#8, 0#64, 0#64, []⟩) ∧
      ∀ j, j < 64 → f.getLsbD j = (s.blk.flag.getLsbD j && j != x.toNat)) ∧
    exec (.iaAck x) s = exec (.iaWrflagclr (1#64 <<< x.toNat)) s

/-- R242, R243 with R240: IA_WRENABLE replaces the whole enable register, IA_WRFLAGCLR clears exactly the flags whose
mask bit is 1 and sets none; bits NS..63 of a mask are ignored. -/
def Obligations.MaskWritesReplaceAndClear : Prop :=
  ∀ (s : State) (m : W64), s.running = true →
    encode (.iaWrenable m) = 0x41#8 ++ 0#8 ++ m ++ 0#64 ∧ encode (.iaWrflagclr m) = 0x42#8 ++ 0#8 ++ m ++ 0#64 ∧
    (∃ e : W64,
      exec (.iaWrenable m) s = .next (s.answer { s.blk with enable := e } ⟨.ok, 0#8, 0#64, 0#64, []⟩) ∧
      ∀ j, j < 64 → e.getLsbD j = (decide (j < s.cfg.ns) && m.getLsbD j)) ∧
    (∃ f : W64,
      exec (.iaWrflagclr m) s = .next (s.answer { s.blk with flag := f } ⟨.ok, 0#8, 0#64, 0#64, []⟩) ∧
      ∀ j, j < 64 → f.getLsbD j = (s.blk.flag.getLsbD j && !m.getLsbD j))

/-- R244, R246: IA_HPP answers NONE when nothing is pending, else the pending source that comes first in PRIO, and
changes nothing; with the identity list that is the lowest pending source. -/
def Obligations.HighestPriorityPendingIsFirstInPrio : Prop :=
  ∀ s : State, s.running = true →
    encode .iaHpp = 0x43#8 ++ 0#8 ++ 0#64 ++ 0#64 ∧
    (s.blk.enable &&& s.blk.flag = 0#64 →
      exec .iaHpp s = .next (s.answer s.blk ⟨.none, 0#8, 0#64, 0#64, []⟩)) ∧
    (s.blk.enable &&& s.blk.flag ≠ 0#64 →
      ∃ src, src < s.cfg.ns ∧ (s.blk.enable &&& s.blk.flag).getLsbD src = true ∧
        exec .iaHpp s = .next (s.answer s.blk ⟨.ok, BitVec.ofNat 8 src, 0#64, 0#64, []⟩) ∧
        (∀ j, (s.blk.enable &&& s.blk.flag).getLsbD j = true → s.cfg.prio.idxOf src ≤ s.cfg.prio.idxOf j) ∧
        (s.cfg.prio = List.range s.cfg.ns →
          ∀ j, (s.blk.enable &&& s.blk.flag).getLsbD j = true → src ≤ j))

/-- R290: an acknowledged source is not offered again until it is flagged again; the others keep their flags. -/
def Obligations.AcknowledgedSourceIsNotOffered : Prop :=
  ∀ (s : State) (src : Idx), s.running = true →
    exec .iaHpp s = .next (s.answer s.blk ⟨.ok, src, 0#64, 0#64, []⟩) →
    ∃ t u, exec (.iaAck src) s = .next t ∧ exec .iaHpp t = .next u ∧
      u.out ≠ some (.response ⟨.ok, src, 0#64, 0#64, []⟩) ∧
      (∀ j, j < 64 → j ≠ src.toNat → t.blk.flag.getLsbD j = s.blk.flag.getLsbD j)

/-! ### Time-Ordered Register (44_time_ordered_register.md) -/

/-- R262: the operand checks of both commands: index, then value, each raising F_OPERAND_RANGE. -/
def Obligations.RegisterOperandChecks : Prop :=
  ∀ (s : State) (x : Idx) (t v : W64), s.running = true →
    ((s.cfg.nx ≤ x.toNat ∨ 2 ^ s.cfg.vw ≤ v.toNat) →
      exec (.xrWrite x t v) s = .next (s.answer { s.blk with fault := true, cause := 0x06#8 }
        ⟨.fault, 0x06#8, 0#64, 0#64, []⟩)) ∧
    (s.cfg.nx ≤ x.toNat →
      exec (.xrRead x t) s = .next (s.answer { s.blk with fault := true, cause := 0x06#8 }
        ⟨.fault, 0x06#8, 0#64, 0#64, []⟩))

/-- R260: XR_WRITE. `all` is the old sequence with the new entry in its place, the old value at that cycle replaced;
the register keeps its XR_CAP youngest entries. Nothing else changes. -/
def Obligations.WriteInsertsReplacesAndEvicts : Prop :=
  ∀ (s : State) (x : Idx) (t v : W64), s.sound = true → x.toNat < s.cfg.nx → v.toNat < 2 ^ s.cfg.vw →
    encode (.xrWrite x t v) = 0x50#8 ++ x ++ t ++ v ∧
    ∃ all : List Stamp,
      all.Pairwise (fun e e' => e.cycle < e'.cycle) ∧
      (∀ e, e ∈ all ↔ e = ⟨t, v⟩ ∨ (e ∈ s.blk.seq.getD x.toNat [] ∧ e.cycle ≠ t)) ∧
      exec (.xrWrite x t v) s = .next (s.answer
        { s.blk with seq := s.blk.seq.set x.toNat (all.drop (all.length - s.cfg.xrCap)) }
        ⟨.ok, 0#8, 0#64, 0#64, []⟩)

/-- R261: XR_READ returns the value of the entry with the greatest cycle that is not above the as-of cycle, or the
register's default, and changes nothing. -/
def Obligations.ReadReturnsTheLatestNotAfter : Prop :=
  ∀ (s : State) (x : Idx) (asOf : W64), s.sound = true → x.toNat < s.cfg.nx →
    encode (.xrRead x asOf) = 0x51#8 ++ x ++ asOf ++ 0#64 ∧
    (∀ e ∈ s.blk.seq.getD x.toNat [], e.cycle ≤ asOf →
      (∀ e' ∈ s.blk.seq.getD x.toNat [], e'.cycle ≤ asOf → e'.cycle ≤ e.cycle) →
      exec (.xrRead x asOf) s = .next (s.answer s.blk ⟨.ok, 0#8, e.value, 0#64, []⟩)) ∧
    ((∀ e ∈ s.blk.seq.getD x.toNat [], asOf < e.cycle) →
      exec (.xrRead x asOf) s =
        .next (s.answer s.blk ⟨.ok, 0#8, BitVec.ofNat 64 (s.cfg.xrDefault.getD x.toNat 0), 0#64, []⟩))

/-- R263, R82: causality. While the register has room, a value written at cycle t is what every read as of t or later
returns up to the next stored cycle, and no read as of an earlier cycle sees that the write was made. -/
def Obligations.WritesAreSeenFromTheirCycleOn : Prop :=
  ∀ (s : State) (x : Idx) (t v : W64), s.sound = true → x.toNat < s.cfg.nx → v.toNat < 2 ^ s.cfg.vw →
    (s.blk.seq.getD x.toNat []).length < s.cfg.xrCap →
    ∃ u, exec (.xrWrite x t v) s = .next u ∧
      (∀ asOf, t ≤ asOf → (∀ e ∈ s.blk.seq.getD x.toNat [], ¬ (t < e.cycle ∧ e.cycle ≤ asOf)) →
        exec (.xrRead x asOf) u = .next (u.answer u.blk ⟨.ok, 0#8, v, 0#64, []⟩)) ∧
      (∀ asOf, asOf < t → ∃ r p q, exec (.xrRead x asOf) s = .next p ∧ exec (.xrRead x asOf) u = .next q ∧
        p.out = some (.response r) ∧ q.out = some (.response r))

/-- R264, R324: what eviction costs. A write at a new, younger cycle into a full register forgets its oldest entry: a
read as of a cycle before the next stored one, which returned that entry's value, now returns the default. -/
def Obligations.EvictedEntryReadsAsDefault : Prop :=
  ∀ (s : State) (x : Idx) (t v asOf : W64) (e : Stamp) (q : List Stamp), s.sound = true →
    x.toNat < s.cfg.nx → v.toNat < 2 ^ s.cfg.vw →
    s.blk.seq.getD x.toNat [] = e :: q → (e :: q).length = s.cfg.xrCap →
    (∀ e' ∈ e :: q, e'.cycle ≠ t) → e.cycle < t → e.cycle ≤ asOf → asOf < t → (∀ e' ∈ q, asOf < e'.cycle) →
    ∃ u, exec (.xrWrite x t v) s = .next u ∧
      exec (.xrRead x asOf) s = .next (s.answer s.blk ⟨.ok, 0#8, e.value, 0#64, []⟩) ∧
      exec (.xrRead x asOf) u =
        .next (u.answer u.blk ⟨.ok, 0#8, BitVec.ofNat 64 (s.cfg.xrDefault.getD x.toNat 0), 0#64, []⟩)
end

