-- ==== Sys2Proof/Laws/Validity.lean ====
section
/-! SUPPORT. What the checks of a configuration and of an image mean (spec/00_scope.md R9, 10_state.md R26, R41). -/

namespace Sys2Proof

/-- `isPow2UpTo` finds the exponent. -/
theorem isPow2UpTo_iff (limit n : Nat) : isPow2UpTo limit n = true ↔ ∃ k, k ≤ limit ∧ n = 2 ^ k := by
  simp [isPow2UpTo]

/-- Two regions in order share no address exactly when one ends before the other starts. -/
theorem Region.disjoint_iff (r s : Region) (hr : r.lo ≤ r.hi) (hs : s.lo ≤ s.hi) :
    Region.disjoint r s = true ↔ ∀ a, ¬ ((r.lo ≤ a ∧ a ≤ r.hi) ∧ (s.lo ≤ a ∧ a ≤ s.hi)) := by
  simp only [Region.disjoint, Bool.or_eq_true, decide_eq_true_eq]
  constructor
  · intro h a ha
    omega
  · intro h
    have h1 := h r.lo
    have h2 := h s.lo
    omega

/-- `disjointRegions` is the pairwise check. -/
theorem disjointRegions_iff (rs : List Region) :
    disjointRegions rs = true ↔ rs.Pairwise fun r s => Region.disjoint r s = true := by
  induction rs with
  | nil => simp [disjointRegions]
  | cons r rs ih => simp [disjointRegions, ih]

/-- What two elements of a pairwise disjoint list that share an address have in common: they are one region. -/
theorem eq_of_shared (rs : List Region) (hd : disjointRegions rs = true) (r s : Region) (hr : r ∈ rs) (hs : s ∈ rs)
    (a : Nat) (har : r.lo ≤ a ∧ a ≤ r.hi) (has : s.lo ≤ a ∧ a ≤ s.hi) : r = s := by
  induction rs with
  | nil => simp at hr
  | cons t rs ih =>
    simp only [disjointRegions, Bool.and_eq_true, List.all_eq_true, Region.disjoint, Bool.or_eq_true,
      decide_eq_true_eq] at hd
    rcases List.mem_cons.1 hr with rfl | hr' <;> rcases List.mem_cons.1 hs with rfl | hs'
    · rfl
    · have := hd.1 s hs'; omega
    · have := hd.1 r hr'; omega
    · exact ih hd.2 hr' hs'

/-- For regions in range and disjoint, the check by end points is the coverage that R9 asks for: every address of the
space lies in a region. -/
theorem coversSpace_iff (ab : Nat) (rs : List Region) (hok : ∀ r ∈ rs, r.lo ≤ r.hi ∧ r.hi < 2 ^ ab)
    (hd : disjointRegions rs = true) :
    coversSpace ab rs = true ↔ ∀ a, a < 2 ^ ab → ∃ r ∈ rs, r.lo ≤ a ∧ a ≤ r.hi := by
  simp only [coversSpace, Bool.and_eq_true, List.any_eq_true, List.all_eq_true, Bool.or_eq_true, beq_iff_eq]
  constructor
  · rintro ⟨⟨z, hz, hz0⟩, hnext⟩ a
    induction a with
    | zero => intro _; exact ⟨z, hz, by omega, by omega⟩
    | succ a ih =>
      intro ha
      obtain ⟨r, hr, h1, h2⟩ := ih (by omega)
      by_cases h : a + 1 ≤ r.hi
      · exact ⟨r, hr, by omega, h⟩
      · rcases hnext r hr with hend | ⟨s, hs, hlo⟩
        · omega
        · have := hok s hs
          exact ⟨s, hs, by omega, by omega⟩
  · intro hcov
    refine ⟨?_, fun r hr => ?_⟩
    · obtain ⟨r, hr, h1, -⟩ := hcov 0 (by positivity)
      exact ⟨r, hr, by omega⟩
    · have hrok := hok r hr
      by_cases hend : r.hi + 1 = 2 ^ ab
      · exact .inl hend
      · obtain ⟨s, hs, h1, h2⟩ := hcov (r.hi + 1) (by omega)
        refine .inr ⟨s, hs, ?_⟩
        by_contra hne
        have := eq_of_shared rs hd r s hr hs r.hi (by omega) (by omega)
        subst this
        omega

end Sys2Proof

namespace Sys2Proof.Machine

/-- `less` is the order of R130. -/
theorem less_iff (a b : Entry) : less a b = true ↔ a.due < b.due ∨ (a.due = b.due ∧ a.kind < b.kind) := by
  simp [less]

/-- `increasing` is the order of R41, on every pair of entries. -/
theorem increasing_iff (q : List Stamp) : increasing q = true ↔ q.Pairwise fun e e' => e.cycle < e'.cycle := by
  induction q with
  | nil => simp [increasing]
  | cons e q ih => simp [increasing, ih]

/-- `distinctKinds` is R26 (c), on every pair of entries. -/
theorem distinctKinds_iff (h : List Entry) : distinctKinds h = true ↔ h.Pairwise fun e e' => e'.kind ≠ e.kind := by
  induction h with
  | nil => simp [distinctKinds]
  | cons e h ih => simp [distinctKinds, ih]

/-- A legal image is one of the block's type. -/
theorem Block.fits_of_legal (c : Cfg) (b : Block) (h : b.legal c = true) : b.fits c = true := by
  simp only [Block.legal, Bool.and_eq_true] at h
  exact h.1.1.1.1.1

end Sys2Proof.Machine
end

