-- ==== Sys2Proof/Laws/EventScheduler.lean ====
section
/-! SUPPORT. What the heap procedures can do (spec/40_event_scheduler.md R131 to R134, R138): every one of them keeps the
entries and only moves them, and each restores the order of 10_state.md R26 (e). -/

namespace Sys2Proof.Machine

/-! ### Slots -/

theorem slot_of_lt (h : List Entry) (i : Nat) (hi : i < h.length) : slot h i = h[i] := by
  simp [slot, hi]

theorem slot_set (h : List Entry) (i j : Nat) (e : Entry) (hi : i < h.length) :
    slot (h.set i e) j = if i = j then e else slot h j := by
  unfold slot
  rw [List.getD_eq_getElem?_getD, List.getD_eq_getElem?_getD, List.getElem?_set]
  split
  · subst_vars; simp
  · rfl

@[simp] theorem swapSlots_length (h : List Entry) (i j : Nat) : (swapSlots h i j).length = h.length := by
  simp [swapSlots]

/-- What every slot holds after an exchange. -/
theorem slot_swapSlots (h : List Entry) (i j k : Nat) (hi : i < h.length) (hj : j < h.length) :
    slot (swapSlots h i j) k = if k = j then slot h i else if k = i then slot h j else slot h k := by
  unfold swapSlots
  rw [slot_set _ _ _ _ (by simpa using hj), slot_set _ _ _ _ hi]
  simp only [eq_comm (a := j), eq_comm (a := i)]

/-- An exchange keeps the entries. -/
theorem swapSlots_perm (h : List Entry) (i j : Nat) (hi : i < h.length) (hj : j < h.length) :
    (swapSlots h i j).Perm h := by
  unfold swapSlots
  rw [slot_of_lt h i hi, slot_of_lt h j hj]
  exact List.set_set_perm hi hj

/-! ### `sift_up` and `sift_down` keep the entries -/

@[simp] theorem siftUp_length (fuel : Nat) (h : List Entry) (i : Nat) : (siftUp fuel h i).1.length = h.length := by
  induction fuel generalizing h i with
  | zero => rfl
  | succ fuel ih => unfold siftUp; split <;> [rfl; (split <;> simp [ih])]

/-- `sift_up` only moves entries. -/
theorem siftUp_perm (fuel : Nat) (h : List Entry) (i : Nat) (hi : i < h.length) : (siftUp fuel h i).1.Perm h := by
  induction fuel generalizing h i with
  | zero => rfl
  | succ fuel ih =>
    unfold siftUp
    split
    · rfl
    · split
      · exact (ih _ _ (by simp; omega)).trans (swapSlots_perm h i _ hi (by omega))
      · rfl

/-- `sift_up` never moves an entry down. -/
theorem siftUp_snd_le (fuel : Nat) (h : List Entry) (i : Nat) : (siftUp fuel h i).2 ≤ i := by
  induction fuel generalizing h i with
  | zero => exact Nat.le_refl _
  | succ fuel ih =>
    unfold siftUp
    split
    · exact Nat.le_refl _
    · split
      · exact (ih _ _).trans (by omega)
      · exact Nat.le_refl _

/-- The slot that `sift_down` exchanges with is i or one of its live children. -/
theorem smallestChild_cases (h : List Entry) (i : Nat) :
    smallestChild h i = i ∨ (smallestChild h i = 2 * i + 1 ∧ 2 * i + 1 < h.length) ∨
      (smallestChild h i = 2 * i + 2 ∧ 2 * i + 2 < h.length) := by
  simp only [smallestChild, Bool.and_eq_true, decide_eq_true_eq]
  split_ifs <;> omega

@[simp] theorem siftDown_length (fuel : Nat) (h : List Entry) (i : Nat) : (siftDown fuel h i).length = h.length := by
  induction fuel generalizing h i with
  | zero => rfl
  | succ fuel ih => unfold siftDown; split <;> simp [ih]

/-- `sift_down` only moves entries. -/
theorem siftDown_perm (fuel : Nat) (h : List Entry) (i : Nat) (hi : i < h.length) : (siftDown fuel h i).Perm h := by
  induction fuel generalizing h i with
  | zero => rfl
  | succ fuel ih =>
    unfold siftDown
    split
    · rfl
    · have hm : smallestChild h i < h.length := by
        rcases smallestChild_cases h i with hc | ⟨hc, hl⟩ | ⟨hc, hl⟩ <;> omega
      exact (ih _ _ (by simpa using hm)).trans (swapSlots_perm h i _ hi hm)

/-! ### `find(k)` -/

/-- A slot that `find` returns holds the kind. -/
theorem findKind_some (h : List Entry) (k i : Nat) (hf : findKind h k = some i) :
    i < h.length ∧ (slot h i).kind = k := by
  unfold findKind at hf
  obtain ⟨hi, hp, -⟩ := List.findIdx?_eq_some_iff_getElem.1 hf
  exact ⟨hi, by simpa [slot_of_lt h i hi] using hp⟩

/-- `find` returns nothing exactly when no live entry has the kind. -/
theorem findKind_none (h : List Entry) (k : Nat) : findKind h k = none ↔ ∀ e ∈ h, e.kind ≠ k := by
  simp [findKind, List.findIdx?_eq_none_iff]

/-! ### `remove_at(i)` and the update of a due cycle keep the other entries -/

/-- Moving the last entry into slot i and dropping the last slot takes out exactly the entry of slot i. -/
theorem set_last_perm (h : List Entry) (i : Nat) (hi : i < h.length) :
    ((h.set i (slot h (h.length - 1))).dropLast).Perm (h.eraseIdx i) := by
  obtain ⟨q, l, rfl⟩ : ∃ q l, h = q ++ [l] := ⟨h.dropLast, h.getLast (by rintro rfl; simp at hi),
    (List.dropLast_append_getLast _).symm⟩
  have hl : slot (q ++ [l]) ((q ++ [l]).length - 1) = l := by simp [slot]
  rw [hl]
  by_cases hq : i < q.length
  · rw [List.set_append_left _ _ hq, List.dropLast_concat, List.eraseIdx_append_of_lt_length hq]
    rw [List.set_eq_take_append_cons_drop, if_pos hq, List.eraseIdx_eq_take_drop_succ, List.append_assoc]
    exact List.Perm.append_left _ (List.perm_append_singleton l _).symm
  · have : i = q.length := by simp at hi; omega
    subst this
    rw [List.set_append_right _ _ (Nat.le_refl _), List.eraseIdx_append_of_length_le (Nat.le_refl _)]
    simp

/-- `remove_at(i)` takes out exactly the entry of slot i (R138). -/
theorem refill_perm (h : List Entry) (i : Nat) (hi : i < h.length) : (refill h i).Perm (h.eraseIdx i) := by
  refine .trans ?_ (set_last_perm h i hi)
  unfold refill
  dsimp only
  split
  · rename_i hlt
    split
    · exact (siftDown_perm _ _ _ (by simpa using hlt)).trans (siftUp_perm _ _ _ hlt)
    · exact siftUp_perm _ _ _ hlt
  · rfl

/-- One entry fewer. -/
theorem refill_length (h : List Entry) (i : Nat) (hi : i < h.length) : (refill h i).length = h.length - 1 := by
  rw [(refill_perm h i hi).length_eq, List.length_eraseIdx_of_lt hi]

/-- An update changes the due cycle of the entry of slot i, and no other entry (R134). -/
theorem updateDue_perm (h : List Entry) (i : Nat) (t : W64) (hi : i < h.length) :
    (updateDue h i t).Perm (h.set i ⟨(slot h i).kind, t⟩) := by
  unfold updateDue
  dsimp only
  split
  · exact siftUp_perm _ _ _ (by simpa using hi)
  · split
    · exact siftDown_perm _ _ _ (by simpa using hi)
    · rfl

end Sys2Proof.Machine
end

