-- ==== Sys2Proof/Laws/HeapOrder.lean ====
section
/-! SUPPORT. The heap procedures restore the order of 10_state.md R26 (e) (spec/40_event_scheduler.md R131, R132, R134,
R138), and the root of an ordered heap is its least entry. -/

namespace Sys2Proof.Machine

/-! ### The order -/

/-- `less` on the numbers, for `omega`. -/
theorem less_iff_nat (a b : Entry) :
    less a b = true ↔ a.due.toNat < b.due.toNat ∨ (a.due.toNat = b.due.toNat ∧ a.kind < b.kind) := by
  rw [less_iff, BitVec.lt_def, ← BitVec.toNat_inj]

theorem not_less_iff_nat (a b : Entry) :
    less a b = false ↔ b.due.toNat < a.due.toNat ∨ (a.due.toNat = b.due.toNat ∧ b.kind ≤ a.kind) := by
  rw [← Bool.not_eq_true, less_iff_nat]
  omega

theorem less_asymm (a b : Entry) (h : less a b = true) : less b a = false := by
  rw [less_iff_nat] at h
  rw [not_less_iff_nat]
  omega

theorem not_less_trans (a b c : Entry) (h1 : less b a = false) (h2 : less c b = false) : less c a = false := by
  rw [not_less_iff_nat] at *
  omega

/-- R26 (e), slot by slot. -/
theorem heapOrdered_iff (h : List Entry) :
    heapOrdered h = true ↔ ∀ j, 0 < j → j < h.length → less (slot h j) (slot h ((j - 1) / 2)) = false := by
  simp only [heapOrdered, List.all_eq_true, List.mem_range, Bool.or_eq_true, beq_iff_eq, Bool.not_eq_true']
  constructor
  · intro hh j hj hl
    rcases hh j hl with h0 | h0
    · omega
    · exact h0
  · intro hh j hl
    rcases Nat.eq_zero_or_pos j with h0 | h0
    · exact .inl h0
    · exact .inr (hh j h0 hl)

/-- The root of an ordered heap is not above any live entry. -/
theorem root_le (h : List Entry) (ho : heapOrdered h = true) (j : Nat) (hj : j < h.length) :
    less (slot h j) (slot h 0) = false := by
  rw [heapOrdered_iff] at ho
  induction j using Nat.strong_induction_on with
  | _ j ih =>
    rcases Nat.eq_zero_or_pos j with h0 | h0
    · subst h0
      rw [not_less_iff_nat]
      omega
    · exact not_less_trans _ _ _ (ih ((j - 1) / 2) (by omega) (by omega)) (ho j h0 hj)

/-! ### Heaps with one slot out of place -/

/-- Ordered, but that slot i may be less than its parent; its children are not less than that parent. -/
def UpOk (h : List Entry) (i : Nat) : Prop :=
  ∀ j, 0 < j → j < h.length →
    (j ≠ i → less (slot h j) (slot h ((j - 1) / 2)) = false) ∧
    ((j - 1) / 2 = i → 0 < i → less (slot h j) (slot h ((i - 1) / 2)) = false)

/-- Ordered, but that slot i may be above its children; they are not less than its parent. -/
def DownOk (h : List Entry) (i : Nat) : Prop :=
  ∀ j, 0 < j → j < h.length →
    ((j - 1) / 2 ≠ i → less (slot h j) (slot h ((j - 1) / 2)) = false) ∧
    ((j - 1) / 2 = i → 0 < i → less (slot h j) (slot h ((i - 1) / 2)) = false)

/-- `sift_up(i)` puts slot i in its place (R131). -/
theorem siftUp_ordered (fuel : Nat) (h : List Entry) (i : Nat) (hi : i < h.length) (hf : i ≤ fuel) (hu : UpOk h i) :
    heapOrdered (siftUp fuel h i).1 = true := by
  induction fuel generalizing h i with
  | zero =>
    have : i = 0 := by omega
    subst this
    exact (heapOrdered_iff h).2 fun j h0 hl => (hu j h0 hl).1 (by omega)
  | succ fuel ih =>
    unfold siftUp
    split
    · exact (heapOrdered_iff h).2 fun j h0 hl => (hu j h0 hl).1 (by omega)
    · rename_i hi0
      split
      · rename_i hless
        have hp : (i - 1) / 2 < h.length := by omega
        refine ih _ _ (by simpa using hp) (by omega) fun j h0 hl => ?_
        rw [swapSlots_length] at hl
        have hsw := fun k => slot_swapSlots h i ((i - 1) / 2) k hi hp
        refine ⟨fun hj => ?_, fun hj hpos => ?_⟩
        · rw [hsw, hsw, if_neg hj]
          by_cases hji : j = i
          · subst hji
            simp [less_asymm _ _ hless]
          · rw [if_neg hji]
            by_cases h1 : (j - 1) / 2 = (i - 1) / 2
            · rw [if_pos h1]
              have h2 := (hu j h0 hl).1 hji
              rw [h1] at h2
              exact not_less_trans _ _ _ (less_asymm _ _ hless) h2
            · rw [if_neg h1]
              by_cases h2 : (j - 1) / 2 = i
              · rw [if_pos h2]
                exact (hu j h0 hl).2 h2 (by omega)
              · rw [if_neg h2]
                exact (hu j h0 hl).1 hji
        · have hpp := (hu ((i - 1) / 2) hpos hp).1 (by omega)
          rw [hsw j, hsw (((i - 1) / 2 - 1) / 2), if_neg (show ¬ j = (i - 1) / 2 by omega),
            if_neg (show ¬ ((i - 1) / 2 - 1) / 2 = (i - 1) / 2 by omega),
            if_neg (show ¬ ((i - 1) / 2 - 1) / 2 = i by omega)]
          by_cases hji : j = i
          · rw [if_pos hji]
            exact hpp
          · rw [if_neg hji]
            have h2 := (hu j h0 hl).1 hji
            rw [hj] at h2
            exact not_less_trans _ _ _ hpp h2
      · rename_i hless
        refine (heapOrdered_iff h).2 fun j h0 hl => ?_
        by_cases hji : j = i
        · subst hji
          simpa using hless
        · exact (hu j h0 hl).1 hji

/-- Neither child of slot i is less than the one `sift_down` takes. -/
theorem smallestChild_le (h : List Entry) (i j : Nat) (hj : j = i ∨ j = 2 * i + 1 ∨ j = 2 * i + 2) (hl : j < h.length) :
    less (slot h j) (slot h (smallestChild h i)) = false := by
  have hirr : ∀ e : Entry, less e e = false := fun e => by rw [not_less_iff_nat]; omega
  simp only [smallestChild, Bool.and_eq_true, decide_eq_true_eq]
  split_ifs with h1 h2 h2
  · rcases hj with rfl | rfl | rfl
    · exact not_less_trans _ _ _ (less_asymm _ _ h2.2) (less_asymm _ _ h1.2)
    · exact less_asymm _ _ h2.2
    · exact hirr _
  · have h2' : 2 * i + 2 < h.length → less (slot h (2 * i + 2)) (slot h (2 * i + 1)) = false := fun hr => by
      simpa [hr] using h2
    rcases hj with rfl | rfl | rfl
    · exact less_asymm _ _ h1.2
    · exact hirr _
    · exact h2' hl
  · have h1' : 2 * i + 1 < h.length → less (slot h (2 * i + 1)) (slot h i) = false := fun hr => by
      simpa [hr] using h1
    rcases hj with rfl | rfl | rfl
    · exact less_asymm _ _ h2.2
    · exact not_less_trans _ _ _ (less_asymm _ _ h2.2) (h1' hl)
    · exact hirr _
  · have h1' : 2 * i + 1 < h.length → less (slot h (2 * i + 1)) (slot h i) = false := fun hr => by
      simpa [hr] using h1
    have h2' : 2 * i + 2 < h.length → less (slot h (2 * i + 2)) (slot h i) = false := fun hr => by
      simpa [hr] using h2
    rcases hj with rfl | rfl | rfl
    · exact hirr _
    · exact h1' hl
    · exact h2' hl

/-- `sift_down(i)` puts slot i in its place (R132). -/
theorem siftDown_ordered (fuel : Nat) (h : List Entry) (i : Nat) (hi : i < h.length) (hf : h.length ≤ fuel + i)
    (hd : DownOk h i) : heapOrdered (siftDown fuel h i) = true := by
  induction fuel generalizing h i with
  | zero => omega
  | succ fuel ih =>
    have hle := smallestChild_le h i
    unfold siftDown
    split
    · rename_i hm
      rw [hm] at hle
      refine (heapOrdered_iff h).2 fun j h0 hl => ?_
      by_cases hji : (j - 1) / 2 = i
      · rw [hji]
        exact hle j (by omega) hl
      · exact (hd j h0 hl).1 hji
    · rename_i hm
      obtain ⟨m, hmdef⟩ : ∃ m, m = smallestChild h i := ⟨_, rfl⟩
      rw [← hmdef] at hle hm ⊢
      have hmc : (m = 2 * i + 1 ∨ m = 2 * i + 2) ∧ m < h.length := by
        rcases smallestChild_cases h i with hc | ⟨hc, hl⟩ | ⟨hc, hl⟩ <;> omega
      obtain ⟨hmc, hml⟩ := hmc
      have hpm : (m - 1) / 2 = i := by omega
      refine ih _ _ (by simpa using hml) (by simp; omega) fun j h0 hl => ?_
      rw [swapSlots_length] at hl
      have hsw := fun k => slot_swapSlots h i m k hi hml
      refine ⟨fun hj => ?_, fun hj hpos => ?_⟩
      · rw [hsw, hsw, if_neg hj]
        by_cases hjm : j = m
        · rw [if_pos hjm, hjm, hpm, if_pos rfl]
          exact hle i (.inl rfl) hi
        · rw [if_neg hjm]
          by_cases hji : j = i
          · rw [if_pos hji, if_neg (by omega), hji]
            exact (hd m (by omega) hml).2 hpm (by omega)
          · rw [if_neg hji]
            by_cases hpj : (j - 1) / 2 = i
            · rw [if_pos hpj]
              exact hle j (by omega) hl
            · rw [if_neg hpj]
              exact (hd j h0 hl).1 hpj
      · rw [hsw, hsw, if_neg (by omega), if_neg (by omega), hpm, if_neg (by omega), if_pos rfl, ← hj]
        exact (hd j h0 hl).1 (by omega)

/-! ### The three uses -/

/-- A new entry at the end of an ordered heap finds its place (R134). -/
theorem insert_ordered (h : List Entry) (e : Entry) (ho : heapOrdered h = true) :
    heapOrdered (siftUp h.length (h ++ [e]) h.length).1 = true := by
  have hs : ∀ j, j < h.length → slot (h ++ [e]) j = slot h j := fun j hj => by
    simp [slot, List.getElem?_append_left hj]
  rw [heapOrdered_iff] at ho
  refine siftUp_ordered _ _ _ (by simp) (Nat.le_refl _) fun j h0 hl => ?_
  simp only [List.length_append, List.length_singleton] at hl
  refine ⟨fun hj => ?_, fun hj hp => by omega⟩
  rw [hs j (by omega), hs _ (by omega)]
  exact ho j h0 (by omega)

/-- What ordered heaps have for a child and its parent's parent. -/
theorem grandchild_ok (h : List Entry) (ho : heapOrdered h = true) (i j : Nat) (h0 : 0 < j) (hl : j < h.length)
    (hj : (j - 1) / 2 = i) (hi : 0 < i) : less (slot h j) (slot h ((i - 1) / 2)) = false := by
  rw [heapOrdered_iff] at ho
  have h1 := ho j h0 hl
  rw [hj] at h1
  exact not_less_trans _ _ _ (ho i hi (by omega)) h1

/-- An ordered heap stays ordered when an entry takes a new due cycle (R134). -/
theorem updateDue_ordered (h : List Entry) (i : Nat) (t : W64) (hi : i < h.length) (ho : heapOrdered h = true) :
    heapOrdered (updateDue h i t) = true := by
  have hg := grandchild_ok h ho i
  have hs := fun k => slot_set h i k { slot h i with due := t } hi
  have ho' := (heapOrdered_iff h).1 ho
  unfold updateDue
  dsimp only
  split
  · rename_i hlt
    refine siftUp_ordered _ _ _ (by simpa using hi) (Nat.le_refl _) fun j h0 hl => ?_
    rw [List.length_set] at hl
    have hj := ho' j h0 hl
    refine ⟨fun hji => ?_, fun hpj hpos => ?_⟩
    · rw [hs, hs, if_neg (Ne.symm hji)]
      split
      · rename_i hp
        rw [← hp] at hj
        rw [BitVec.lt_def] at hlt
        rw [not_less_iff_nat] at *
        simp only
        omega
      · exact hj
    · rw [hs, hs, if_neg (by omega), if_neg (by omega)]
      exact hg j h0 hl hpj hpos
  · split
    · rename_i hlt
      refine siftDown_ordered _ _ _ (by simpa using hi) (by omega) fun j h0 hl => ?_
      rw [List.length_set] at hl
      have hj := ho' j h0 hl
      refine ⟨fun hji => ?_, fun hpj hpos => ?_⟩
      · rw [hs, hs, if_neg (Ne.symm hji)]
        split
        · rename_i hp
          subst hp
          rw [BitVec.lt_def] at hlt
          rw [not_less_iff_nat] at *
          simp only
          omega
        · exact hj
      · rw [hs, hs, if_neg (by omega), if_neg (by omega)]
        exact hg j h0 hl hpj hpos
    · rename_i h1 h2
      have : t = (slot h i).due := by
        rw [BitVec.lt_def] at h1 h2
        exact BitVec.eq_of_toNat_eq (by omega)
      subst this
      rw [show ({ slot h i with due := (slot h i).due } : Entry) = h[i] from slot_of_lt h i hi, List.set_getElem_self]
      exact ho

/-- An ordered heap stays ordered when the entry of a slot is taken out (R138). -/
theorem refill_ordered (h : List Entry) (i : Nat) (hi : i < h.length) (ho : heapOrdered h = true) :
    heapOrdered (refill h i) = true := by
  have hg := grandchild_ok h ho i
  have ho' := (heapOrdered_iff h).1 ho
  unfold refill
  dsimp only
  obtain ⟨g, hgdef⟩ : ∃ g, g = (h.set i (slot h (h.length - 1))).dropLast := ⟨_, rfl⟩
  rw [← hgdef]
  have hlen : g.length = h.length - 1 := by simp [hgdef]
  have hs : ∀ k, k < g.length → k ≠ i → slot g k = slot h k := fun k hk hki => by
    have h1 : slot g k = slot (h.set i (slot h (h.length - 1))) k := by
      rw [hlen] at hk
      simp [hgdef, slot, hk, show k < h.length by omega]
    rw [h1, slot_set _ _ _ _ hi, if_neg (Ne.symm hki)]
  have hrest : ∀ j, 0 < j → j < g.length → j ≠ i → (j - 1) / 2 ≠ i → less (slot g j) (slot g ((j - 1) / 2)) = false :=
    fun j h0 hl h1 h2 => by
      rw [hs j hl h1, hs _ (by omega) h2]
      exact ho' j h0 (by omega)
  have hgrand : ∀ j, 0 < j → j < g.length → (j - 1) / 2 = i → 0 < i → less (slot g j) (slot g ((i - 1) / 2)) = false :=
    fun j h0 hl h1 h2 => by
      rw [hs j hl (by omega), hs _ (by omega) (by omega)]
      exact hg j h0 (by omega) h1 h2
  split
  · rename_i hig
    by_cases hup : 0 < i ∧ less (slot g i) (slot g ((i - 1) / 2)) = true
    · have hu : UpOk g i := fun j h0 hl => by
        refine ⟨fun hji => ?_, hgrand j h0 hl⟩
        by_cases hpj : (j - 1) / 2 = i
        · rw [hpj]
          exact not_less_trans _ _ _ (less_asymm _ _ hup.2) (hgrand j h0 hl hpj hup.1)
        · exact hrest j h0 hl hji hpj
      have hmoved : (siftUp i g i).2 ≠ i := by
        obtain ⟨n, rfl⟩ : ∃ n, i = n + 1 := ⟨i - 1, by omega⟩
        unfold siftUp
        rw [if_neg (by omega), if_pos hup.2]
        have := siftUp_snd_le n (swapSlots g (n + 1) ((n + 1 - 1) / 2)) ((n + 1 - 1) / 2)
        omega
      rw [if_neg hmoved]
      exact siftUp_ordered _ _ _ hig (Nat.le_refl _) hu
    · have hstay : siftUp i g i = (g, i) := by
        cases i with
        | zero => rfl
        | succ n =>
          unfold siftUp
          rw [if_neg (by omega), if_neg fun hc => hup ⟨by omega, hc⟩]
      rw [hstay]
      dsimp only
      rw [if_pos rfl]
      refine siftDown_ordered _ _ _ hig (by omega) fun j h0 hl => ⟨fun hpj => ?_, hgrand j h0 hl⟩
      by_cases hji : j = i
      · subst hji
        simpa [h0] using hup
      · exact hrest j h0 hl hji hpj
  · rename_i hig
    exact (heapOrdered_iff g).2 fun j h0 hl => hrest j h0 hl (by omega) (by omega)

end Sys2Proof.Machine
end

