-- ==== Sys2Proof/Laws/Memory.lean ====
section
/-! SUPPORT. The laws of the backing store: reading back what was written, leaving every other byte alone, and the
canonical form that every operation keeps (spec/20_memory.md R73, R85). -/

namespace Sys2Proof.Machine

@[simp] theorem Memory.read_nil (x : Nat) : Memory.read [] x = unlistedByte := rfl

@[simp] theorem Memory.wf_nil : Memory.wf [] = true := rfl

/-- The store after reset has the canonical form. -/
theorem State.reset_back_wf : Memory.wf State.reset.back = true := rfl

/-- The canonical form of a listed memory, as propositions. -/
theorem Memory.wf_cons_iff (c : Host.Cell) (m : Memory) :
    Memory.wf (c :: m) = true ↔ c.2 ≠ unlistedByte ∧ (∀ x ∈ m, c.1 < x.1) ∧ Memory.wf m = true := by
  obtain ⟨a, v⟩ := c
  simp [Memory.wf, and_assoc]

/-- An address below every listed one reads as an unlisted byte. -/
theorem Memory.read_of_below (m : Memory) (x : Nat) (h : ∀ c ∈ m, x < c.1) : Memory.read m x = unlistedByte := by
  induction m with
  | nil => rfl
  | cons c m ih =>
    have hc := h c (by simp)
    rw [Memory.read, if_neg (by omega)]
    exact ih fun d hd => h d (by simp [hd])

/-- A write lists nothing below both the address written and what was listed. -/
theorem Memory.below_write (m : Memory) (y x : Nat) (v : Byte) (hx : y < x) (h : ∀ c ∈ m, y < c.1) :
    ∀ c ∈ Memory.write m x v, y < c.1 := by
  induction m with
  | nil =>
    intro c hc
    unfold Memory.write at hc
    split at hc <;> simp_all
  | cons d m ih =>
    obtain ⟨a, w⟩ := d
    have ha : y < a := h (a, w) (by simp)
    have hm : ∀ c ∈ m, y < c.1 := fun c hc => h c (by simp [hc])
    intro c hc
    unfold Memory.write at hc
    split at hc
    · split at hc
      · exact h _ hc
      · rcases List.mem_cons.1 hc with rfl | hc
        · exact hx
        · exact h _ hc
    · split at hc
      · split at hc
        · exact hm _ hc
        · rcases List.mem_cons.1 hc with rfl | hc
          · exact hx
          · exact hm _ hc
      · rcases List.mem_cons.1 hc with rfl | hc
        · exact ha
        · exact ih hm _ hc

/-- Every write keeps the canonical form. -/
theorem Memory.wf_write (m : Memory) (x : Nat) (v : Byte) (h : Memory.wf m = true) :
    Memory.wf (Memory.write m x v) = true := by
  induction m with
  | nil =>
    unfold Memory.write
    split <;> simp_all [Memory.wf]
  | cons d m ih =>
    obtain ⟨a, w⟩ := d
    obtain ⟨hw, hlt, hm⟩ := (Memory.wf_cons_iff _ _).1 h
    unfold Memory.write
    split
    · rename_i hxa
      split
      · exact h
      · rename_i hv
        refine (Memory.wf_cons_iff _ _).2 ⟨hv, ?_, h⟩
        intro c hc
        rcases List.mem_cons.1 hc with rfl | hc
        · exact hxa
        · exact Nat.lt_trans hxa (hlt c hc)
    · rename_i hxa
      split
      · rename_i hEq
        subst hEq
        split
        · exact hm
        · rename_i hv
          exact (Memory.wf_cons_iff _ _).2 ⟨hv, hlt, hm⟩
      · rename_i hne
        exact (Memory.wf_cons_iff _ _).2 ⟨hw, Memory.below_write m a x v (by simp at hlt ⊢; omega) hlt, ih hm⟩

/-- Reading the byte that was just written. -/
theorem Memory.read_write_same (m : Memory) (x : Nat) (v : Byte) (h : Memory.wf m = true) :
    Memory.read (Memory.write m x v) x = v := by
  induction m with
  | nil =>
    unfold Memory.write
    split <;> simp_all [Memory.read]
  | cons d m ih =>
    obtain ⟨a, w⟩ := d
    obtain ⟨-, hlt, hm⟩ := (Memory.wf_cons_iff _ _).1 h
    unfold Memory.write
    split
    · rename_i hxa
      split
      · rename_i hv
        rw [Memory.read, if_neg (by omega), hv]
        exact Memory.read_of_below m x fun c hc => Nat.lt_trans hxa (hlt c hc)
      · simp [Memory.read]
    · split
      · rename_i hEq
        subst hEq
        split
        · rename_i hv
          rw [hv]
          exact Memory.read_of_below m x hlt
        · simp [Memory.read]
      · rename_i hne
        rw [Memory.read, if_neg hne]
        exact ih hm

/-- A write leaves every other byte alone. -/
theorem Memory.read_write_other (m : Memory) (x y : Nat) (v : Byte) (hxy : y ≠ x) :
    Memory.read (Memory.write m x v) y = Memory.read m y := by
  induction m with
  | nil =>
    unfold Memory.write
    split <;> simp [Memory.read, hxy]
  | cons d m ih =>
    obtain ⟨a, w⟩ := d
    unfold Memory.write
    split
    · split
      · rfl
      · simp [Memory.read, hxy]
    · split
      · rename_i hEq
        subst hEq
        split <;> simp [Memory.read, hxy]
      · by_cases hya : y = a <;> simp [Memory.read, hya, ih]

/-- The n bytes of a word are a number of 8n bits. -/
theorem Memory.readLE_lt (m : Memory) (a n : Nat) : Memory.readLE m a n < 2 ^ (8 * n) := by
  induction n generalizing a with
  | zero => simp [Memory.readLE]
  | succ n ih =>
    have h1 := (Memory.read m a).isLt
    have h2 := ih (a + 1)
    rw [Memory.readLE, show 8 * (n + 1) = 8 * n + 8 from by ring, pow_add]
    omega

/-- The j-th byte of a word is the j-th byte from its address up. -/
theorem Memory.readLE_byte (m : Memory) (a n j : Nat) (h : j < n) :
    Memory.readLE m a n / 2 ^ (8 * j) % 256 = (Memory.read m (a + j)).toNat := by
  induction n generalizing a j with
  | zero => omega
  | succ n ih =>
    have hb := (Memory.read m a).isLt
    cases j with
    | zero => simp only [Memory.readLE, Nat.mul_zero, pow_zero, Nat.div_one, Nat.add_zero]; omega
    | succ j =>
      rw [Memory.readLE, show 8 * (j + 1) = 8 + 8 * j from by ring, pow_add, ← Nat.div_div_eq_div_mul,
        show ((Memory.read m a).toNat + 256 * Memory.readLE m (a + 1) n) / 2 ^ 8 = Memory.readLE m (a + 1) n from by
          omega, ih (a + 1) j (by omega), show a + 1 + j = a + (j + 1) from by omega]

/-- Stores that read alike at every byte give the same words. -/
theorem memRead_congr (c : Cfg) (m m' : Memory) (h : ∀ x, Memory.read m x = Memory.read m' x) (a : W64) :
    memRead c m a = memRead c m' a := by
  have key : ∀ n x, Memory.readLE m x n = Memory.readLE m' x n := by
    intro n
    induction n with
    | zero => intro x; rfl
    | succ n ih => intro x; simp [Memory.readLE, h x, ih]
  simp [memRead, key]

end Sys2Proof.Machine
end

