-- ==== Sys2Proof/Laws/State.lean ====
section
/-! SUPPORT. One lemma per field per update of the state and of the block's elements, so that no proof unfolds an
update. -/

namespace Sys2Proof.Machine

/-! ### State.answer -/

@[simp] theorem State.answer_cfg (s : State) (b : Block) (r : Response) : (s.answer b r).cfg = s.cfg := rfl
@[simp] theorem State.answer_blk (s : State) (b : Block) (r : Response) : (s.answer b r).blk = b := rfl
@[simp] theorem State.answer_back (s : State) (b : Block) (r : Response) : (s.answer b r).back = s.back := rfl
@[simp] theorem State.answer_inbox (s : State) (b : Block) (r : Response) : (s.answer b r).inbox = s.inbox := rfl
@[simp] theorem State.answer_out (s : State) (b : Block) (r : Response) :
    (s.answer b r).out = some (.response r) := rfl
@[simp] theorem State.answer_drawn (s : State) (b : Block) (r : Response) : (s.answer b r).drawn = s.drawn := rfl

/-! ### State.takeFault -/

@[simp] theorem State.takeFault_cfg (s : State) (f : Cause) : (s.takeFault f).cfg = s.cfg := rfl
@[simp] theorem State.takeFault_blk (s : State) (f : Cause) : (s.takeFault f).blk = s.blk.raised f := rfl
@[simp] theorem State.takeFault_back (s : State) (f : Cause) : (s.takeFault f).back = s.back := rfl
@[simp] theorem State.takeFault_inbox (s : State) (f : Cause) : (s.takeFault f).inbox = s.inbox := rfl
@[simp] theorem State.takeFault_out (s : State) (f : Cause) :
    (s.takeFault f).out = some (.response (.faultWith f.code)) := rfl
@[simp] theorem State.takeFault_drawn (s : State) (f : Cause) : (s.takeFault f).drawn = s.drawn := rfl

/-! ### State.stillFaulted -/

@[simp] theorem State.stillFaulted_cfg (s : State) : s.stillFaulted.cfg = s.cfg := rfl
@[simp] theorem State.stillFaulted_blk (s : State) : s.stillFaulted.blk = s.blk := rfl
@[simp] theorem State.stillFaulted_back (s : State) : s.stillFaulted.back = s.back := rfl
@[simp] theorem State.stillFaulted_inbox (s : State) : s.stillFaulted.inbox = s.inbox := rfl
@[simp] theorem State.stillFaulted_out (s : State) :
    s.stillFaulted.out = some (.response (.faultedWith s.blk.cause)) := rfl
@[simp] theorem State.stillFaulted_drawn (s : State) : s.stillFaulted.drawn = s.drawn := rfl

/-! ### State.silent -/

@[simp] theorem State.silent_cfg (s : State) : s.silent.cfg = s.cfg := rfl
@[simp] theorem State.silent_blk (s : State) : s.silent.blk = s.blk := rfl
@[simp] theorem State.silent_back (s : State) : s.silent.back = s.back := rfl
@[simp] theorem State.silent_inbox (s : State) : s.silent.inbox = s.inbox := rfl
@[simp] theorem State.silent_out (s : State) : s.silent.out = none := rfl
@[simp] theorem State.silent_drawn (s : State) : s.silent.drawn = s.drawn := rfl

/-! ### State.arrives and State.withFetchWord -/

@[simp] theorem State.arrives_cfg (s : State) (f : Frame) : (s.arrives f).cfg = s.cfg := rfl
@[simp] theorem State.arrives_blk (s : State) (f : Frame) : (s.arrives f).blk = s.blk := rfl
@[simp] theorem State.arrives_back (s : State) (f : Frame) : (s.arrives f).back = s.back := rfl
@[simp] theorem State.arrives_inbox (s : State) (f : Frame) : (s.arrives f).inbox = .frame f :: s.inbox := rfl
@[simp] theorem State.arrives_out (s : State) (f : Frame) : (s.arrives f).out = s.out := rfl
@[simp] theorem State.arrives_drawn (s : State) (f : Frame) : (s.arrives f).drawn = s.drawn := rfl

@[simp] theorem State.withFetchWord_cfg (s : State) (nbits w : Nat) : (s.withFetchWord nbits w).cfg = s.cfg := rfl
@[simp] theorem State.withFetchWord_blk (s : State) (nbits w : Nat) : (s.withFetchWord nbits w).blk = s.blk := rfl
@[simp] theorem State.withFetchWord_back (s : State) (nbits w : Nat) : (s.withFetchWord nbits w).back = s.back := rfl
@[simp] theorem State.withFetchWord_inbox (s : State) (nbits w : Nat) :
    (s.withFetchWord nbits w).inbox = .frame (tableFrame nbits w) :: s.inbox := rfl
@[simp] theorem State.withFetchWord_out (s : State) (nbits w : Nat) : (s.withFetchWord nbits w).out = s.out := rfl
@[simp] theorem State.withFetchWord_drawn (s : State) (nbits w : Nat) :
    (s.withFetchWord nbits w).drawn = s.drawn := rfl

/-! ### hostSnapshot -/

@[simp] theorem hostSnapshot_cfg (s : State) : (hostSnapshot s).cfg = s.cfg := rfl
@[simp] theorem hostSnapshot_blk (s : State) : (hostSnapshot s).blk = s.blk := rfl
@[simp] theorem hostSnapshot_back (s : State) : (hostSnapshot s).back = s.back := rfl
@[simp] theorem hostSnapshot_inbox (s : State) : (hostSnapshot s).inbox = s.inbox := rfl
@[simp] theorem hostSnapshot_out (s : State) : (hostSnapshot s).out = some (.image s.blk) := rfl
@[simp] theorem hostSnapshot_drawn (s : State) : (hostSnapshot s).drawn = s.drawn := rfl

/-! ### Block.raised -/

@[simp] theorem Block.raised_heap (b : Block) (f : Cause) : (b.raised f).heap = b.heap := rfl
@[simp] theorem Block.raised_present (b : Block) (f : Cause) : (b.raised f).present = b.present := rfl
@[simp] theorem Block.raised_acc (b : Block) (f : Cause) : (b.raised f).acc = b.acc := rfl
@[simp] theorem Block.raised_stall (b : Block) (f : Cause) : (b.raised f).stall = b.stall := rfl
@[simp] theorem Block.raised_toggle (b : Block) (f : Cause) : (b.raised f).toggle = b.toggle := rfl
@[simp] theorem Block.raised_refcnt (b : Block) (f : Cause) : (b.raised f).refcnt = b.refcnt := rfl
@[simp] theorem Block.raised_bw (b : Block) (f : Cause) : (b.raised f).bw = b.bw := rfl
@[simp] theorem Block.raised_pfEn (b : Block) (f : Cause) : (b.raised f).pfEn = b.pfEn := rfl
@[simp] theorem Block.raised_pfQ (b : Block) (f : Cause) : (b.raised f).pfQ = b.pfQ := rfl
@[simp] theorem Block.raised_raddr (b : Block) (f : Cause) : (b.raised f).raddr = b.raddr := rfl
@[simp] theorem Block.raised_waddr (b : Block) (f : Cause) : (b.raised f).waddr = b.waddr := rfl
@[simp] theorem Block.raised_active (b : Block) (f : Cause) : (b.raised f).active = b.active := rfl
@[simp] theorem Block.raised_rem (b : Block) (f : Cause) : (b.raised f).rem = b.rem := rfl
@[simp] theorem Block.raised_enable (b : Block) (f : Cause) : (b.raised f).enable = b.enable := rfl
@[simp] theorem Block.raised_flag (b : Block) (f : Cause) : (b.raised f).flag = b.flag := rfl
@[simp] theorem Block.raised_seq (b : Block) (f : Cause) : (b.raised f).seq = b.seq := rfl
@[simp] theorem Block.raised_fault (b : Block) (f : Cause) : (b.raised f).fault = true := rfl
@[simp] theorem Block.raised_cause (b : Block) (f : Cause) : (b.raised f).cause = f.code := rfl

/-! ### Block.fetching -/

@[simp] theorem Block.fetching_heap (b : Block) (n : Nat) : (b.fetching n).heap = b.heap := rfl
@[simp] theorem Block.fetching_present (b : Block) (n : Nat) : (b.fetching n).present = b.present := rfl
@[simp] theorem Block.fetching_acc (b : Block) (n : Nat) : (b.fetching n).acc = b.acc := rfl
@[simp] theorem Block.fetching_stall (b : Block) (n : Nat) : (b.fetching n).stall = b.stall := rfl
@[simp] theorem Block.fetching_toggle (b : Block) (n : Nat) : (b.fetching n).toggle = b.toggle := rfl
@[simp] theorem Block.fetching_refcnt (b : Block) (n : Nat) : (b.fetching n).refcnt = b.refcnt := rfl
@[simp] theorem Block.fetching_bw (b : Block) (n : Nat) : (b.fetching n).bw = b.bw := rfl
@[simp] theorem Block.fetching_pfEn (b : Block) (n : Nat) : (b.fetching n).pfEn = b.pfEn := rfl
@[simp] theorem Block.fetching_pfQ (b : Block) (n : Nat) : (b.fetching n).pfQ = b.pfQ := rfl
@[simp] theorem Block.fetching_raddr (b : Block) (n : Nat) : (b.fetching n).raddr = b.raddr := rfl
@[simp] theorem Block.fetching_waddr (b : Block) (n : Nat) : (b.fetching n).waddr = b.waddr := rfl
@[simp] theorem Block.fetching_active (b : Block) (n : Nat) : (b.fetching n).active = true := rfl
@[simp] theorem Block.fetching_rem (b : Block) (n : Nat) : (b.fetching n).rem = toW64 n := rfl
@[simp] theorem Block.fetching_enable (b : Block) (n : Nat) : (b.fetching n).enable = b.enable := rfl
@[simp] theorem Block.fetching_flag (b : Block) (n : Nat) : (b.fetching n).flag = b.flag := rfl
@[simp] theorem Block.fetching_seq (b : Block) (n : Nat) : (b.fetching n).seq = b.seq := rfl
@[simp] theorem Block.fetching_fault (b : Block) (n : Nat) : (b.fetching n).fault = b.fault := rfl
@[simp] theorem Block.fetching_cause (b : Block) (n : Nat) : (b.fetching n).cause = b.cause := rfl

/-! ### Block.idle -/

@[simp] theorem Block.idle_heap (b : Block) : b.idle.heap = b.heap := rfl
@[simp] theorem Block.idle_present (b : Block) : b.idle.present = b.present := rfl
@[simp] theorem Block.idle_acc (b : Block) : b.idle.acc = b.acc := rfl
@[simp] theorem Block.idle_stall (b : Block) : b.idle.stall = b.stall := rfl
@[simp] theorem Block.idle_toggle (b : Block) : b.idle.toggle = b.toggle := rfl
@[simp] theorem Block.idle_refcnt (b : Block) : b.idle.refcnt = b.refcnt := rfl
@[simp] theorem Block.idle_bw (b : Block) : b.idle.bw = b.bw := rfl
@[simp] theorem Block.idle_pfEn (b : Block) : b.idle.pfEn = b.pfEn := rfl
@[simp] theorem Block.idle_pfQ (b : Block) : b.idle.pfQ = b.pfQ := rfl
@[simp] theorem Block.idle_raddr (b : Block) : b.idle.raddr = b.raddr := rfl
@[simp] theorem Block.idle_waddr (b : Block) : b.idle.waddr = b.waddr := rfl
@[simp] theorem Block.idle_active (b : Block) : b.idle.active = false := rfl
@[simp] theorem Block.idle_rem (b : Block) : b.idle.rem = 0#64 := rfl
@[simp] theorem Block.idle_enable (b : Block) : b.idle.enable = b.enable := rfl
@[simp] theorem Block.idle_flag (b : Block) : b.idle.flag = b.flag := rfl
@[simp] theorem Block.idle_seq (b : Block) : b.idle.seq = b.seq := rfl
@[simp] theorem Block.idle_fault (b : Block) : b.idle.fault = b.fault := rfl
@[simp] theorem Block.idle_cause (b : Block) : b.idle.cause = b.cause := rfl

/-! ### Block.restartAt -/

@[simp] theorem Block.restartAt_heap (b : Block) (a : W64) : (b.restartAt a).heap = b.heap := rfl
@[simp] theorem Block.restartAt_present (b : Block) (a : W64) : (b.restartAt a).present = b.present := rfl
@[simp] theorem Block.restartAt_acc (b : Block) (a : W64) : (b.restartAt a).acc = b.acc := rfl
@[simp] theorem Block.restartAt_stall (b : Block) (a : W64) : (b.restartAt a).stall = b.stall := rfl
@[simp] theorem Block.restartAt_toggle (b : Block) (a : W64) : (b.restartAt a).toggle = b.toggle := rfl
@[simp] theorem Block.restartAt_refcnt (b : Block) (a : W64) : (b.restartAt a).refcnt = b.refcnt := rfl
@[simp] theorem Block.restartAt_bw (b : Block) (a : W64) : (b.restartAt a).bw = b.bw := rfl
@[simp] theorem Block.restartAt_pfEn (b : Block) (a : W64) : (b.restartAt a).pfEn = b.pfEn := rfl
@[simp] theorem Block.restartAt_pfQ (b : Block) (a : W64) : (b.restartAt a).pfQ = [] := rfl
@[simp] theorem Block.restartAt_raddr (b : Block) (a : W64) : (b.restartAt a).raddr = a := rfl
@[simp] theorem Block.restartAt_waddr (b : Block) (a : W64) : (b.restartAt a).waddr = a := rfl
@[simp] theorem Block.restartAt_active (b : Block) (a : W64) : (b.restartAt a).active = false := rfl
@[simp] theorem Block.restartAt_rem (b : Block) (a : W64) : (b.restartAt a).rem = 0#64 := rfl
@[simp] theorem Block.restartAt_enable (b : Block) (a : W64) : (b.restartAt a).enable = b.enable := rfl
@[simp] theorem Block.restartAt_flag (b : Block) (a : W64) : (b.restartAt a).flag = b.flag := rfl
@[simp] theorem Block.restartAt_seq (b : Block) (a : W64) : (b.restartAt a).seq = b.seq := rfl
@[simp] theorem Block.restartAt_fault (b : Block) (a : W64) : (b.restartAt a).fault = b.fault := rfl
@[simp] theorem Block.restartAt_cause (b : Block) (a : W64) : (b.restartAt a).cause = b.cause := rfl

/-! ### Block.reset and State.reset -/

@[simp] theorem Block.reset_heap (c : Cfg) : (Block.reset c).heap = [sentinel c] := rfl
@[simp] theorem Block.reset_present (c : Cfg) : (Block.reset c).present = 0#8 := rfl
@[simp] theorem Block.reset_acc (c : Cfg) : (Block.reset c).acc = List.replicate c.nd 0#64 := rfl
@[simp] theorem Block.reset_stall (c : Cfg) : (Block.reset c).stall = List.replicate c.nd 0#64 := rfl
@[simp] theorem Block.reset_toggle (c : Cfg) : (Block.reset c).toggle = false := rfl
@[simp] theorem Block.reset_refcnt (c : Cfg) : (Block.reset c).refcnt = 0#64 := rfl
@[simp] theorem Block.reset_bw (c : Cfg) : (Block.reset c).bw = c.regions.map fun r => r.bwReset == 1 := rfl
@[simp] theorem Block.reset_pfEn (c : Cfg) : (Block.reset c).pfEn = (c.pfEnReset == 1) := rfl
@[simp] theorem Block.reset_pfQ (c : Cfg) : (Block.reset c).pfQ = [] := rfl
@[simp] theorem Block.reset_raddr (c : Cfg) : (Block.reset c).raddr = 0#64 := rfl
@[simp] theorem Block.reset_waddr (c : Cfg) : (Block.reset c).waddr = 0#64 := rfl
@[simp] theorem Block.reset_active (c : Cfg) : (Block.reset c).active = false := rfl
@[simp] theorem Block.reset_rem (c : Cfg) : (Block.reset c).rem = 0#64 := rfl
@[simp] theorem Block.reset_enable (c : Cfg) : (Block.reset c).enable = 0#64 := rfl
@[simp] theorem Block.reset_flag (c : Cfg) : (Block.reset c).flag = 0#64 := rfl
@[simp] theorem Block.reset_seq (c : Cfg) : (Block.reset c).seq = List.replicate c.nx [] := rfl
@[simp] theorem Block.reset_fault (c : Cfg) : (Block.reset c).fault = false := rfl
@[simp] theorem Block.reset_cause (c : Cfg) : (Block.reset c).cause = 0#8 := rfl

@[simp] theorem State.reset_cfg : State.reset.cfg = cfgRef := rfl
@[simp] theorem State.reset_blk : State.reset.blk = Block.reset cfgRef := rfl
@[simp] theorem State.reset_back : State.reset.back = [] := rfl
@[simp] theorem State.reset_inbox : State.reset.inbox = [] := rfl
@[simp] theorem State.reset_out : State.reset.out = none := rfl
@[simp] theorem State.reset_drawn : State.reset.drawn = 0 := rfl

/-! ### Responses -/

@[simp] theorem Response.okWith_status (k : BitVec 8) (r0 : W64) : (Response.okWith k r0).status = .ok := rfl
@[simp] theorem Response.okWith_k (k : BitVec 8) (r0 : W64) : (Response.okWith k r0).k = k := rfl
@[simp] theorem Response.okWith_r0 (k : BitVec 8) (r0 : W64) : (Response.okWith k r0).r0 = r0 := rfl
@[simp] theorem Response.okWith_r1 (k : BitVec 8) (r0 : W64) : (Response.okWith k r0).r1 = 0#64 := rfl
@[simp] theorem Response.okWith_ticks (k : BitVec 8) (r0 : W64) : (Response.okWith k r0).ticks = [] := rfl

@[simp] theorem Response.okay_status : Response.okay.status = .ok := rfl
@[simp] theorem Response.okay_k : Response.okay.k = 0#8 := rfl
@[simp] theorem Response.okay_r0 : Response.okay.r0 = 0#64 := rfl
@[simp] theorem Response.okay_r1 : Response.okay.r1 = 0#64 := rfl
@[simp] theorem Response.okay_ticks : Response.okay.ticks = [] := rfl

@[simp] theorem Response.nothing_status : Response.nothing.status = .none := rfl
@[simp] theorem Response.nothing_k : Response.nothing.k = 0#8 := rfl
@[simp] theorem Response.nothing_r0 : Response.nothing.r0 = 0#64 := rfl
@[simp] theorem Response.nothing_r1 : Response.nothing.r1 = 0#64 := rfl
@[simp] theorem Response.nothing_ticks : Response.nothing.ticks = [] := rfl

@[simp] theorem Response.faultWith_status (code : BitVec 8) : (Response.faultWith code).status = .fault := rfl
@[simp] theorem Response.faultWith_k (code : BitVec 8) : (Response.faultWith code).k = code := rfl
@[simp] theorem Response.faultWith_r0 (code : BitVec 8) : (Response.faultWith code).r0 = 0#64 := rfl
@[simp] theorem Response.faultWith_r1 (code : BitVec 8) : (Response.faultWith code).r1 = 0#64 := rfl
@[simp] theorem Response.faultWith_ticks (code : BitVec 8) : (Response.faultWith code).ticks = [] := rfl

@[simp] theorem Response.faultedWith_status (code : BitVec 8) : (Response.faultedWith code).status = .faulted := rfl
@[simp] theorem Response.faultedWith_k (code : BitVec 8) : (Response.faultedWith code).k = code := rfl
@[simp] theorem Response.faultedWith_r0 (code : BitVec 8) : (Response.faultedWith code).r0 = 0#64 := rfl
@[simp] theorem Response.faultedWith_r1 (code : BitVec 8) : (Response.faultedWith code).r1 = 0#64 := rfl
@[simp] theorem Response.faultedWith_ticks (code : BitVec 8) : (Response.faultedWith code).ticks = [] := rfl

end Sys2Proof.Machine
end

