-- ==== Sys2Proof/Laws/Ops.lean ====
section
/-! SUPPORT. What each shared operation can do, said once: serving a command, the host's actions, the platform's
write, and a step by what has arrived (spec/60_exceptions.md R280 to R284, R300 to R303). -/

namespace Sys2Proof.Machine

/-! ### Serving a command -/

/-- In FAULTED every command answers FAULTED and changes nothing else (R283). -/
theorem serve_of_faulted (s : State) (e : Effect) (h : s.blk.fault = true) : serve s e = .next s.stillFaulted := by
  simp [serve, h]

/-- RUN on well-typed elements, taken apart. -/
theorem running_iff (s : State) :
    (!s.blk.fault && s.shaped) = true ↔ s.blk.fault = false ∧ s.cfg.valid = true ∧ s.blk.fits s.cfg = true := by
  cases s.blk.fault <;> simp [State.shaped]

/-- In RUN a command has its effect. -/
theorem serve_ok (s : State) (b : Block) (r : Response) (hf : s.blk.fault = false) (hs : s.shaped = true) :
    serve s (.ok (b, r)) = .next (s.answer b r) := by
  simp [serve, hf, hs]

/-- In RUN a command whose rule raises a fault takes it (R282). -/
theorem serve_error (s : State) (f : Cause) (hf : s.blk.fault = false) (hs : s.shaped = true) :
    serve s (.error f) = .next (s.takeFault f) := by
  simp [serve, hf, hs]

/-- Everything that serving a command can lead to. -/
theorem serve_next (s t : State) (e : Effect) (h : serve s e = .next t) :
    (s.blk.fault = true ∧ t = s.stillFaulted) ∨
    (s.blk.fault = false ∧ s.shaped = true ∧ ∃ b r, e = .ok (b, r) ∧ t = s.answer b r) ∨
    (s.blk.fault = false ∧ s.shaped = true ∧ ∃ f, e = .error f ∧ t = s.takeFault f) := by
  unfold serve at h
  split at h
  · exact .inl ⟨by assumption, by injection h with h; exact h.symm⟩
  · rename_i hf
    split at h
    · rename_i hs
      split at h
      · rename_i b r
        exact .inr (.inl ⟨by simpa using hf, hs, b, r, rfl, by injection h with h; exact h.symm⟩)
      · rename_i f
        exact .inr (.inr ⟨by simpa using hf, hs, f, rfl, by injection h with h; exact h.symm⟩)
    · exact absurd h (by simp)

/-- Serving a command changes the block's elements and what is handed out, and nothing else. -/
theorem serve_frame (s t : State) (e : Effect) (h : serve s e = .next t) :
    t.cfg = s.cfg ∧ t.back = s.back ∧ t.inbox = s.inbox ∧ t.drawn = s.drawn := by
  rcases serve_next s t e h with ⟨-, rfl⟩ | ⟨-, -, b, r, -, rfl⟩ | ⟨-, -, f, -, rfl⟩ <;> simp

/-- A command is never refused, and stops only on elements that are no value of the block's type (assumption 3). -/
theorem serve_stops (s : State) (e : Effect) :
    (∃ t, serve s e = .next t) ∨ (serve s e = .fault .malformed ∧ s.blk.fault = false ∧ s.shaped = false) := by
  unfold serve
  split
  · exact .inl ⟨_, rfl⟩
  · rename_i hf
    split
    · split <;> exact .inl ⟨_, rfl⟩
    · rename_i hs
      exact .inr ⟨rfl, by simpa using hf, by simpa using hs⟩

/-- An illegal frame always has a next state. -/
theorem serveIllegal_next (s t : State) (h : serveIllegal s = .next t) :
    (s.blk.fault = true ∧ t = s.stillFaulted) ∨ (s.blk.fault = false ∧ t = s.takeFault .illegalCmd) := by
  unfold serveIllegal at h
  split at h <;> injection h with h
  · exact .inl ⟨by assumption, h.symm⟩
  · rename_i hf
    exact .inr ⟨by simpa using hf, h.symm⟩

/-! ### Host actions -/

/-- RESET with a valid CFG. -/
theorem hostReset_of_valid (c : Cfg) (s : State) (hz : c.hasZeroDiv = false) (hv : c.valid = true) :
    hostReset c s = { s.silent with cfg := c, blk := Block.reset c } := by
  simp [hostReset, hz, hv]

/-- A valid CFG has no zero divider, so RESET's first check never hides its second. -/
theorem Cfg.no_zero_div_of_valid (c : Cfg) (h : c.valid = true) : c.hasZeroDiv = false := by
  simp only [Cfg.valid, Cfg.clockOk, Bool.and_eq_true, List.all_eq_true] at h
  simp only [Cfg.hasZeroDiv, List.any_eq_false, beq_iff_eq]
  intro d hd
  have := h.1.1.1.1.1.1.1.1.1.1.2 d hd
  simp at this
  omega

/-- RESET with an invalid CFG: the cause, and the free elements under it (R320). -/
theorem hostReset_of_invalid (c : Cfg) (s : State) (hv : c.valid = false) :
    hostReset c s = { s.silent with
      cfg := c
      blk := Block.afterBadReset s.drawn (if c.hasZeroDiv then .divZero else .cfgInvalid)
      drawn := s.drawn + 1 } := by
  cases hz : c.hasZeroDiv <;> simp [hostReset, hz, hv]

/-- RESTORE of a legal image under a valid CFG. -/
theorem hostRestore_of_legal (im : Block) (s : State) (hv : s.cfg.valid = true) (hl : im.legal s.cfg = true) :
    hostRestore im s = { s.silent with blk := im } := by
  simp [hostRestore, hv, hl]

/-- RESTORE of any other image (R302). -/
theorem hostRestore_of_bad (im : Block) (s : State) (h : (s.cfg.valid && im.legal s.cfg) = false) :
    hostRestore im s =
      if s.blk.fault then s.silent else { s.silent with blk := s.blk.raised .restoreInvalid } := by
  simp [hostRestore, h]

/-! ### A step -/

/-- Nothing has arrived: nothing happens (assumption 1). -/
theorem step_idle (s : State) (h : s.inbox = []) : step s = .next s := by
  simp [step, State.take, h]

/-- A frame has arrived. -/
theorem step_frame (s : State) (f : Frame) (rest : List Input) (h : s.inbox = .frame f :: rest) :
    step s = performFrame f { s with inbox := rest } := by
  simp [step, State.take, h]

/-- A RESET has arrived. -/
theorem step_reset (s : State) (c : Cfg) (rest : List Input) (h : s.inbox = .reset c :: rest) :
    step s = .next (hostReset c { s with inbox := rest }) := by
  simp [step, State.take, h]

/-- A SNAPSHOT has arrived. -/
theorem step_snapshot (s : State) (rest : List Input) (h : s.inbox = .snapshot :: rest) :
    step s = .next (hostSnapshot { s with inbox := rest }) := by
  simp [step, State.take, h]

/-- A RESTORE has arrived. -/
theorem step_restore (s : State) (im : Block) (rest : List Input) (h : s.inbox = .restore im :: rest) :
    step s = .next (hostRestore im { s with inbox := rest }) := by
  simp [step, State.take, h]

/-- The platform changes a byte of the store. -/
theorem step_backWrite (s : State) (a : Nat) (v : Byte) (rest : List Input) (h : s.inbox = .backWrite a v :: rest) :
    step s = platformWrite a v { s with inbox := rest } := by
  simp [step, State.take, h]

/-- A frame is performed as the command it decodes to, or is illegal. -/
theorem performFrame_cases (f : Frame) (s : State) :
    (∃ i, decode f = .ok i ∧ performFrame f s = exec i s) ∨
    (∃ e, decode f = .error e ∧ performFrame f s = serveIllegal s) := by
  unfold performFrame
  cases h : decode f with
  | ok i => exact .inl ⟨i, rfl, rfl⟩
  | error e => exact .inr ⟨e, rfl, rfl⟩

end Sys2Proof.Machine
end

