-- ==== Sys2Proof/Laws/PerInstr.lean ====
section
/-! SUPPORT. The family stated for every command: its encoding matches its own row of opcode_table.json
(spec/30_encoding.md R103). -/

namespace Sys2Proof.Laws.RowOfTable

/-- The encoding of the command, every must-be-zero bit included, matches the row of its mnemonic. -/
def Statement (i : Instr) : Prop := ∃ row ∈ opcodeTable, row.mnemonic = i.mnemonic ∧ row.hits (encode i) = true

/-- A frame is masked field by field. -/
theorem mk_and (op op' : BitVec 8) (idx idx' : Idx) (a a' b b' : W64) :
    Frame.mk op idx a b &&& Frame.mk op' idx' a' b' = Frame.mk (op &&& op') (idx &&& idx') (a &&& a') (b &&& b') := by
  have h1 : (op ++ idx) &&& (op' ++ idx') = (op &&& op') ++ (idx &&& idx') := BitVec.and_append
  have h2 : (op ++ idx ++ a) &&& (op' ++ idx' ++ a') =
      ((op ++ idx) &&& (op' ++ idx')) ++ (a &&& a') := BitVec.and_append
  have h3 : (op ++ idx ++ a ++ b) &&& (op' ++ idx' ++ a' ++ b') =
      ((op ++ idx ++ a) &&& (op' ++ idx' ++ a')) ++ (b &&& b') := BitVec.and_append
  exact h3.trans (by rw [h2, h1]; rfl)

/-- A row is hit when each field of the encoding agrees with the row's match under the row's mask. -/
theorem of_fields {i : Instr} (row : TableRow) (hmem : row ∈ opcodeTable) (hname : row.mnemonic = i.mnemonic)
    {op : BitVec 8} {idx : Idx} {a b : W64} (hi : encode i = Frame.mk op idx a b)
    {cop : BitVec 8} {cidx : Idx} {ca cb : W64} (hcare : row.care = Frame.mk cop cidx ca cb)
    {mop : BitVec 8} {midx : Idx} {ma mb : W64} (hfixed : row.fixed = Frame.mk mop midx ma mb)
    (h : op &&& cop = mop ∧ idx &&& cidx = midx ∧ a &&& ca = ma ∧ b &&& cb = mb) : Statement i := by
  refine ⟨row, hmem, hname, ?_⟩
  rw [TableRow.hits, hi, hcare, hfixed, mk_and, h.1, h.2.1, h.2.2.1, h.2.2.2, beq_self_eq_true]

/-- The must-be-zero bits of a one-bit operand. -/
theorem bit64_and (v : Bool) : bit64 v &&& 0xFFFFFFFFFFFFFFFE#64 = 0#64 := by
  cases v <;> decide

theorem esInsert (kind : Idx) (due : W64) : Statement (.esInsert kind due) :=
  of_fields ⟨"ES_INSERT", 0x100000000000000000000000000000000000#144, 0xFF000000000000000000FFFFFFFFFFFFFFFF#144⟩
    (by simp [opcodeTable]) rfl rfl
    (show _ = Frame.mk 0xFF#8 0x00#8 0x0000000000000000#64 0xFFFFFFFFFFFFFFFF#64 by decide)
    (show _ = Frame.mk 0x10#8 0x00#8 0x0000000000000000#64 0x0000000000000000#64 by decide)
    ⟨by decide, by simp, by simp, by simp⟩

theorem esRemove (kind : Idx) : Statement (.esRemove kind) :=
  of_fields ⟨"ES_REMOVE", 0x110000000000000000000000000000000000#144, 0xFF00FFFFFFFFFFFFFFFFFFFFFFFFFFFFFFFF#144⟩
    (by simp [opcodeTable]) rfl rfl
    (show _ = Frame.mk 0xFF#8 0x00#8 0xFFFFFFFFFFFFFFFF#64 0xFFFFFFFFFFFFFFFF#64 by decide)
    (show _ = Frame.mk 0x11#8 0x00#8 0x0000000000000000#64 0x0000000000000000#64 by decide)
    ⟨by decide, by simp, by simp, by simp⟩

theorem esReady (now : W64) : Statement (.esReady now) :=
  of_fields ⟨"ES_READY", 0x120000000000000000000000000000000000#144, 0xFFFF0000000000000000FFFFFFFFFFFFFFFF#144⟩
    (by simp [opcodeTable]) rfl rfl
    (show _ = Frame.mk 0xFF#8 0xFF#8 0x0000000000000000#64 0xFFFFFFFFFFFFFFFF#64 by decide)
    (show _ = Frame.mk 0x12#8 0x00#8 0x0000000000000000#64 0x0000000000000000#64 by decide)
    ⟨by decide, by simp, by simp, by simp⟩

theorem esPop (now : W64) : Statement (.esPop now) :=
  of_fields ⟨"ES_POP", 0x130000000000000000000000000000000000#144, 0xFFFF0000000000000000FFFFFFFFFFFFFFFF#144⟩
    (by simp [opcodeTable]) rfl rfl
    (show _ = Frame.mk 0xFF#8 0xFF#8 0x0000000000000000#64 0xFFFFFFFFFFFFFFFF#64 by decide)
    (show _ = Frame.mk 0x13#8 0x00#8 0x0000000000000000#64 0x0000000000000000#64 by decide)
    ⟨by decide, by simp, by simp, by simp⟩

theorem cdAdvance (long : Bool) (mc : W64) : Statement (.cdAdvance long mc) :=
  of_fields ⟨"CD_ADVANCE", 0x200000000000000000000000000000000000#144, 0xFFFE0000000000000000FFFFFFFFFFFFFFFF#144⟩
    (by simp [opcodeTable]) rfl rfl
    (show _ = Frame.mk 0xFF#8 0xFE#8 0x0000000000000000#64 0xFFFFFFFFFFFFFFFF#64 by decide)
    (show _ = Frame.mk 0x20#8 0x00#8 0x0000000000000000#64 0x0000000000000000#64 by decide)
    ⟨by decide, by cases long <;> decide, by simp, by simp⟩

theorem cdBusgrant (d : Idx) : Statement (.cdBusgrant d) :=
  of_fields ⟨"CD_BUSGRANT", 0x210000000000000000000000000000000000#144, 0xFF00FFFFFFFFFFFFFFFFFFFFFFFFFFFFFFFF#144⟩
    (by simp [opcodeTable]) rfl rfl
    (show _ = Frame.mk 0xFF#8 0x00#8 0xFFFFFFFFFFFFFFFF#64 0xFFFFFFFFFFFFFFFF#64 by decide)
    (show _ = Frame.mk 0x21#8 0x00#8 0x0000000000000000#64 0x0000000000000000#64 by decide)
    ⟨by decide, by simp, by simp, by simp⟩

theorem btCost (w : BitVec 2) (seq : Bool) (addr : W64) : Statement (.btCost w seq addr) :=
  of_fields ⟨"BT_COST", 0x300000000000000000000000000000000000#144, 0xFFF80000000000000000FFFFFFFFFFFFFFFF#144⟩
    (by simp [opcodeTable]) rfl rfl
    (show _ = Frame.mk 0xFF#8 0xF8#8 0x0000000000000000#64 0xFFFFFFFFFFFFFFFF#64 by decide)
    (show _ = Frame.mk 0x30#8 0x00#8 0x0000000000000000#64 0x0000000000000000#64 by decide)
    ⟨by decide, by revert w seq; decide, by simp, by simp⟩

theorem btSetbw (r : Idx) (bit : Bool) : Statement (.btSetbw r bit) :=
  of_fields ⟨"BT_SETBW", 0x310000000000000000000000000000000000#144, 0xFF00FFFFFFFFFFFFFFFEFFFFFFFFFFFFFFFF#144⟩
    (by simp [opcodeTable]) rfl rfl
    (show _ = Frame.mk 0xFF#8 0x00#8 0xFFFFFFFFFFFFFFFE#64 0xFFFFFFFFFFFFFFFF#64 by decide)
    (show _ = Frame.mk 0x31#8 0x00#8 0x0000000000000000#64 0x0000000000000000#64 by decide)
    ⟨by decide, by simp, bit64_and _, by simp⟩

theorem btSetpf (en : Bool) : Statement (.btSetpf en) :=
  of_fields ⟨"BT_SETPF", 0x320000000000000000000000000000000000#144, 0xFFFFFFFFFFFFFFFFFFFEFFFFFFFFFFFFFFFF#144⟩
    (by simp [opcodeTable]) rfl rfl
    (show _ = Frame.mk 0xFF#8 0xFF#8 0xFFFFFFFFFFFFFFFE#64 0xFFFFFFFFFFFFFFFF#64 by decide)
    (show _ = Frame.mk 0x32#8 0x00#8 0x0000000000000000#64 0x0000000000000000#64 by decide)
    ⟨by decide, by simp, bit64_and _, by simp⟩

theorem pfPrepare (addr : W64) : Statement (.pfPrepare addr) :=
  of_fields ⟨"PF_PREPARE", 0x380000000000000000000000000000000000#144, 0xFFFF0000000000000000FFFFFFFFFFFFFFFF#144⟩
    (by simp [opcodeTable]) rfl rfl
    (show _ = Frame.mk 0xFF#8 0xFF#8 0x0000000000000000#64 0xFFFFFFFFFFFFFFFF#64 by decide)
    (show _ = Frame.mk 0x38#8 0x00#8 0x0000000000000000#64 0x0000000000000000#64 by decide)
    ⟨by decide, by simp, by simp, by simp⟩

theorem pfRead (addr : W64) : Statement (.pfRead addr) :=
  of_fields ⟨"PF_READ", 0x390000000000000000000000000000000000#144, 0xFFFF0000000000000000FFFFFFFFFFFFFFFF#144⟩
    (by simp [opcodeTable]) rfl rfl
    (show _ = Frame.mk 0xFF#8 0xFF#8 0x0000000000000000#64 0xFFFFFFFFFFFFFFFF#64 by decide)
    (show _ = Frame.mk 0x39#8 0x00#8 0x0000000000000000#64 0x0000000000000000#64 by decide)
    ⟨by decide, by simp, by simp, by simp⟩

theorem pfAdvance (cycles : W64) : Statement (.pfAdvance cycles) :=
  of_fields ⟨"PF_ADVANCE", 0x3A0000000000000000000000000000000000#144, 0xFFFF0000000000000000FFFFFFFFFFFFFFFF#144⟩
    (by simp [opcodeTable]) rfl rfl
    (show _ = Frame.mk 0xFF#8 0xFF#8 0x0000000000000000#64 0xFFFFFFFFFFFFFFFF#64 by decide)
    (show _ = Frame.mk 0x3A#8 0x00#8 0x0000000000000000#64 0x0000000000000000#64 by decide)
    ⟨by decide, by simp, by simp, by simp⟩

theorem iaSetflag (src : Idx) : Statement (.iaSetflag src) :=
  of_fields ⟨"IA_SETFLAG", 0x400000000000000000000000000000000000#144, 0xFF00FFFFFFFFFFFFFFFFFFFFFFFFFFFFFFFF#144⟩
    (by simp [opcodeTable]) rfl rfl
    (show _ = Frame.mk 0xFF#8 0x00#8 0xFFFFFFFFFFFFFFFF#64 0xFFFFFFFFFFFFFFFF#64 by decide)
    (show _ = Frame.mk 0x40#8 0x00#8 0x0000000000000000#64 0x0000000000000000#64 by decide)
    ⟨by decide, by simp, by simp, by simp⟩

theorem iaWrenable (mask : W64) : Statement (.iaWrenable mask) :=
  of_fields ⟨"IA_WRENABLE", 0x410000000000000000000000000000000000#144, 0xFFFF0000000000000000FFFFFFFFFFFFFFFF#144⟩
    (by simp [opcodeTable]) rfl rfl
    (show _ = Frame.mk 0xFF#8 0xFF#8 0x0000000000000000#64 0xFFFFFFFFFFFFFFFF#64 by decide)
    (show _ = Frame.mk 0x41#8 0x00#8 0x0000000000000000#64 0x0000000000000000#64 by decide)
    ⟨by decide, by simp, by simp, by simp⟩

theorem iaWrflagclr (mask : W64) : Statement (.iaWrflagclr mask) :=
  of_fields ⟨"IA_WRFLAGCLR", 0x420000000000000000000000000000000000#144, 0xFFFF0000000000000000FFFFFFFFFFFFFFFF#144⟩
    (by simp [opcodeTable]) rfl rfl
    (show _ = Frame.mk 0xFF#8 0xFF#8 0x0000000000000000#64 0xFFFFFFFFFFFFFFFF#64 by decide)
    (show _ = Frame.mk 0x42#8 0x00#8 0x0000000000000000#64 0x0000000000000000#64 by decide)
    ⟨by decide, by simp, by simp, by simp⟩

theorem iaHpp : Statement (.iaHpp) :=
  of_fields ⟨"IA_HPP", 0x430000000000000000000000000000000000#144, 0xFFFFFFFFFFFFFFFFFFFFFFFFFFFFFFFFFFFF#144⟩
    (by simp [opcodeTable]) rfl rfl
    (show _ = Frame.mk 0xFF#8 0xFF#8 0xFFFFFFFFFFFFFFFF#64 0xFFFFFFFFFFFFFFFF#64 by decide)
    (show _ = Frame.mk 0x43#8 0x00#8 0x0000000000000000#64 0x0000000000000000#64 by decide)
    ⟨by decide, by simp, by simp, by simp⟩

theorem iaAck (src : Idx) : Statement (.iaAck src) :=
  of_fields ⟨"IA_ACK", 0x440000000000000000000000000000000000#144, 0xFF00FFFFFFFFFFFFFFFFFFFFFFFFFFFFFFFF#144⟩
    (by simp [opcodeTable]) rfl rfl
    (show _ = Frame.mk 0xFF#8 0x00#8 0xFFFFFFFFFFFFFFFF#64 0xFFFFFFFFFFFFFFFF#64 by decide)
    (show _ = Frame.mk 0x44#8 0x00#8 0x0000000000000000#64 0x0000000000000000#64 by decide)
    ⟨by decide, by simp, by simp, by simp⟩

theorem xrWrite (x : Idx) (cycle : W64) (value : W64) : Statement (.xrWrite x cycle value) :=
  of_fields ⟨"XR_WRITE", 0x500000000000000000000000000000000000#144, 0xFF0000000000000000000000000000000000#144⟩
    (by simp [opcodeTable]) rfl rfl
    (show _ = Frame.mk 0xFF#8 0x00#8 0x0000000000000000#64 0x0000000000000000#64 by decide)
    (show _ = Frame.mk 0x50#8 0x00#8 0x0000000000000000#64 0x0000000000000000#64 by decide)
    ⟨by decide, by simp, by simp, by simp⟩

theorem xrRead (x : Idx) (asOf : W64) : Statement (.xrRead x asOf) :=
  of_fields ⟨"XR_READ", 0x510000000000000000000000000000000000#144, 0xFF000000000000000000FFFFFFFFFFFFFFFF#144⟩
    (by simp [opcodeTable]) rfl rfl
    (show _ = Frame.mk 0xFF#8 0x00#8 0x0000000000000000#64 0xFFFFFFFFFFFFFFFF#64 by decide)
    (show _ = Frame.mk 0x51#8 0x00#8 0x0000000000000000#64 0x0000000000000000#64 by decide)
    ⟨by decide, by simp, by simp, by simp⟩

end Sys2Proof.Laws.RowOfTable
end

