-- ==== Sys2Proof/Laws/Units.lean ====
section
/-! SUPPORT. What the shared operations of the units can do, one lemma each: conversion and periodic stall
(spec/41_clock_domain_converter.md), regions and the fetch engine (42_bus_timing_prefetch.md), masks
(43_interrupt_arbiter.md), and sequences (44_time_ordered_register.md). -/

namespace Sys2Proof.Machine

/-! ### Numbers in fields -/

theorem toW64_toNat (n : Nat) (h : n < 2 ^ 64) : (toW64 n).toNat = n := by
  simp only [toW64, BitVec.toNat_ofNat]
  omega

/-! ### Clock domains -/

/-- R166: no master cycle is created or lost by a conversion. -/
theorem convert_conserves (c : Cfg) (b : Block) (m d : Nat) :
    convertTicks c b m d * divOf c d + convertRest c b m d = accOf b d + m := by
  unfold convertTicks convertRest
  rw [Nat.mul_comm]
  exact Nat.div_add_mod _ _

/-- R31: the remainder of a conversion is below the divider. -/
theorem convertRest_lt (c : Cfg) (b : Block) (m d : Nat) (h : 0 < divOf c d) : convertRest c b m d < divOf c d :=
  Nat.mod_lt _ h

/-- R162: a command never spends more stall than there is, nor more ticks than it converted. -/
theorem stallSpent_le (c : Cfg) (b : Block) (inj m d : Nat) :
    stallSpent c b inj m d ≤ stallWith b inj d ∧ stallSpent c b inj m d ≤ convertTicks c b m d :=
  ⟨Nat.min_le_left _ _, Nat.min_le_right _ _⟩

/-- R164: what is injected and what is left of the count, for the n periods crossed. -/
theorem periodic_of_crossed (c : Cfg) (b : Block) (m n rest : Nat) (long : Bool) (hp : c.refPeriod ≠ 0)
    (hn : n * periodThreshold c + rest = b.refcnt.toNat + m) (hr : rest < periodThreshold c) :
    periodic c b m long = ((if n = 0 then 0 else if long then c.refStallLong else n * c.refStall), rest) := by
  have h1 : (b.refcnt.toNat + m) / periodThreshold c = n := by
    rw [← hn, Nat.mul_comm]
    rw [Nat.mul_add_div (by omega), Nat.div_eq_of_lt hr, Nat.add_zero]
  have h2 : (b.refcnt.toNat + m) % periodThreshold c = rest := by
    rw [← hn, Nat.mul_comm, Nat.mul_add_mod, Nat.mod_eq_of_lt hr]
  simp [periodic, hp, h1, h2]

/-- R164: with no period nothing is injected and the count stays 0. -/
theorem periodic_of_off (c : Cfg) (b : Block) (m : Nat) (long : Bool) (hp : c.refPeriod = 0) :
    periodic c b m long = (0, 0) := by
  simp [periodic, hp]

/-! ### Regions -/

/-- The region that is found holds the address (20_memory.md R72). -/
theorem regionOf_some (c : Cfg) (a r : Nat) (h : regionOf c a = some r) :
    r < c.nr ∧ (c.regions.getD r default).lo ≤ a ∧ a ≤ (c.regions.getD r default).hi := by
  unfold regionOf at h
  obtain ⟨hr, hp, -⟩ := List.findIdx?_eq_some_iff_getElem.1 h
  refine ⟨hr, ?_⟩
  simpa [Region.holds, hr] using hp

/-- No region is found exactly when none holds the address. -/
theorem regionOf_none (c : Cfg) (a : Nat) : regionOf c a = none ↔ ∀ r ∈ c.regions, ¬ (r.lo ≤ a ∧ a ≤ r.hi) := by
  simp [regionOf, List.findIdx?_eq_none_iff, Region.holds]

/-! ### Prefetch -/

/-- After a fetch the engine goes on or stops; nothing else changes (R197). -/
theorem cont_cases (c : Cfg) (b : Block) :
    (cont c b = b.fetching (latS c b b.waddr) ∧ b.pfEn = true ∧ b.pfQ.length < c.pfN ∧ atBoundary c b = false) ∨
    cont c b = b.idle := by
  unfold cont
  split
  · rename_i h
    simp only [Bool.and_eq_true, decide_eq_true_eq, Bool.not_eq_true'] at h
    exact .inl ⟨rfl, h.1.1, h.1.2, h.2⟩
  · exact .inr rfl

@[simp] theorem cont_pfQ (c : Cfg) (b : Block) : (cont c b).pfQ = b.pfQ := by
  rcases cont_cases c b with ⟨h, -⟩ | h <;> simp [h]

@[simp] theorem cont_raddr (c : Cfg) (b : Block) : (cont c b).raddr = b.raddr := by
  rcases cont_cases c b with ⟨h, -⟩ | h <;> simp [h]

@[simp] theorem cont_waddr (c : Cfg) (b : Block) : (cont c b).waddr = b.waddr := by
  rcases cont_cases c b with ⟨h, -⟩ | h <;> simp [h]

@[simp] theorem cont_pfEn (c : Cfg) (b : Block) : (cont c b).pfEn = b.pfEn := by
  rcases cont_cases c b with ⟨h, -⟩ | h <;> simp [h]

/-- An engine that goes on is enabled and has room (10_state.md R37 (e)). -/
theorem cont_active (c : Cfg) (b : Block) (h : (cont c b).active = true) :
    b.pfEn = true ∧ b.pfQ.length < c.pfN := by
  rcases cont_cases c b with ⟨-, h1, h2, -⟩ | hc
  · exact ⟨h1, h2⟩
  · simp [hc] at h

/-- An engine that stops has nothing left to count (10_state.md R37 (b)). -/
theorem cont_rem (c : Cfg) (b : Block) (h : (cont c b).active = false) : (cont c b).rem = 0#64 := by
  rcases cont_cases c b with ⟨hc, -⟩ | hc
  · simp [hc] at h
  · simp [hc]

@[simp] theorem completeFetch_pfQ (c : Cfg) (back : Memory) (b : Block) :
    (completeFetch c back b).pfQ = b.pfQ ++ [memRead c back b.waddr] := by
  simp [completeFetch]

@[simp] theorem completeFetch_raddr (c : Cfg) (back : Memory) (b : Block) :
    (completeFetch c back b).raddr = b.raddr := by
  simp [completeFetch]

@[simp] theorem completeFetch_waddr (c : Cfg) (back : Memory) (b : Block) :
    (completeFetch c back b).waddr = nextWord c b.waddr := by
  simp [completeFetch]

@[simp] theorem completeFetch_pfEn (c : Cfg) (back : Memory) (b : Block) :
    (completeFetch c back b).pfEn = b.pfEn := by
  simp [completeFetch]

/-- After a fetch the engine is active only when it is enabled and there is room for one word more. -/
theorem completeFetch_active (c : Cfg) (back : Memory) (b : Block) (h : (completeFetch c back b).active = true) :
    b.pfEn = true ∧ b.pfQ.length + 1 < c.pfN := by
  simpa using cont_active c _ h

/-- A fetch that completes changes the engine's elements only (R197, R198). -/
theorem completeFetch_frame (c : Cfg) (back : Memory) (b : Block) :
    ∃ q w act r, completeFetch c back b = { b with pfQ := q, waddr := w, active := act, rem := r } := by
  unfold completeFetch
  rcases cont_cases c { b with pfQ := b.pfQ ++ [memRead c back b.waddr], waddr := nextWord c b.waddr } with
    ⟨h, -⟩ | h <;> rw [h] <;> exact ⟨_, _, _, _, rfl⟩

/-- The loop of PF_ADVANCE changes the engine's elements only (R204). -/
theorem runEngine_frame (c : Cfg) (back : Memory) (fuel : Nat) (b : Block) (n : Nat) :
    ∃ q w act r, runEngine c back fuel b n = { b with pfQ := q, waddr := w, active := act, rem := r } := by
  induction fuel generalizing b n with
  | zero => exact ⟨_, _, _, _, rfl⟩
  | succ fuel ih =>
    unfold runEngine
    split
    · exact ⟨_, _, _, _, rfl⟩
    · split
      · exact ⟨_, _, _, _, rfl⟩
      · obtain ⟨q, w, act, r, h⟩ := completeFetch_frame c back b
        obtain ⟨q', w', act', r', h'⟩ := ih (completeFetch c back b) (n - b.rem.toNat)
        rw [h', h]
        exact ⟨_, _, _, _, rfl⟩

/-- The bound on the loop of PF_ADVANCE never cuts it short: once it covers the free slots, more of it changes nothing
(R204 (d)). -/
theorem runEngine_fuel (c : Cfg) (back : Memory) (fuel : Nat) (b : Block) (n : Nat)
    (hroom : b.active = true → b.pfQ.length < c.pfN) (hf : c.pfN ≤ fuel + b.pfQ.length) :
    runEngine c back (fuel + 1) b n = runEngine c back fuel b n := by
  induction fuel generalizing b n with
  | zero =>
    have : b.active = false := by
      cases h : b.active
      · rfl
      · have := hroom h
        omega
    simp [runEngine, this]
  | succ fuel ih =>
    conv_lhs => rw [runEngine]
    conv_rhs => rw [runEngine]
    split
    · rfl
    · split
      · rfl
      · refine ih _ _ (fun h => ?_) (by simp; omega)
        have := completeFetch_active c back b h
        simp
        omega

/-- The checks of an address, range before alignment (R207). -/
theorem checkPfAddress_cases (c : Cfg) (a : W64) :
    (checkPfAddress c a = .ok () ∧ a.toNat < 2 ^ c.ab ∧ a.toNat % c.pfWb = 0) ∨
    (checkPfAddress c a = .error .operandRange ∧ 2 ^ c.ab ≤ a.toNat) ∨
    (checkPfAddress c a = .error .pfMisaligned ∧ a.toNat < 2 ^ c.ab ∧ a.toNat % c.pfWb ≠ 0) := by
  unfold checkPfAddress addressInRange addressAligned
  by_cases h1 : a.toNat < 2 ^ c.ab
  · by_cases h2 : a.toNat % c.pfWb = 0 <;> simp [h1, h2]
  · simp [h1]
    omega

/-! ### Masks -/

/-- The bits of a mask operand: its own below NS, none above (R240). -/
theorem maskOperand_bit (c : Cfg) (m : W64) (j : Nat) (hj : j < 64) :
    (maskOperand c m).getLsbD j = (decide (j < c.ns) && m.getLsbD j) := by
  simp only [maskOperand, validSources, BitVec.getLsbD_and, BitVec.getLsbD_ofNat, Nat.testBit_two_pow_sub_one, hj]
  simp [Bool.and_comm]

/-- The bits of `bit(s)`: the one of the source, if there is such a source (R240). -/
theorem sourceBit_bit (c : Cfg) (x : Idx) (j : Nat) (hj : j < 64) :
    (sourceBit c x).getLsbD j = (decide (j < c.ns) && j == x.toNat) := by
  simp only [sourceBit, validSources, idxNat, BitVec.getLsbD_and, BitVec.getLsbD_ofNat, Nat.testBit_two_pow_sub_one,
    BitVec.getLsbD_shiftLeft]
  by_cases h : j = x.toNat
  · subst h
    simp [hj]
  · by_cases h2 : j < x.toNat
    · simp [h2, h]
    · have ht : Nat.testBit 1 (j - x.toNat) = false := by
        obtain ⟨n, hn⟩ : ∃ n, j - x.toNat = n + 1 := ⟨j - x.toNat - 1, by omega⟩
        rw [hn, Nat.testBit_succ]
        simp
      rw [ht]
      simp [h]

/-- The source that IA_HPP offers is the first of PRIO that is pending (R244). -/
theorem firstPending_some (c : Cfg) (p : W64) (s : Nat) (h : firstPending c p = some s) :
    p.getLsbD s = true ∧ ∃ before after, c.prio = before ++ s :: after ∧ ∀ j ∈ before, p.getLsbD j = false := by
  unfold firstPending at h
  rw [List.find?_eq_some_iff_append] at h
  obtain ⟨hp, l, r, hlr, hl⟩ := h
  exact ⟨by simpa using hp, l, r, hlr, fun j hj => by simpa using hl j hj⟩

/-- IA_HPP offers nothing exactly when no listed source is pending. -/
theorem firstPending_none (c : Cfg) (p : W64) : firstPending c p = none ↔ ∀ s ∈ c.prio, p.getLsbD s = false := by
  simp [firstPending]

/-! ### Sequences -/

/-- What inserting a new entry leaves in a sequence. -/
theorem mem_insertStamp (e x : Stamp) (q : List Stamp) : x ∈ insertStamp e q ↔ x = e ∨ x ∈ q := by
  induction q with
  | nil => simp [insertStamp]
  | cons f q ih =>
    unfold insertStamp
    split
    · simp
    · simp [ih, or_left_comm]

/-- An entry at a new cycle goes where the cycles stay increasing. -/
theorem insertStamp_increasing (e : Stamp) (q : List Stamp) (hq : q.Pairwise fun a b => a.cycle < b.cycle)
    (hn : ∀ f ∈ q, f.cycle ≠ e.cycle) : (insertStamp e q).Pairwise fun a b => a.cycle < b.cycle := by
  induction q with
  | nil => simp [insertStamp]
  | cons f q ih =>
    rw [List.pairwise_cons] at hq
    unfold insertStamp
    split
    · rename_i hlt
      refine List.pairwise_cons.2 ⟨fun x hx => ?_, List.pairwise_cons.2 hq⟩
      rcases List.mem_cons.1 hx with rfl | hx
      · exact hlt
      · exact BitVec.lt_trans hlt (hq.1 x hx)
    · rename_i hge
      refine List.pairwise_cons.2 ⟨fun x hx => ?_, ih hq.2 fun g hg => hn g (by simp [hg])⟩
      rcases (mem_insertStamp e x q).1 hx with rfl | hx
      · have := hn f (by simp)
        rw [BitVec.lt_def] at *
        have h2 : f.cycle.toNat ≠ x.cycle.toNat := fun hc => this (BitVec.eq_of_toNat_eq hc)
        omega
      · exact hq.1 x hx

/-- What a write leaves in a sequence before eviction: the new entry, and the old ones at other cycles (R260). -/
theorem mem_putStamp (e x : Stamp) (q : List Stamp) :
    x ∈ putStamp e q ↔ x = e ∨ (x ∈ q ∧ x.cycle ≠ e.cycle) := by
  unfold putStamp
  split
  · rename_i hany
    rw [List.any_eq_true] at hany
    obtain ⟨f, hf, hfe⟩ := hany
    rw [List.mem_map]
    constructor
    · rintro ⟨g, hg, rfl⟩
      split
      · exact .inl rfl
      · rename_i hne
        exact .inr ⟨hg, hne⟩
    · rintro (rfl | ⟨hx, hne⟩)
      · exact ⟨f, hf, if_pos (by simpa using hfe)⟩
      · exact ⟨x, hx, if_neg hne⟩
  · rename_i hany
    rw [mem_insertStamp]
    refine or_congr_right ⟨fun hx => ⟨hx, fun hc => hany ?_⟩, fun hx => hx.1⟩
    rw [List.any_eq_true]
    exact ⟨x, hx, by simpa using hc⟩

/-- A write keeps the cycles increasing (10_state.md R41). -/
theorem putStamp_increasing (e : Stamp) (q : List Stamp) (hq : q.Pairwise fun a b => a.cycle < b.cycle) :
    (putStamp e q).Pairwise fun a b => a.cycle < b.cycle := by
  unfold putStamp
  split
  · rw [List.pairwise_map]
    refine hq.imp fun {a b} hab => ?_
    split <;> split <;> simp_all
  · rename_i hany
    refine insertStamp_increasing e q hq fun f hf hc => hany ?_
    rw [List.any_eq_true]
    exact ⟨f, hf, by simpa using hc⟩

/-- Eviction drops the oldest entries (R260). -/
theorem evict_suffix (cap : Nat) (q : List Stamp) : evict cap q <:+ q := List.drop_suffix _ _

/-- Eviction leaves at most the capacity (R260). -/
theorem evict_length (cap : Nat) (q : List Stamp) : (evict cap q).length = min q.length cap := by
  simp [evict]
  omega

/-- The entry a read selects: stored, not after the cycle asked for, and the youngest such (R261). -/
theorem lastAt_some (q : List Stamp) (asOf : W64) (e : Stamp) (hq : q.Pairwise fun a b => a.cycle < b.cycle)
    (h : lastAt q asOf = some e) :
    e ∈ q ∧ e.cycle ≤ asOf ∧ ∀ f ∈ q, f.cycle ≤ asOf → f.cycle ≤ e.cycle := by
  unfold lastAt at h
  rw [List.find?_eq_some_iff_append] at h
  obtain ⟨hp, l, r, hlr, hl⟩ := h
  have hqe : q = r.reverse ++ e :: l.reverse := by
    have := congrArg List.reverse hlr
    simpa using this
  refine ⟨by simp [hqe], by simpa using hp, fun f hf hfa => ?_⟩
  rw [hqe] at hf hq
  rcases List.mem_append.1 hf with hf | hf
  · exact BitVec.le_of_lt ((List.pairwise_append.1 hq).2.2 f hf e (by simp))
  · rcases List.mem_cons.1 hf with rfl | hf
    · exact BitVec.le_refl _
    · have := hl f (by simpa using hf)
      simp [hfa] at this

/-- A read finds nothing exactly when every entry is younger than the cycle asked for (R261). -/
theorem lastAt_none (q : List Stamp) (asOf : W64) : lastAt q asOf = none ↔ ∀ e ∈ q, asOf < e.cycle := by
  simp [lastAt]

end Sys2Proof.Machine
end

