-- ==== Sys2Proof/Machine/Assembler.lean ====
section
/-! DEFINITION. The assembler syntax in which the spec writes commands (spec/30_encoding.md R110): one command a line,
`;` starts a comment, numbers decimal or `0x` hexadecimal, an event kind also by its `CFG_REF` name (00_scope.md R11).
Nothing the block executes depends on it. -/

namespace Sys2Proof.Machine

/-- A line as its words: the mnemonic with its suffix, and the operands in order. -/
structure AsmLine where
  mnemonic : String
  operands : List (List Char)
  deriving DecidableEq, Repr

/-- What stands before a comment. -/
def dropComment : List Char → List Char
  | [] => []
  | ch :: cs => if ch = ';' then [] else ch :: dropComment cs

/-- A blank. -/
def isBlank (ch : Char) : Bool := ch == ' ' || ch == '\t'

/-- Without blanks at either end. -/
def trimBlanks (cs : List Char) : List Char := ((cs.dropWhile isBlank).reverse.dropWhile isBlank).reverse

/-- The parts between commas. -/
def splitCommas : List Char → List (List Char)
  | [] => [[]]
  | ch :: cs =>
    match splitCommas cs with
    | [] => [[ch]]
    | p :: ps => if ch = ',' then [] :: p :: ps else (ch :: p) :: ps

/-- One digit of a number in base 16 or less. -/
def digitOf (base : Nat) (ch : Char) : Option Nat :=
  let n := ch.toNat
  let d := if 48 ≤ n && n ≤ 57 then n - 48 else if 65 ≤ n && n ≤ 70 then n - 55
    else if 97 ≤ n && n ≤ 102 then n - 87 else 16
  if d < base then some d else none

/-- The digits of a number, the most significant first. -/
def digitsOf (base : Nat) : (acc : Nat) → List Char → Option Nat
  | acc, [] => some acc
  | acc, ch :: cs => (digitOf base ch).bind fun d => digitsOf base (acc * base + d) cs

/-- A number: decimal, or hexadecimal behind `0x`. -/
def numberOf : List Char → Option Nat
  | [] => none
  | '0' :: 'x' :: d :: ds => digitsOf 16 0 (d :: ds)
  | d :: ds => digitsOf 10 0 (d :: ds)

/-- An event kind: its number, or its `CFG_REF` name. -/
def kindOf (cs : List Char) : Option Nat :=
  match kindNames.findIdx? fun name => name.toList == cs with
  | some k => some k
  | none => numberOf cs

/-- A number that fits an n-bit field. -/
def fieldOf (n : Nat) (v : Option Nat) : Option (BitVec n) :=
  v.bind fun x => if x < 2 ^ n then some (BitVec.ofNat n x) else none

/-- The words of a line, nothing for a line without a command. -/
def wordsOf (line : List Char) : Option AsmLine :=
  let body := trimBlanks (dropComment line)
  if body.isEmpty then none
  else
    let mnemonic := String.ofList (body.takeWhile fun ch => !isBlank ch)
    let rest := trimBlanks (body.dropWhile fun ch => !isBlank ch)
    some ⟨mnemonic, if rest.isEmpty then [] else (splitCommas rest).map trimBlanks⟩

/-- A one-bit operand. -/
def bitOperand (cs : List Char) : Option Bool :=
  match numberOf cs with
  | some 0 => some false
  | some 1 => some true
  | _ => none

/-- The width and sequential suffixes of BT_COST (R110). -/
def costSuffixes : List (String × BitVec 2 × Bool) :=
  [("BT_COST.BN", 0#2, false), ("BT_COST.BS", 0#2, true), ("BT_COST.HN", 1#2, false), ("BT_COST.HS", 1#2, true),
   ("BT_COST.WN", 2#2, false), ("BT_COST.WS", 2#2, true)]

/-- The command of a line, row by row the table of R110. -/
def commandOf (l : AsmLine) : Option Instr :=
  let idx (cs : List Char) : Option Idx := fieldOf 8 (numberOf cs)
  let w64 (cs : List Char) : Option W64 := fieldOf 64 (numberOf cs)
  match l.operands with
  | [] => if l.mnemonic = "IA_HPP" then some .iaHpp else none
  | [p] =>
    if l.mnemonic = "ES_REMOVE" then (fieldOf 8 (kindOf p)).map .esRemove
    else if l.mnemonic = "ES_READY" then (w64 p).map .esReady
    else if l.mnemonic = "ES_POP" then (w64 p).map .esPop
    else if l.mnemonic = "CD_ADVANCE" then (w64 p).map (.cdAdvance false)
    else if l.mnemonic = "CD_ADVANCE.L" then (w64 p).map (.cdAdvance true)
    else if l.mnemonic = "CD_BUSGRANT" then (idx p).map .cdBusgrant
    else if l.mnemonic = "BT_SETPF" then (bitOperand p).map .btSetpf
    else if l.mnemonic = "PF_PREPARE" then (w64 p).map .pfPrepare
    else if l.mnemonic = "PF_READ" then (w64 p).map .pfRead
    else if l.mnemonic = "PF_ADVANCE" then (w64 p).map .pfAdvance
    else if l.mnemonic = "IA_SETFLAG" then (idx p).map .iaSetflag
    else if l.mnemonic = "IA_WRENABLE" then (w64 p).map .iaWrenable
    else if l.mnemonic = "IA_WRFLAGCLR" then (w64 p).map .iaWrflagclr
    else if l.mnemonic = "IA_ACK" then (idx p).map .iaAck
    else (costSuffixes.find? fun r => r.1 == l.mnemonic).bind fun r => (w64 p).map (.btCost r.2.1 r.2.2)
  | [p, q] =>
    if l.mnemonic = "ES_INSERT" then (fieldOf 8 (kindOf p)).bind fun k => (w64 q).map (.esInsert k)
    else if l.mnemonic = "BT_SETBW" then (idx p).bind fun r => (bitOperand q).map (.btSetbw r)
    else if l.mnemonic = "XR_READ" then (idx p).bind fun x => (w64 q).map (.xrRead x)
    else none
  | [p, q, r] =>
    if l.mnemonic = "XR_WRITE" then
      (idx p).bind fun x => (w64 q).bind fun t => (w64 r).map (.xrWrite x t)
    else none
  | _ => none

/-- The command that a line of assembler text stands for. -/
def assemble (line : List Char) : Option Instr := (wordsOf line).bind commandOf

/-- The suffix that the operands of a command call for (R110). -/
def asmSuffix : Instr → String
  | .cdAdvance long _ => if long then ".L" else ""
  | .btCost w seq _ => "." ++ (if w = 0#2 then "B" else if w = 1#2 then "H" else "W") ++ (if seq then "S" else "N")
  | .esInsert .. | .esRemove .. | .esReady .. | .esPop .. | .cdBusgrant .. | .btSetbw .. | .btSetpf .. => ""
  | .pfPrepare .. | .pfRead .. | .pfAdvance .. | .iaSetflag .. | .iaWrenable .. | .iaWrflagclr .. | .iaHpp => ""
  | .iaAck .. | .xrWrite .. | .xrRead .. => ""

/-- The mnemonic with its suffix (R110). -/
def asmMnemonic (i : Instr) : String := i.mnemonic ++ asmSuffix i

/-- The operands in the order of R110, as numbers. -/
def asmOperands : Instr → List Nat
  | .esInsert k t => [k.toNat, t.toNat]
  | .esRemove k => [k.toNat]
  | .esReady t => [t.toNat]
  | .esPop t => [t.toNat]
  | .cdAdvance _ m => [m.toNat]
  | .cdBusgrant d => [d.toNat]
  | .btCost _ _ a => [a.toNat]
  | .btSetbw r b => [r.toNat, b.toNat]
  | .btSetpf b => [b.toNat]
  | .pfPrepare a => [a.toNat]
  | .pfRead a => [a.toNat]
  | .pfAdvance n => [n.toNat]
  | .iaSetflag x => [x.toNat]
  | .iaWrenable m => [m.toNat]
  | .iaWrflagclr m => [m.toNat]
  | .iaHpp => []
  | .iaAck x => [x.toNat]
  | .xrWrite x t v => [x.toNat, t.toNat, v.toNat]
  | .xrRead x t => [x.toNat, t.toNat]

/-- A command written as a line, its numbers in decimal (R110). -/
def asmText (i : Instr) : String :=
  let ops := (asmOperands i).map fun n => toString n
  if ops.isEmpty then asmMnemonic i else asmMnemonic i ++ " " ++ String.intercalate ", " ops

end Sys2Proof.Machine
end

