-- ==== Sys2Proof/Tests/Slice0.lean ====
section
/-! SUPPORT. Tests of the model, each about one step on a small state. The expected values are the rows of
spec/95_test_vectors.md and 96_test_vectors_units.md named beside them, and for the witnesses hand calculation. The
theorems `witness_…` show, for a statement with hypotheses, states and operands that meet them all together. -/

namespace Sys2Proof.Tests

open Sys2Proof Sys2Proof.Machine

set_option maxRecDepth 20000

/-! ### States -/

/-- A machine under CFG_REF with the given elements. -/
def mk (b : Block) : State := { State.reset with blk := b }

/-- The reset elements under CFG_REF. -/
def b0 : Block := Block.reset cfgRef

/-- VBLANK at 50 and TIMER0 at 100 (95, S1 row 2). -/
def heapB : Block := { b0 with heap := [⟨0, 50#64⟩, ⟨8, max64⟩, ⟨3, 100#64⟩], present := 0b00001001#8 }

/-- Stalls recorded and a remainder in each domain (95, C1 row 2). -/
def clockB : Block :=
  { b0 with acc := [2#64, 10#64, 0#64], stall := [10#64, 3#64, 0#64], toggle := true, refcnt := 100#64 }

/-- One word buffered, the next being fetched (96, F1 row 3). -/
def fetchB : Block :=
  { b0 with
    pfEn := true, pfQ := [0x1000#32], raddr := 0x08000000#64, waddr := 0x08000002#64, active := true, rem := 3#64 }

/-- Nothing buffered, a fetch in progress (96, F1 row 4). -/
def waitB : Block :=
  { b0 with pfEn := true, raddr := 0x08000002#64, waddr := 0x08000002#64, active := true, rem := 3#64 }

/-- Paused at the boundary with one word left (96, F3 row 5). -/
def pausedB : Block :=
  { b0 with pfEn := true, pfQ := [0x0FFF#32], raddr := 0x0801FFFE#64, waddr := 0x08020000#64 }

/-- Sources 1 and 2 enabled and flagged (95, S2 row 3). -/
def irqB : Block := { b0 with enable := 6#64, flag := 6#64 }

/-- Two entries in register 0 (95, S3 row 2). -/
def regB : Block := { b0 with seq := [[⟨5#64, 0x61#64⟩, ⟨10#64, 0x62#64⟩], []] }

/-- Register 0 full (96, X1 row 12). -/
def fullB : Block :=
  { b0 with seq := [[⟨5#64, 0x61#64⟩, ⟨8#64, 0x63#64⟩, ⟨10#64, 0x64#64⟩, ⟨20#64, 0x65#64⟩], []] }

/-- A faulted block (95, E5). -/
def faultB : Block := { b0 with fault := true, cause := 0x02#8 }

/-- `PRESENT[2] = 1` without an entry (95, E7). -/
def corruptB : Block := { b0 with present := 0b00000100#8 }

/-- The words 0x1000, 0x1001 at 0x08000000 (BACK_REF of 95, section 1). -/
def backBytes : Memory := [(0x08000001, 0x10#8), (0x08000002, 0x01#8), (0x08000003, 0x10#8)]

/-- A machine with that store. -/
def mkPf (b : Block) : State := { mk b with back := backBytes }

/-- The next state of an outcome. -/
def stateOf (o : Host.Outcome State Fault Refusal) : State :=
  match o with
  | .next t => t
  | _ => State.reset

/-- The response of an outcome. -/
def respOf (o : Host.Outcome State Fault Refusal) : Option Output :=
  match o with
  | .next t => t.out
  | _ => none

/-- A response with these fields. -/
def resp (st : Status) (k : Nat) (r0 : Nat) : Option Output := some (.response ⟨st, toK k, toW64 r0, 0#64, []⟩)

/-! ### Well-formedness: the reserved width code is refused (30_encoding.md R107) -/

theorem test_wf_refuses_reserved_width : Instr.wf (.btCost 3#2 false 0x100#64) = false := by decide
theorem test_wf_takes_the_three_widths :
    Instr.wf (.btCost 0#2 false 0#64) && Instr.wf (.btCost 1#2 true 0#64) && Instr.wf (.btCost 2#2 true 0#64) = true := by
  decide

/-! ### Decoding, words written out from 30_encoding.md R100 and R103 (95, N1) -/

theorem test_decode_es :
    decode 0x100300000000000000640000000000000000#144 = .ok (.esInsert 3#8 100#64) ∧
    decode 0x110500000000000000000000000000000000#144 = .ok (.esRemove 5#8) ∧
    decode 0x1200000000000000003C0000000000000000#144 = .ok (.esReady 60#64) ∧
    decode 0x1300FFFFFFFFFFFFFFFF0000000000000000#144 = .ok (.esPop 0xFFFFFFFFFFFFFFFF#64) := by decide

theorem test_decode_cd :
    decode 0x200100000000000007D00000000000000000#144 = .ok (.cdAdvance true 2000#64) ∧
    decode 0x210200000000000000000000000000000000#144 = .ok (.cdBusgrant 2#8) := by decide

theorem test_decode_bt :
    decode 0x300600000000080001000000000000000000#144 = .ok (.btCost 2#2 true 0x08000100#64) ∧
    decode 0x310100000000000000010000000000000000#144 = .ok (.btSetbw 1#8 true) ∧
    decode 0x320000000000000000010000000000000000#144 = .ok (.btSetpf true) := by decide

theorem test_decode_pf :
    decode 0x380000000000080000000000000000000000#144 = .ok (.pfPrepare 0x08000000#64) ∧
    decode 0x390000000000080000000000000000000000#144 = .ok (.pfRead 0x08000000#64) ∧
    decode 0x3A0000000000000000070000000000000000#144 = .ok (.pfAdvance 7#64) := by decide

theorem test_decode_ia :
    decode 0x400200000000000000000000000000000000#144 = .ok (.iaSetflag 2#8) ∧
    decode 0x410000000000000000060000000000000000#144 = .ok (.iaWrenable 6#64) ∧
    decode 0x420000000000000080010000000000000000#144 = .ok (.iaWrflagclr 0x8001#64) ∧
    decode 0x430000000000000000000000000000000000#144 = .ok .iaHpp ∧
    decode 0x440100000000000000000000000000000000#144 = .ok (.iaAck 1#8) := by decide

theorem test_decode_xr :
    decode 0x500000000000000000050000000000000061#144 = .ok (.xrWrite 0#8 5#64 0x61#64) ∧
    decode 0x510000000000000000070000000000000000#144 = .ok (.xrRead 0#8 7#64) := by decide

/-- Illegal frames (95, N2; 96, B2). -/
theorem test_decode_refuses :
    decode 0x000000000000000000000000000000000000#144 = .error (.unknownOp 0x00#8) ∧
    decode 0x330000000000000000000000000000000000#144 = .error (.unknownOp 0x33#8) ∧
    decode 0x1201000000000000003C0000000000000000#144 = .error (.mustBeZero "ES_READY") ∧
    decode 0x200200000000000000640000000000000000#144 = .error (.mustBeZero "CD_ADVANCE") ∧
    decode 0x310100000000000000020000000000000000#144 = .error (.mustBeZero "BT_SETBW") ∧
    decode 0x440100000000000000008000000000000000#144 = .error (.mustBeZero "IA_ACK") ∧
    decode 0x300300000000000001000000000000000000#144 = .error .reservedWidth := by decide

/-- A frame as 18 bytes (95, N1, last line). -/
theorem test_decode_bytes :
    decodeBytes [0x10#8, 3#8, 0, 0, 0, 0, 0, 0, 0, 0x64#8, 0, 0, 0, 0, 0, 0, 0, 0] = .ok (.esInsert 3#8 100#64) ∧
    decodeBytes [0x10#8] = .error (.wrongLength 1) ∧
    bytesOfFrame (encode (.esInsert 3#8 100#64)) =
      [0x10#8, 3#8, 0, 0, 0, 0, 0, 0, 0, 0x64#8, 0, 0, 0, 0, 0, 0, 0, 0] := by decide

theorem test_table_word : decodeTableWord 144 0x440100000000000000000000000000000000 = some (.iaAck 1#8) := by decide

theorem test_table_has_19_rows : opcodeTable.length = 19 ∧ (opcodeTable.map TableRow.mnemonic).Nodup := by decide

/-- The syntax of R110. -/
theorem test_assemble :
    assemble "ES_INSERT TIMER0, 100".toList = some (.esInsert 3#8 100#64) ∧
    assemble "BT_COST.WS 0x08000100 ; a word".toList = some (.btCost 2#2 true 0x08000100#64) ∧
    assemble "BT_COST 5".toList = none := by decide

/-- Responses as bits and bytes (95, N3). -/
theorem test_response_bits :
    Response.fixedBits ⟨.ok, 0#8, 50#64, 0#64, []⟩ = 0x000000000000000000320000000000000000#144 ∧
    Response.fixedBits (.faultedWith 2#8) = 0x030200000000000000000000000000000000#144 ∧
    (Response.mk .ok 0#8 0#64 0#64 [(14#64, 14#64), (6#64, 6#64), (25#64, 25#64)]).bitLength = 528 := by decide

/-! ### Reset and host actions (95, section 6) -/

theorem test_reset_values : State.reset.blk = b0 ∧ b0.heap = [⟨8, max64⟩] ∧ b0.acc = [0#64, 0#64, 0#64] ∧
    b0.bw = [false, false, false] ∧ b0.seq = [[], []] ∧ b0.pfEn = false := by decide

/-- H2 to H8: what each broken configuration fails. -/
theorem test_invalid_configurations :
    ({ cfgRef with div := [7, 0, 4] } : Cfg).hasZeroDiv = true ∧
    ({ cfgRef with nk := 9 } : Cfg).valid = false ∧
    ({ cfgRef with refSlack := 1000 } : Cfg).valid = false ∧
    ({ cfgRef with pfBoundary := 0x30000 } : Cfg).valid = false ∧
    ({ cfgRef with prio := [0, 0, 2, 3, 4, 5, 6, 7, 8, 9, 10, 11, 12, 13, 14, 15] } : Cfg).valid = false := by decide

/-- H4: the divider check comes first, and the fault is FAULT and CAUSE. -/
theorem test_reset_divider_first :
    (hostReset { cfgRef with div := [0, 15, 4], nk := 9 } State.reset).blk.cause = 0x04#8 ∧
    (hostReset { cfgRef with nk := 9 } State.reset).blk.cause = 0x05#8 := by
  constructor <;> rfl

/-- H11 to H14, H18, H20: images that RESTORE refuses. -/
theorem test_illegal_images :
    ({ b0 with heap := [⟨8, max64⟩, ⟨0, 5#64⟩], present := 1#8 } : Block).legal cfgRef = false ∧
    ({ b0 with acc := [7#64, 0#64, 0#64] } : Block).legal cfgRef = false ∧
    ({ b0 with rem := 3#64 } : Block).legal cfgRef = false ∧
    ({ b0 with seq := [[⟨10#64, 1#64⟩, ⟨10#64, 2#64⟩], []] } : Block).legal cfgRef = false ∧
    ({ b0 with cause := 0x03#8 } : Block).legal cfgRef = false ∧
    ({ b0 with fault := true, cause := 0x0A#8 } : Block).legal cfgRef = false := by decide

/-- H12, H15, H17. -/
theorem test_restore :
    (hostRestore { b0 with acc := [7#64, 0#64, 0#64] } (mk heapB)).blk =
      { heapB with fault := true, cause := 0x09#8 } ∧
    (hostRestore corruptB (mk faultB)).blk = faultB ∧
    (hostRestore { b0 with fault := true, cause := 0x07#8 } (mk heapB)).blk.cause = 0x07#8 := by decide

/-! ### One step of each command -/

/-- 95, E1 row 3: the tie-break. -/
theorem test_es_insert_tie :
    (stateOf (exec (.esInsert 0#8 100#64)
      (mk { b0 with heap := [⟨3, 100#64⟩, ⟨8, max64⟩, ⟨7, 200#64⟩], present := 0b10001000#8 }))).blk.heap =
      [⟨0, 100#64⟩, ⟨3, 100#64⟩, ⟨7, 200#64⟩, ⟨8, max64⟩] := by decide

/-- 95, E1 row 8: raising a due cycle sifts down. -/
theorem test_es_insert_update :
    (stateOf (exec (.esInsert 0#8 400#64) (mk { b0 with
      heap := [⟨7, 50#64⟩, ⟨3, 100#64⟩, ⟨0, 100#64⟩, ⟨8, max64⟩, ⟨5, 100#64⟩, ⟨1, 300#64⟩]
      present := 0b10101011#8 }))).blk.heap =
      [⟨7, 50#64⟩, ⟨3, 100#64⟩, ⟨1, 300#64⟩, ⟨8, max64⟩, ⟨5, 100#64⟩, ⟨0, 400#64⟩] := by decide

/-- 95, E1 row 9. -/
theorem test_es_remove :
    (stateOf (exec (.esRemove 5#8) (mk { b0 with
      heap := [⟨7, 50#64⟩, ⟨3, 100#64⟩, ⟨1, 300#64⟩, ⟨8, max64⟩, ⟨5, 100#64⟩, ⟨0, 400#64⟩]
      present := 0b10101011#8 }))).blk.heap =
      [⟨7, 50#64⟩, ⟨3, 100#64⟩, ⟨1, 300#64⟩, ⟨8, max64⟩, ⟨0, 400#64⟩] := by decide

/-- 95, E2 rows 1 and 4, 5: the sentinel is never ready. -/
theorem test_es_ready : respOf (exec (.esReady max64) (mk b0)) = resp .ok 0 0 ∧
    respOf (exec (.esReady 50#64) (mk heapB)) = resp .ok 0 1 ∧
    respOf (exec (.esReady 49#64) (mk heapB)) = resp .ok 0 0 := by decide

/-- 95, S1 row 4. -/
theorem test_es_pop : respOf (exec (.esPop 60#64) (mk heapB)) = resp .ok 0 50 ∧
    (stateOf (exec (.esPop 60#64) (mk heapB))).blk.heap = [⟨3, 100#64⟩, ⟨8, max64⟩] ∧
    respOf (exec (.esPop max64) (mk b0)) = resp .none 0 0 := by decide

/-- 95, E5 row 2 and E7. -/
theorem test_es_faults :
    respOf (exec (.esInsert 8#8 5#64) (mk heapB)) = resp .fault 2 0 ∧
    respOf (exec (.esInsert 2#8 5#64) (mk corruptB)) = resp .fault 3 0 ∧
    respOf (exec (.esRemove 2#8) (mk corruptB)) = resp .fault 3 0 ∧
    respOf (exec (.esInsert 0#8 5#64) (mk corruptB)) = resp .ok 0 0 := by decide

/-- 95, C1 row 3. -/
theorem test_cd_advance_gates :
    respOf (exec (.cdAdvance false 100#64) (mk clockB)) =
      some (.response ⟨.ok, 0#8, 0#64, 0#64, [(14#64, 4#64), (7#64, 4#64), (25#64, 25#64)]⟩) ∧
    (stateOf (exec (.cdAdvance false 100#64) (mk clockB))).blk.acc = [4#64, 5#64, 0#64] := by decide

/-- 95, C1 rows 8 and 9: the periodic stall, and with LONG. -/
theorem test_cd_advance_periodic :
    (stateOf (exec (.cdAdvance false 2000#64) (mk { b0 with refcnt := 220#64 }))).blk.refcnt = 240#64 ∧
    respOf (exec (.cdAdvance true 2000#64) (mk { b0 with acc := [1#64, 0#64, 0#64], refcnt := 240#64 })) =
      some (.response ⟨.ok, 0#8, 1#64, 0#64, [(285#64, 284#64), (133#64, 133#64), (500#64, 500#64)]⟩) := by decide

/-- 95, C1 row 4, and C3, C4. -/
theorem test_cd_busgrant :
    (stateOf (exec (.cdBusgrant 2#8) (mk { clockB with stall := [0#64, 0#64, 0#64] }))).blk.stall =
      [10#64, 0#64, 4#64] ∧
    respOf (exec (.cdBusgrant 1#8) (mk { b0 with stall := [max64 - 5#64, 0#64, 0#64] })) = resp .fault 7 0 ∧
    respOf (exec (.cdBusgrant 0#8) (mk b0)) = resp .fault 6 0 ∧
    respOf (exec (.cdBusgrant 3#8) (mk b0)) = resp .fault 6 0 := by decide

/-- 96, B1 rows 2 to 4, 6 and 12, B3. -/
theorem test_bt_cost :
    respOf (exec (.btCost 2#2 true 0x07FFFFFF#64) (mk b0)) = resp .ok 0 1 ∧
    respOf (exec (.btCost 1#2 false 0x08000000#64) (mk b0)) = resp .ok 0 5 ∧
    respOf (exec (.btCost 1#2 true 0x08000001#64) (mk b0)) = resp .ok 0 3 ∧
    respOf (exec (.btCost 2#2 false 0x0DFFFFFF#64) (mk b0)) = resp .ok 0 8 ∧
    respOf (exec (.btCost 2#2 true 0x08000100#64) (mk { b0 with bw := [false, true, false] })) = resp .ok 0 4 ∧
    respOf (exec (.btCost 0#2 false 0x100000000#64) (mk b0)) = resp .fault 6 0 := by decide

/-- 96, B1 row 10 and B4. -/
theorem test_bt_setbw :
    (stateOf (exec (.btSetbw 1#8 true) (mk b0))).blk.bw = [false, true, false] ∧
    respOf (exec (.btSetbw 3#8 false) (mk b0)) = resp .fault 6 0 := by decide

/-- 96, F2 row 12. -/
theorem test_bt_setpf : (stateOf (exec (.btSetpf false) (mk fetchB))).blk =
    { fetchB with pfEn := false, active := false, rem := 0#64 } := by decide

/-- 96, F1 rows 3 and 5. -/
theorem test_pf_prepare :
    stateOf (exec (.pfPrepare 0x08000000#64) (mkPf { b0 with pfEn := true })) =
      { mkPf fetchB with out := resp .ok 0 5 } ∧
    respOf (exec (.pfPrepare 0x08000002#64) (mkPf waitB)) = resp .ok 2 3 ∧
    (stateOf (exec (.pfPrepare 0x08000002#64) (mkPf waitB))).blk.pfQ = [0x1001#32] := by decide

/-- 96, F2 row 4 (the extra cycle), F1 row 8 (a buffer hit), F7, F9. -/
theorem test_pf_prepare_extra_hit_and_faults :
    respOf (exec (.pfPrepare 0x08001000#64) (mkPf { fetchB with rem := 1#64 })) = resp .ok 0 6 ∧
    respOf (exec (.pfPrepare 0x08000000#64) (mkPf fetchB)) = resp .ok 1 1 ∧
    respOf (exec (.pfPrepare 0x08000001#64) (mkPf b0)) = resp .fault 8 0 ∧
    respOf (exec (.pfPrepare 0x100000001#64) (mkPf b0)) = resp .fault 6 0 := by decide

/-- 96, F3 row 6: the read that empties the buffer resumes the engine with LAT_N; F1 row 1: NONE. -/
theorem test_pf_read :
    (stateOf (exec (.pfRead 0x0801FFFE#64) (mkPf pausedB))).blk =
      { pausedB with pfQ := [], raddr := 0x08020000#64, active := true, rem := 5#64 } ∧
    respOf (exec (.pfRead 0x0801FFFE#64) (mkPf pausedB)) = resp .ok 0 0x0FFF ∧
    respOf (exec (.pfRead 0x08000000#64) (mkPf b0)) = resp .none 0 0 := by decide

/-- The example of R204: 7 cycles complete two fetches and leave REM = 2. -/
theorem test_pf_advance :
    (stateOf (exec (.pfAdvance 7#64) (mkPf fetchB))).blk =
      { fetchB with pfQ := [0x1000#32, 0x1001#32, 0#32], waddr := 0x08000006#64, rem := 2#64 } ∧
    (stateOf (exec (.pfAdvance 100#64) (mkPf pausedB))).blk = pausedB := by decide

/-- 96, I1 rows 2, 15, 17, 21. -/
theorem test_ia_registers :
    (stateOf (exec (.iaSetflag 2#8) (mk b0))).blk.flag = 4#64 ∧
    (stateOf (exec (.iaSetflag 16#8) (mk b0))).blk.flag = 0#64 ∧
    (stateOf (exec (.iaWrenable max64) (mk b0))).blk.enable = 0xFFFF#64 ∧
    (stateOf (exec (.iaWrflagclr 0x8001#64) (mk { b0 with flag := 0x8201#64 }))).blk.flag = 0x0200#64 ∧
    (stateOf (exec (.iaAck 1#8) (mk irqB))).blk.flag = 4#64 := by decide

/-- 95, S2 row 4; 96, I1 row 3; and a list that is not the identity (96, I2 row 5). -/
theorem test_ia_hpp :
    respOf (exec .iaHpp (mk irqB)) = resp .ok 1 0 ∧
    respOf (exec .iaHpp (mk { b0 with flag := 4#64 })) = resp .none 0 0 ∧
    respOf (exec .iaHpp { mk { b0 with enable := 0xF#64, flag := 7#64 } with
      cfg := { cfgRef with ns := 4, prio := [2, 0, 3, 1] } }) = resp .ok 2 0 := by decide

/-- 96, X1 rows 8, 10 and 13, 16; X2. -/
theorem test_xr_write :
    (stateOf (exec (.xrWrite 0#8 8#64 0x63#64) (mk regB))).blk.seq =
      [[⟨5#64, 0x61#64⟩, ⟨8#64, 0x63#64⟩, ⟨10#64, 0x62#64⟩], []] ∧
    (stateOf (exec (.xrWrite 0#8 10#64 0x64#64) (mk regB))).blk.seq = [[⟨5#64, 0x61#64⟩, ⟨10#64, 0x64#64⟩], []] ∧
    (stateOf (exec (.xrWrite 0#8 30#64 0x66#64) (mk fullB))).blk.seq =
      [[⟨8#64, 0x63#64⟩, ⟨10#64, 0x64#64⟩, ⟨20#64, 0x65#64⟩, ⟨30#64, 0x66#64⟩], []] ∧
    (stateOf (exec (.xrWrite 0#8 2#64 0x67#64) (mk fullB))).blk.seq = fullB.seq ∧
    respOf (exec (.xrWrite 0#8 1#64 0x100000000#64) (mk b0)) = resp .fault 6 0 := by decide

/-- 95, S3 rows 3 to 5; 96, X3. -/
theorem test_xr_read :
    respOf (exec (.xrRead 0#8 7#64) (mk regB)) = resp .ok 0 0x61 ∧
    respOf (exec (.xrRead 0#8 10#64) (mk regB)) = resp .ok 0 0x62 ∧
    respOf (exec (.xrRead 0#8 3#64) (mk regB)) = resp .ok 0 0 ∧
    respOf (exec (.xrRead 2#8 1#64) (mk b0)) = resp .fault 6 0 := by decide

/-! ### Steps -/

/-- 95, N2 and E5 row 3: an illegal frame faults a block in RUN, and a FAULTED block answers FAULTED. -/
theorem test_step_illegal_and_faulted :
    respOf (step ((mk b0).withFetchWord 144 0x140000000000000000000000000000000000)) = resp .fault 1 0 ∧
    respOf (step ((mk faultB).withFetchWord 144 0x140000000000000000000000000000000000)) = resp .faulted 2 0 ∧
    respOf (step ((mk faultB).withFetchWord 144 0x430000000000000000000000000000000000)) = resp .faulted 2 0 := by
  decide

/-- The platform's change of the store, and one that names no address. -/
theorem test_step_back_write :
    (stateOf (step { mkPf b0 with inbox := [.backWrite 0x08000002 0#8] })).back =
      [(0x08000001, 0x10#8), (0x08000003, 0x10#8)] ∧
    step { mkPf b0 with inbox := [.backWrite 0x100000000 1#8] } = .fault .noSuchAddress := by
  constructor
  · decide
  · rfl

/-! ### Witnesses: the hypotheses of the statements can be met -/

/-- `sound` and `running` states of every unit's statements, at rest and at the boundaries used below. -/
theorem witness_sound_states :
    [b0, heapB, clockB, fetchB, waitB, pausedB, irqB, regB, fullB].all
      (fun b => (mk b).sound && (mk b).running && (mk b).consistent) = true ∧ (mkPf fetchB).sound = true := by decide

/-- Running but not consistent: the premises of MissingEntryIsHeapCorrupt (95, E7). -/
theorem witness_MissingEntryIsHeapCorrupt : (mk corruptB).running = true ∧ (2#8 : Idx).toNat < (mk corruptB).cfg.nk ∧
    (mk corruptB).blk.present.getLsbD (2#8 : Idx).toNat = true ∧
    ∀ e ∈ (mk corruptB).blk.heap, e.kind ≠ (2#8 : Idx).toNat := by decide

theorem witness_DecodeOfEncodeIsTheCommand : Instr.wf (.btCost 2#2 true max64) = true := by decide

theorem witness_DecodedFrameIsItsEncoding :
    decode 0x5007FFFFFFFFFFFFFFFFFFFFFFFFFFFFFFFF#144 = .ok (.xrWrite 7#8 max64 max64) := by decide

theorem witness_StepPerformsTheDecodedCommand :
    ((mk b0).withFetchWord 144 0x430000000000000000000000000000000000).inbox =
      .frame 0x430000000000000000000000000000000000#144 :: [] ∧
    decode 0x430000000000000000000000000000000000#144 = .ok .iaHpp ∧ Instr.wf .iaHpp = true := by decide

/-- Both kinds of illegal frame: no row hit, and the reserved width code. -/
theorem witness_IllegalFrameRaisesIllegalCmd :
    (mk b0).blk.fault = false ∧ (∀ row ∈ opcodeTable, row.hits 0x43000000000000000001000000000000000 = false) ∧
    (0x300300000000000001000000000000000000#144 : Frame).extractLsb' 136 8 = 0x30#8 ∧
    (0x300300000000000001000000000000000000#144 : Frame).extractLsb' 128 2 = 3#2 := by decide

theorem witness_FaultedBlockOnlyAnswersFaulted :
    ({ mk faultB with inbox := [.frame 0#144] } : State).inbox = .frame 0#144 :: [] ∧
    ({ mk faultB with inbox := [.frame 0#144] } : State).blk.fault = true := by decide

theorem witness_FaultIsPrecise :
    let s : State := { mk heapB with inbox := [.frame (encode (.esInsert 8#8 5#64))] }
    s.blk.fault = false ∧ step s = .next (stateOf (step s)) ∧ (stateOf (step s)).blk.fault = true :=
  ⟨by decide, rfl, by decide⟩

theorem witness_CommandsRaiseOnlyTheirOwnCauses :
    exec (.btCost 3#2 false 0#64) (mk b0) = .next (stateOf (exec (.btCost 3#2 false 0#64) (mk b0))) ∧
    (mk b0).blk.fault = false ∧ (stateOf (exec (.btCost 3#2 false 0#64) (mk b0))).blk.fault = true :=
  ⟨rfl, by decide, by decide⟩

/-- Both ways out of FAULTED, and a frame that is none. -/
theorem witness_OnlyResetAndRestoreLeaveFaulted :
    let s (i : Input) : State := { mk faultB with inbox := [i] }
    step (s (.reset cfgRef)) = .next (stateOf (step (s (.reset cfgRef)))) ∧
    (stateOf (step (s (.reset cfgRef)))).blk.fault = false ∧
    step (s (.restore heapB)) = .next (stateOf (step (s (.restore heapB)))) ∧
    (stateOf (step (s (.restore heapB)))).blk.fault = false ∧
    step (s (.frame 0#144)) = .next (stateOf (step (s (.frame 0#144)))) :=
  ⟨rfl, by decide, rfl, by decide, rfl⟩

theorem witness_NoneIsNoFaultAndChangesNothing :
    [Instr.esPop 49#64, .pfRead 0x08000000#64, .iaHpp].all
      (fun i => respOf (exec i (mk heapB)) == resp .none 0 0) = true := by decide

theorem witness_ResponsesHaveTheirFields_and_CommandsTouchOnlyTheirOwnUnit :
    exec (.cdAdvance false 1#64) (mk clockB) = .next (stateOf (exec (.cdAdvance false 1#64) (mk clockB))) ∧
    exec (.btSetpf false) (mk fetchB) = .next (stateOf (exec (.btSetpf false) (mk fetchB))) := ⟨rfl, rfl⟩

theorem witness_OnlyArbiterCommandsTouchTheMasks :
    let s : State := (mk b0).arrives (encode (.iaSetflag 2#8))
    step s = .next (stateOf (step s)) ∧ (stateOf (step s)).blk.flag ≠ s.blk.flag := ⟨rfl, by decide⟩

theorem witness_QueriesMayBeRepeated :
    [Instr.esReady 60#64, .btCost 2#2 true 0x08000100#64, .iaHpp, .xrRead 1#8 max64].all
      (fun i => isQuery i && !(stateOf (exec i (mk regB))).blk.fault) = true ∧
    exec .iaHpp (mk regB) = .next (stateOf (exec .iaHpp (mk regB))) := ⟨by decide, rfl⟩

theorem witness_ValidResetGivesTheResetValues_and_EveryAddressHasOneRegionAndItsCost :
    cfgRef.valid = true ∧ 0xFFFFFFFF < 2 ^ cfgRef.ab ∧
    ({ mk faultB with inbox := [.reset cfgRef] } : State).inbox = .reset cfgRef :: [] := by decide

/-- Both causes of an invalid RESET. -/
theorem witness_InvalidResetFaultsAndRefusesRestore :
    ({ cfgRef with div := [7, 0, 4] } : Cfg).valid = false ∧ 0 ∈ ({ cfgRef with div := [7, 0, 4] } : Cfg).div ∧
    ({ cfgRef with nk := 9 } : Cfg).valid = false ∧ 0 ∉ ({ cfgRef with nk := 9 } : Cfg).div := by decide

/-- The three cases of RESTORE: a legal image, a bad one in RUN, a bad one in FAULTED. -/
theorem witness_RestoreTakesExactlyLegalImages :
    (mk b0).cfg.valid = true ∧ heapB.legal (mk b0).cfg = true ∧ corruptB.legal (mk b0).cfg = false ∧
    (mk b0).blk.fault = false ∧ (mk faultB).blk.fault = true := by decide

theorem witness_SnapshotRestoreRoundTrips :
    let s : State := { mk heapB with inbox := [.snapshot] }
    let u : State := { mk clockB with inbox := [.restore heapB] }
    s.consistent = true ∧ s.cfg.valid = true ∧ s.inbox = .snapshot :: [] ∧ u.cfg = s.cfg ∧
    u.inbox = .restore s.blk :: [] := by decide

theorem witness_EqualImagesAnswerAlike :
    let s : State := { mk heapB with inbox := [encode (.esPop 60#64)].map Input.frame }
    let u : State := { s with out := resp .ok 0 9, drawn := 7 }
    s.cfg = u.cfg ∧ s.blk = u.blk ∧ s.back = u.back ∧ s ≠ u ∧
    Host.Core.run Sys2Proof.core 1 s = .next (stateOf (step s)) := ⟨rfl, rfl, rfl, by decide, rfl⟩

theorem witness_EveryStepKeepsConsistency :
    let s : State := (mk heapB).arrives (encode (.esPop 60#64))
    s.consistent = true ∧ step s = .next (stateOf (step s)) := ⟨by decide, rfl⟩

/-- The machine stops where the platform names no address. -/
theorem witness_ConsistentMachineNeverStops :
    ({ mk b0 with inbox := [.backWrite 0x100000000 1#8] } : State).consistent = true := by decide

/-- A kind already scheduled, one that is not, and the greatest kind in range. -/
theorem witness_Insert_and_Remove : (mk heapB).sound = true ∧ (7#8 : Idx).toNat < (mk heapB).cfg.nk ∧
    (sched heapB 0).isSome = true ∧ (sched heapB 7).isSome = false := by decide

/-- The sentinel's value, at the boundary. -/
theorem witness_KindOutOfRangeFaults : (mk heapB).running = true ∧ (mk heapB).cfg.nk ≤ (8#8 : Idx).toNat := by decide

/-- VBLANK is due at 50, at the boundary. -/
theorem witness_Ready_and_Pop_due : SomethingDue (mk heapB).cfg (mk heapB).blk 50#64 :=
  ⟨0, 50#64, ⟨by decide, by decide⟩, by decide⟩

/-- Nothing is due at any cycle after reset, MAX64 included. -/
theorem witness_Ready_and_Pop_nothing_due : ¬ SomethingDue (mk b0).cfg (mk b0).blk max64 := by
  rintro ⟨k, t, ⟨hk, ht⟩, -⟩
  have hne : ¬ ((8 : Nat) = k) := fun h => by subst h; exact absurd hk (by decide)
  simp [sched, mk, b0, Block.reset, sentinel, cfgRef, hne] at ht

/-- Two layouts of one schedule. -/
theorem witness_HeapLayoutNeverShows :
    let u : State := mk { heapB with heap := [⟨0, 50#64⟩, ⟨3, 100#64⟩, ⟨8, max64⟩] }
    unitOf (.esPop 60#64) = .es ∧ (mk heapB).sound = true ∧ u.sound = true ∧ (mk heapB).cfg = u.cfg ∧
    mk heapB ≠ u ∧ (List.range 10).all (fun k => sched heapB k == sched u.blk k) = true := by decide

/-- The last premise of HeapLayoutNeverShows, for every kind. -/
theorem witness_HeapLayoutNeverShows_sched (k : Nat) :
    sched heapB k = sched { heapB with heap := [⟨0, 50#64⟩, ⟨3, 100#64⟩, ⟨8, max64⟩] } k := by
  by_cases h0 : 0 = k
  · subst h0; rfl
  · by_cases h8 : 8 = k
    · subst h8; rfl
    · by_cases h3 : 3 = k
      · subst h3; rfl
      · simp [sched, heapB, h0, h3, h8]

/-- Two periods crossed (C1 row 8), and a stall that no longer fits by one tick. -/
theorem witness_AdvanceConvertsAndGatesEveryDomain :
    (mk clockB).sound = true ∧ 2 * (cfgRef.refPeriod - cfgRef.refSlack) + 120 = clockB.refcnt.toNat + 2000 ∧
    120 < cfgRef.refPeriod - cfgRef.refSlack ∧ (clockB.stall.getD 0 0#64).toNat + 2 * cfgRef.refStall ≤ 2 ^ 64 - 1 ∧
    (mk { b0 with stall := [max64 - 1#64, 0#64, 0#64], refcnt := 989#64 }).sound = true ∧
    2 ^ 64 - 1 < (max64 - 1#64).toNat + 1 * cfgRef.refStall := by decide

/-- The periodic stall turned off. -/
theorem witness_AdvanceConvertsAndGatesEveryDomain_off :
    ({ State.reset with cfg := { cfgRef with refPeriod := 0, refSlack := 0 } } : State).sound = true := by decide

theorem witness_AdvanceConservesCycles :
    let o := exec (.cdAdvance true max64) (mk clockB)
    (mk clockB).sound = true ∧ o = .next (stateOf o) ∧ (stateOf o).blk.fault = false ∧
    (stateOf o).out.isSome = true := ⟨by decide, rfl, by decide, by decide⟩

theorem witness_TwoAdvancesConvertAsOne :
    let t := stateOf (exec (.cdAdvance false 1000#64) (mk clockB))
    let v := stateOf (exec (.cdAdvance false 2000#64) t)
    let w := stateOf (exec (.cdAdvance false 3000#64) (mk clockB))
    (mk clockB).sound = true ∧ exec (.cdAdvance false 1000#64) (mk clockB) = .next t ∧
    exec (.cdAdvance false 2000#64) t = .next v ∧ exec (.cdAdvance false (1000#64 + 2000#64)) (mk clockB) = .next w ∧
    v.blk.fault = false ∧ w.blk.fault = false := ⟨by decide, rfl, rfl, rfl, by decide, by decide⟩

/-- A grant that fits exactly, one that passes MAX64 by one, the primary, and a domain that does not exist. -/
theorem witness_BusGrantRecordsBothStalls :
    (mk { b0 with stall := [max64 - 10#64, max64 - 3#64, 0#64] }).running = true ∧
    (max64 - 10#64).toNat + cfgRef.grantPri ≤ 2 ^ 64 - 1 ∧ (max64 - 3#64).toNat + cfgRef.grantSecEven ≤ 2 ^ 64 - 1 ∧
    2 ^ 64 - 1 < (max64 - 9#64).toNat + cfgRef.grantPri ∧ (0#8 : Idx).toNat = 0 ∧ cfgRef.nd ≤ (3#8 : Idx).toNat ∧
    (mk { b0 with stall := [max64 - 9#64, 0#64, 0#64] }).running = true := by decide

/-- The last address of a region, and the first address beyond the space. -/
theorem witness_CostIsTheTableEntryOfTheRegion :
    (mk b0).running = true ∧ (2#2 : BitVec 2) ≠ 3#2 ∧ 1 < (mk b0).cfg.nr ∧
    ((mk b0).cfg.regions.getD 1 default).lo ≤ (0x0DFFFFFF#64 : W64).toNat ∧
    (0x0DFFFFFF#64 : W64).toNat ≤ ((mk b0).cfg.regions.getD 1 default).hi ∧
    2 ^ (mk b0).cfg.ab ≤ (0x100000000#64 : W64).toNat := by decide

theorem witness_SetBusWidthWritesOneBit :
    (mk b0).running = true ∧ (2#8 : Idx).toNat < (mk b0).cfg.nr ∧ (mk b0).cfg.nr ≤ (3#8 : Idx).toNat := by decide

/-- Out of range, and in range but odd. -/
theorem witness_PrefetchAddressChecks :
    (mk b0).running = true ∧ 2 ^ cfgRef.ab ≤ (0x100000001#64 : W64).toNat ∧
    (0xFFFFFFFF#64 : W64).toNat < 2 ^ cfgRef.ab ∧ (0xFFFFFFFF#64 : W64).toNat % cfgRef.pfWb ≠ 0 := by decide

/-- A buffer hit, a hit on a fetch in progress, and a miss at the top of the address space. -/
theorem witness_PrepareHasThreeClasses :
    (mk fetchB).sound = true ∧ (mk waitB).sound = true ∧ 0x08000000#64 = fetchB.raddr ∧ fetchB.pfQ ≠ [] ∧
    0x08000002#64 = waitB.raddr ∧ waitB.pfQ = [] ∧ waitB.active = true ∧ 0xFFFFFFFE#64 ≠ fetchB.raddr ∧
    (0xFFFFFFFE#64 : W64).toNat < 2 ^ cfgRef.ab ∧ (0xFFFFFFFE#64 : W64).toNat % cfgRef.pfWb = 0 ∧
    (0#64 : W64).toNat = ((0xFFFFFFFE#64 : W64).toNat + cfgRef.pfWb) % 2 ^ cfgRef.ab ∧
    (0x08000004#64 : W64).toNat = ((0x08000002#64 : W64).toNat + cfgRef.pfWb) % 2 ^ cfgRef.ab := by decide

/-- A hit, and a request for another address. -/
theorem witness_ReadPopsTheHeadWord :
    (mk pausedB).sound = true ∧ 0x0801FFFE#64 = pausedB.raddr ∧ pausedB.pfQ = 0x0FFF#32 :: [] ∧
    (0x0801FFFE#64 : W64).toNat < 2 ^ cfgRef.ab ∧ (0x0801FFFE#64 : W64).toNat % cfgRef.pfWb = 0 ∧
    (0x08020000#64 : W64).toNat = ((0x0801FFFE#64 : W64).toNat + cfgRef.pfWb) % 2 ^ cfgRef.ab ∧
    0x08000000#64 ≠ pausedB.raddr := by decide

/-- No engine, fewer cycles than REM, and exactly REM. -/
theorem witness_AdvanceRunsTheEngine :
    (mk pausedB).blk.active = false ∧ (mk fetchB).sound = true ∧ fetchB.active = true ∧ (2#64 : W64) < fetchB.rem ∧
    fetchB.rem ≤ (3#64 : W64) ∧
    (0x08000004#64 : W64).toNat = (fetchB.waddr.toNat + cfgRef.pfWb) % 2 ^ cfgRef.ab := by decide

theorem witness_OfferedCyclesAddUp :
    let t := stateOf (exec (.pfAdvance 4#64) (mkPf fetchB))
    (mkPf fetchB).sound = true ∧ exec (.pfAdvance 4#64) (mkPf fetchB) = .next t ∧
    exec (.pfAdvance 9#64) t = .next (stateOf (exec (.pfAdvance 9#64) t)) := ⟨by decide, rfl, rfl⟩

theorem witness_BufferMirrorsAnUnchangingStore :
    let s : State := (mkPf fetchB).arrives (encode (.pfAdvance 7#64))
    let o := exec (.pfRead 0x08000000#64) (mkPf fetchB)
    s.consistent = true ∧ s.cfg.valid = true ∧ s.mirrorsBack = true ∧ step s = .next (stateOf (step s)) ∧
    o = .next (stateOf o) ∧ (stateOf o).out = resp .ok 0 0x1000 :=
  ⟨by decide, by decide, by decide, rfl, rfl, by decide⟩

/-- The first and the last address of the store. -/
theorem witness_StoreChangesLeaveTheBlockAlone :
    let s : State := { mkPf fetchB with inbox := [.backWrite 0 1#8, .backWrite 0xFFFFFFFF 0#8] }
    Memory.wf s.back = true ∧ s.inbox = .backWrite 0 1#8 :: [.backWrite 0xFFFFFFFF 0#8] ∧ 0 < 2 ^ s.cfg.ab ∧
    0xFFFFFFFF < 2 ^ s.cfg.ab := by decide

theorem witness_WordsAreLittleEndian : cfgRef.pfWb ≤ 4 ∧ memRead cfgRef backBytes 0x08000002#64 = 0x1001#32 := by
  decide

/-- Something pending, under the identity list, and nothing pending. -/
theorem witness_HighestPriorityPendingIsFirstInPrio :
    (mk irqB).running = true ∧ irqB.enable &&& irqB.flag ≠ 0#64 ∧ b0.enable &&& b0.flag = 0#64 ∧
    cfgRef.prio = List.range cfgRef.ns := by decide

theorem witness_AcknowledgedSourceIsNotOffered :
    (mk irqB).running = true ∧
    exec .iaHpp (mk irqB) = .next ((mk irqB).answer (mk irqB).blk ⟨.ok, 1#8, 0#64, 0#64, []⟩) := ⟨by decide, rfl⟩

/-- The last register, the first that does not exist, the first value too wide. -/
theorem witness_RegisterOperandChecks : (mk b0).running = true ∧ cfgRef.nx ≤ (2#8 : Idx).toNat ∧
    2 ^ cfgRef.vw ≤ (0x100000000#64 : W64).toNat := by decide

theorem witness_WriteInsertsReplacesAndEvicts : (mk fullB).sound = true ∧ (1#8 : Idx).toNat < cfgRef.nx ∧
    (0xFFFFFFFF#64 : W64).toNat < 2 ^ cfgRef.vw := by decide

/-- An entry exactly at the as-of cycle, and a cycle before every entry. -/
theorem witness_ReadReturnsTheLatestNotAfter :
    (mk regB).sound = true ∧ (0#8 : Idx).toNat < cfgRef.nx ∧ (⟨10#64, 0x62#64⟩ : Stamp) ∈ regB.seq.getD 0 [] ∧ (10#64 : W64) ≤ 10#64 ∧
    (∀ e ∈ regB.seq.getD 0 [], e.cycle ≤ 10#64 → e.cycle ≤ 10#64) ∧ ∀ e ∈ regB.seq.getD 0 [], 4#64 < e.cycle := by
  decide

theorem witness_WritesAreSeenFromTheirCycleOn :
    (mk regB).sound = true ∧ (regB.seq.getD 0 []).length < cfgRef.xrCap ∧ (8#64 : W64) ≤ 9#64 ∧
    (∀ e ∈ regB.seq.getD 0 [], ¬ (8#64 < e.cycle ∧ e.cycle ≤ 9#64)) ∧ (7#64 : W64) < 8#64 := by decide

/-- 96, X1 rows 13 and 14. -/
theorem witness_EvictedEntryReadsAsDefault :
    (mk fullB).sound = true ∧
    fullB.seq.getD 0 [] = ⟨5#64, 0x61#64⟩ :: [⟨8#64, 0x63#64⟩, ⟨10#64, 0x64#64⟩, ⟨20#64, 0x65#64⟩] ∧
    (fullB.seq.getD 0 []).length = cfgRef.xrCap ∧ (∀ e ∈ fullB.seq.getD 0 [], e.cycle ≠ 30#64) ∧
    (5#64 : W64) < 30#64 ∧ (5#64 : W64) ≤ 7#64 ∧ (7#64 : W64) < 30#64 ∧
    (∀ e ∈ [(⟨8#64, 0x63#64⟩ : Stamp), ⟨10#64, 0x64#64⟩, ⟨20#64, 0x65#64⟩], 7#64 < e.cycle) := by decide

/-- A frame that hits a row and decodes, and BT_COST with the reserved width, which hits its row and does not. -/
theorem witness_LegalFramesHitExactlyTheirRow :
    decode 0x300600000000080001000000000000000000#144 = .ok (.btCost 2#2 true 0x08000100#64) ∧
    (opcodeTable.filter fun row => row.hits 0x300600000000080001000000000000000000#144).map TableRow.mnemonic =
      ["BT_COST"] ∧
    (opcodeTable.filter fun row => row.hits 0x300700000000080001000000000000000000#144).map TableRow.mnemonic =
      ["BT_COST"] ∧
    (0x300700000000080001000000000000000000#144 : Frame).extractLsb' 128 2 = 3#2 := by decide

theorem witness_LegalImageMeansEveryInvariant : cfgRef.valid = true ∧ heapB.legal cfgRef = true ∧
    corruptB.legal cfgRef = false := by decide

/-- Equal due cycles, decided by the kind. -/
theorem witness_LessIsTheStrictTotalOrder :
    less ⟨0, 50#64⟩ ⟨3, 50#64⟩ = true ∧ less ⟨3, 50#64⟩ ⟨8, max64⟩ = true ∧
    (⟨0, 50#64⟩ : Entry).kind ≠ (⟨3, 50#64⟩ : Entry).kind ∧ (⟨7, max64⟩ : Entry).kind < cfgRef.nk := by decide

/-- Enabled with a fetch in progress, disabled, and every mask register state at its ends. -/
theorem witness_SetPrefetch_SetFlagAndAck_and_MaskWrites :
    (mk fetchB).running = true ∧ (mk b0).running = true ∧ (mk irqB).running = true ∧
    (mk { b0 with enable := 0xFFFF#64, flag := 0xFFFF#64 }).running = true := by decide

/-- A word that is buffered, and a word at the top of the address space that is not. -/
theorem witness_PreparedWordIsThenRead :
    (mkPf fetchB).sound = true ∧ 0x08000000#64 = fetchB.raddr ∧ fetchB.pfQ ≠ [] ∧
    (0x08000000#64 : W64).toNat < 2 ^ cfgRef.ab ∧ (0x08000000#64 : W64).toNat % cfgRef.pfWb = 0 ∧
    0xFFFFFFFE#64 ≠ fetchB.raddr ∧ (0xFFFFFFFE#64 : W64).toNat < 2 ^ cfgRef.ab ∧
    (0xFFFFFFFE#64 : W64).toNat % cfgRef.pfWb = 0 := by decide

end Sys2Proof.Tests
end

section
/-! PROOFS. Progress of a consistent machine (spec/00_scope.md R15, 60_exceptions.md R280, R303): in RUN the invariant
gives `serve` the well-typed elements it asks for, and nothing else but the platform's write can stop. -/

namespace Sys2Proof.Machine

/-- The effect of each command in RUN, on the only things it reads: the configuration, the backing store and the
elements (R301). Tied to the machine by `exec_eq_serve`. -/
def effectOf (c : Cfg) (m : Memory) (b : Block) : Instr → Effect
  | .esInsert kind due => esInsertEffect c b kind due
  | .esRemove kind => esRemoveEffect c b kind
  | .esReady now => esReadyEffect c b now
  | .esPop now => esPopEffect c b now
  | .cdAdvance long mc => cdAdvanceEffect c b long mc
  | .cdBusgrant d => cdBusgrantEffect c b d
  | .btCost w seq addr => btCostEffect c b w seq addr
  | .btSetbw r bit => btSetbwEffect c b r bit
  | .btSetpf en => btSetpfEffect b en
  | .pfPrepare addr => pfPrepareEffect c m b addr
  | .pfRead addr => pfReadEffect c b addr
  | .pfAdvance cycles => pfAdvanceEffect c m b cycles
  | .iaSetflag src => .ok ({ b with flag := b.flag ||| sourceBit c src }, .okay)
  | .iaWrenable mask => .ok ({ b with enable := maskOperand c mask }, .okay)
  | .iaWrflagclr mask => .ok ({ b with flag := b.flag &&& ~~~(maskOperand c mask) }, .okay)
  | .iaHpp => .ok (b, hppResponse c b)
  | .iaAck src => .ok ({ b with flag := b.flag &&& ~~~(sourceBit c src) }, .okay)
  | .xrWrite x cycle value => xrWriteEffect c b x cycle value
  | .xrRead x asOf => xrReadEffect c b x asOf

/-- Every command is served: its arm of `exec` is `serve` with the command's own effect. -/
theorem exec_eq_serve (i : Instr) (s : State) : exec i s = serve s (effectOf s.cfg s.back s.blk i) := by
  cases i <;> rfl

/-- What has arrived is no part of the invariant. -/
@[simp] theorem consistent_with_inbox (s : State) (rest : List Input) :
    ({ s with inbox := rest } : State).consistent = s.consistent := rfl

/-- Without a valid CFG a consistent block is FAULTED, so one in RUN has a valid CFG, and legal elements fit it. -/
theorem State.shaped_of_consistent (s : State) (hc : s.consistent = true) (hf : s.blk.fault = false) :
    s.shaped = true := by
  cases hv : s.cfg.valid with
  | true =>
    have hl : s.blk.legal s.cfg = true := by
      simp only [State.consistent, hv, if_true, Bool.and_eq_true] at hc
      exact hc.2
    simp [State.shaped, hv, Block.fits_of_legal s.cfg s.blk hl]
  | false => simp [State.consistent, hv, hf] at hc

/-- In a consistent machine every command has a next state, in either mode (R280). -/
theorem exec_progress (i : Instr) (s : State) (hc : s.consistent = true) : ∃ t, exec i s = .next t := by
  rw [exec_eq_serve i s]
  rcases serve_stops s (effectOf s.cfg s.back s.blk i) with hnext | ⟨-, hf, hns⟩
  · exact hnext
  · rw [State.shaped_of_consistent s hc hf] at hns
    contradiction

/-- An illegal frame has a next state in every state, consistent or not. -/
theorem serveIllegal_progress (s : State) : ∃ t, serveIllegal s = .next t := by
  unfold serveIllegal
  split
  · exact ⟨_, rfl⟩
  · exact ⟨_, rfl⟩

/-- In a consistent machine every frame has a next state. -/
theorem performFrame_progress (f : Frame) (s : State) (hc : s.consistent = true) :
    ∃ t, performFrame f s = .next t := by
  rcases performFrame_cases f s with ⟨i, -, hexec⟩ | ⟨_, -, hill⟩
  · rw [hexec]
    exact exec_progress i s hc
  · rw [hill]
    exact serveIllegal_progress s

/-- The platform's write at an address that exists. -/
theorem platformWrite_of_lt (a : Nat) (v : Byte) (s : State) (ha : a < 2 ^ s.cfg.ab) :
    platformWrite a v s = .next { s.silent with back := s.back.write a v } := by
  simp [platformWrite, ha]

/-- The platform's write at an address that does not exist (assumption 5). -/
theorem platformWrite_of_le (a : Nat) (v : Byte) (s : State) (ha : 2 ^ s.cfg.ab ≤ a) :
    platformWrite a v s = .fault .noSuchAddress := by
  simp [platformWrite, ha]

/-- Settles O26, by cases on what has arrived. -/
theorem consistentMachineNeverStops : Obligations.ConsistentMachineNeverStops := by
  intro s hc
  cases hin : s.inbox with
  | nil => exact .inl ⟨s, step_idle s hin⟩
  | cons item rest =>
    cases item with
    | frame f =>
      rw [step_frame s f rest hin]
      exact .inl (performFrame_progress f _ (by simpa using hc))
    | reset c => exact .inl ⟨_, step_reset s c rest hin⟩
    | snapshot => exact .inl ⟨_, step_snapshot s rest hin⟩
    | restore im => exact .inl ⟨_, step_restore s im rest hin⟩
    | backWrite a v =>
      rw [step_backWrite s a v rest hin]
      rcases Nat.lt_or_ge a (2 ^ s.cfg.ab) with ha | ha
      · exact .inl ⟨_, platformWrite_of_lt a v _ ha⟩
      · exact .inr ⟨a, v, rest, rfl, ha, platformWrite_of_le a v _ ha⟩

end Sys2Proof.Machine
end

section
/-! PROOFS. What a legal image is, unit by unit (spec/10_state.md R20, R26, R31, R37, R41, R42): the checks of
`Block.legal` sorted by the elements they read, so that a command of one unit has only its own unit's checks to keep. -/

namespace Sys2Proof.Machine

/-- R26 (b), (c), (d) with the types of R20, on HEAP and PRESENT: what does not depend on the order of the entries. -/
structure EntriesOk (c : Cfg) (heap : List Entry) (present : BitVec 8) : Prop where
  kind_le : ∀ k ∈ heap.map Entry.kind, k ≤ c.nk
  sentinel_mem : sentinel c ∈ heap
  kinds_nodup : (heap.map Entry.kind).Nodup
  present_iff : ∀ k, present.getLsbD k = true ↔ k < c.nk ∧ k ∈ heap.map Entry.kind

/-- R26 with the types of R20. The bounds on LEN (R26 (a)) follow: `EntriesOk.length_le`, `EntriesOk.length_pos`. -/
structure ScheduleOk (c : Cfg) (heap : List Entry) (present : BitVec 8) : Prop extends EntriesOk c heap present where
  ordered : heapOrdered heap = true

/-- R31 with the lengths of R20, on ACC, STALL and REFCNT. -/
structure ClockOk (c : Cfg) (acc stall : List W64) (refcnt : W64) : Prop where
  acc_length : acc.length = c.nd
  stall_length : stall.length = c.nd
  acc_lt : ∀ d, d < c.nd → (acc.getD d 0).toNat < c.div.getD d 0
  refcnt_off : c.refPeriod = 0 → refcnt = 0#64
  refcnt_lt : c.refPeriod ≠ 0 → refcnt.toNat < c.refPeriod - c.refSlack

/-- R37 with the widths of R20, on the prefetch unit's elements. -/
structure PrefetchOk (c : Cfg) (pfEn : Bool) (pfQ : List PfWord) (raddr waddr : W64) (active : Bool) (rem : W64) :
    Prop where
  length_le : pfQ.length ≤ c.pfN
  word_lt : ∀ w ∈ pfQ, w.toNat < 2 ^ (8 * c.pfWb)
  raddr_lt : raddr.toNat < 2 ^ c.ab
  waddr_lt : waddr.toNat < 2 ^ c.ab
  rem_of_idle : active = false → rem = 0#64
  waddr_eq : waddr.toNat = (raddr.toNat + pfQ.length * c.pfWb) % 2 ^ c.ab
  raddr_aligned : raddr.toNat % c.pfWb = 0
  waddr_aligned : waddr.toNat % c.pfWb = 0
  active_enabled : active = true → pfEn = true
  active_room : active = true → pfQ.length < c.pfN

/-- `PrefetchOk` of the elements of a block. -/
abbrev Block.EngineOk (c : Cfg) (b : Block) : Prop := PrefetchOk c b.pfEn b.pfQ b.raddr b.waddr b.active b.rem

/-- R41 with the widths of R20, on one sequence. -/
structure SequenceOk (c : Cfg) (q : List Stamp) : Prop where
  length_le : q.length ≤ c.xrCap
  value_lt : ∀ e ∈ q, e.value.toNat < 2 ^ c.vw
  cycles : q.Pairwise fun e e' => e.cycle < e'.cycle

/-- Every check of an image, by unit. Tied to `Block.legal` by `Block.legal_iff`. -/
structure Block.Invariants (c : Cfg) (b : Block) : Prop where
  schedule : ScheduleOk c b.heap b.present
  clock : ClockOk c b.acc b.stall b.refcnt
  bw_length : b.bw.length = c.nr
  engine : b.EngineOk c
  enable_lt : b.enable.toNat < 2 ^ c.ns
  flag_lt : b.flag.toNat < 2 ^ c.ns
  seq_length : b.seq.length = c.nx
  seq_ok : ∀ q ∈ b.seq, SequenceOk c q
  cause_ok : b.causeOk = true

/-! ### The schedule -/

/-- A live entry of kind k. -/
theorem hasKind_iff (h : List Entry) (k : Nat) : hasKind h k = true ↔ k ∈ h.map Entry.kind := by
  simp [hasKind]

/-- R26 (c), on the list of kinds. -/
theorem distinctKinds_iff_nodup (h : List Entry) : distinctKinds h = true ↔ (h.map Entry.kind).Nodup := by
  rw [distinctKinds_iff, List.Nodup, List.pairwise_map]
  simp only [ne_comm]

/-- A number is below `2^n` exactly when its bits from n up are 0. -/
theorem toNat_lt_two_pow_iff {w : Nat} (x : BitVec w) (n : Nat) :
    x.toNat < 2 ^ n ↔ ∀ j, n ≤ j → x.getLsbD j = false := by
  simp only [← BitVec.testBit_toNat]
  exact ⟨fun h j hj => Nat.testBit_lt_two_pow (h.trans_le (Nat.pow_le_pow_right (by decide) hj)),
    fun h => Nat.lt_pow_two_of_testBit _ fun j hj => h j hj⟩

/-- Entries of different kinds 0..NK are at most NK + 1 (R26 (a)). -/
theorem EntriesOk.length_le {c : Cfg} {h : List Entry} {p : BitVec 8} (ok : EntriesOk c h p) :
    h.length ≤ c.nk + 1 := by
  have hsub : h.map Entry.kind ⊆ List.range (c.nk + 1) := fun k hk =>
    List.mem_range.2 (Nat.lt_succ_of_le (ok.kind_le k hk))
  simpa using (List.subperm_of_subset ok.kinds_nodup hsub).length_le

/-- The sentinel is always live (R26 (a), (b)). -/
theorem EntriesOk.length_pos {c : Cfg} {h : List Entry} {p : BitVec 8} (ok : EntriesOk c h p) : 0 < h.length :=
  List.length_pos_of_mem ok.sentinel_mem

/-- PRESENT has NK bits, and bit k tells whether kind k is live (R20, R26 (d)). -/
theorem present_check_iff (c : Cfg) (h : List Entry) (p : BitVec 8) :
    (p.toNat < 2 ^ c.nk ∧ ∀ k, k < c.nk → isPresent p k = hasKind h k) ↔
      ∀ k, p.getLsbD k = true ↔ k < c.nk ∧ k ∈ h.map Entry.kind := by
  simp only [toNat_lt_two_pow_iff, isPresent, ← hasKind_iff]
  constructor
  · rintro ⟨hhigh, hlow⟩ k
    rcases Nat.lt_or_ge k c.nk with hk | hk
    · simp [hlow k hk, hk]
    · simp [hhigh k hk, Nat.not_lt.2 hk]
  · intro hbit
    refine ⟨fun k hk => ?_, fun k hk => ?_⟩
    · rw [← Bool.not_eq_true, hbit k]
      omega
    · rw [Bool.eq_iff_iff, hbit k]
      simp [hk]

/-! ### The image as a whole -/

/-- The check of REFCNT (R31). -/
theorem refcnt_check_iff (c : Cfg) (r : W64) :
    (if c.refPeriod = 0 then r == 0#64 else decide (r.toNat < c.refPeriod - c.refSlack)) = true ↔
      (c.refPeriod = 0 → r = 0#64) ∧ (c.refPeriod ≠ 0 → r.toNat < c.refPeriod - c.refSlack) := by
  by_cases hp : c.refPeriod = 0 <;> simp [hp]

/-- The checks of R302 are the invariants of the units. -/
theorem Block.legal_iff (c : Cfg) (b : Block) : b.legal c = true ↔ b.Invariants c := by
  have hpres := present_check_iff c b.heap b.present
  have href := refcnt_check_iff c b.refcnt
  simp only [Block.legal, Block.fits, Block.esOk, Block.cdOk, Block.pfInv, Block.xrOk, Bool.and_eq_true,
    List.all_eq_true, decide_eq_true_eq, beq_iff_eq, List.mem_range, List.contains_iff_mem, distinctKinds_iff_nodup,
    increasing_iff, href, Bool.or_eq_true, Bool.not_eq_true', and_assoc]
  constructor
  · rintro ⟨hkind, -, -, hpresLt, hacc, hstall, hbw, hlen, hword, hraddr, hwaddr, henable, hflag, hnx, hseq,
      hsent, hnodup, hpresEq, hord, haccLt, hoff, hlt, hrem, hweq, hralign, hwalign, hactive, hinc, hcause⟩
    exact {
      schedule := ⟨⟨List.forall_mem_map.2 hkind, hsent, hnodup, hpres.1 ⟨hpresLt, hpresEq⟩⟩, hord⟩
      clock := ⟨hacc, hstall, haccLt, hoff, hlt⟩
      bw_length := hbw
      engine := {
        length_le := hlen, word_lt := hword, raddr_lt := hraddr, waddr_lt := hwaddr
        rem_of_idle := fun ha => hrem.resolve_left (by simp [ha])
        waddr_eq := hweq, raddr_aligned := hralign, waddr_aligned := hwalign
        active_enabled := fun ha => (hactive.resolve_left (by simp [ha])).1
        active_room := fun ha => (hactive.resolve_left (by simp [ha])).2 }
      enable_lt := henable
      flag_lt := hflag
      seq_length := hnx
      seq_ok := fun q hq => ⟨(hseq q hq).1, (hseq q hq).2, hinc q hq⟩
      cause_ok := hcause }
  · rintro ⟨es, cd, hbw, pf, henable, hflag, hnx, hseq, hcause⟩
    obtain ⟨hpresLt, hpresEq⟩ := hpres.2 es.present_iff
    have hrem : b.active = true ∨ b.rem = 0#64 := by
      cases ha : b.active
      · exact .inr (pf.rem_of_idle ha)
      · exact .inl rfl
    have hactive : b.active = false ∨ (b.pfEn = true ∧ b.pfQ.length < c.pfN) := by
      cases ha : b.active
      · exact .inl rfl
      · exact .inr ⟨pf.active_enabled ha, pf.active_room ha⟩
    exact ⟨List.forall_mem_map.1 es.kind_le, es.length_pos, es.length_le, hpresLt, cd.acc_length, cd.stall_length, hbw,
      pf.length_le, pf.word_lt, pf.raddr_lt, pf.waddr_lt, henable, hflag, hnx,
      fun q hq => ⟨(hseq q hq).length_le, (hseq q hq).value_lt⟩, es.sentinel_mem, es.kinds_nodup, hpresEq, es.ordered,
      cd.acc_lt, cd.refcnt_off, cd.refcnt_lt, hrem, pf.waddr_eq, pf.raddr_aligned, pf.waddr_aligned, hactive,
      fun q hq => (hseq q hq).cycles, hcause⟩

/-- Taking a fault changes FAULT and CAUSE alone, and gives them a pair that R42 allows (60_exceptions.md R282). -/
theorem Block.Invariants.raised {c : Cfg} {b : Block} (inv : b.Invariants c) (f : Cause) :
    (b.raised f).Invariants c where
  __ := inv
  cause_ok := by cases f <;> rfl

end Sys2Proof.Machine
end

section
/-! PROOFS. What a valid configuration gives the elements (spec/00_scope.md R9), and the reset values (10_state.md
R46) under one. -/

namespace Sys2Proof

/-! ### The parameters that the invariants depend on -/

/-- The checks on DIV, REF_PERIOD and REF_SLACK. -/
theorem Cfg.clock_of_valid {c : Cfg} (h : c.valid = true) :
    c.nk ≤ 8 ∧ (∀ d ∈ c.div, 1 ≤ d) ∧ (c.refPeriod ≠ 0 → c.refSlack < c.refPeriod) := by
  simp only [Cfg.valid, Cfg.clockOk, Bool.and_eq_true, Bool.or_eq_true, decide_eq_true_eq, beq_iff_eq,
    List.all_eq_true, and_assoc] at h
  obtain ⟨-, hnk, -, -, hdiv, -, hslack, -⟩ := h
  exact ⟨hnk, fun d hd => (hdiv d hd).1, fun hp => hslack.resolve_left fun h0 => hp h0.1⟩

/-- The divider of a domain is positive. -/
theorem Cfg.div_pos_of_valid {c : Cfg} (h : c.valid = true) (d : Nat) (hd : d < c.nd) : 0 < c.div.getD d 0 := by
  obtain ⟨-, hdiv, -⟩ := Cfg.clock_of_valid h
  have hmem : c.div.getD d 0 ∈ c.div := by
    rw [List.getD_eq_getElem _ _ hd]
    exact List.getElem_mem hd
  exact hdiv _ hmem

/-- Addresses have at most 64 bits. -/
theorem Cfg.ab_le_of_valid {c : Cfg} (h : c.valid = true) : c.ab ≤ 64 := by
  simp only [Cfg.valid, Cfg.busOk, Bool.and_eq_true, decide_eq_true_eq, and_assoc] at h
  obtain ⟨-, -, hab, -⟩ := h
  exact hab

/-- The buffer holds a word. -/
theorem Cfg.pfN_pos_of_valid {c : Cfg} (h : c.valid = true) : 0 < c.pfN := by
  simp only [Cfg.valid, Cfg.pfOk, Bool.and_eq_true, decide_eq_true_eq, and_assoc] at h
  obtain ⟨-, -, hn, -⟩ := h
  exact hn

/-- The word size is a power of two that is at most PF_BOUNDARY and so divides the size of the address space: a word
never straddles its end. -/
theorem Cfg.pfWb_dvd_of_valid {c : Cfg} (h : c.valid = true) : c.pfWb ∣ 2 ^ c.ab := by
  simp only [Cfg.valid, Cfg.pfOk, Bool.and_eq_true, Bool.or_eq_true, decide_eq_true_eq, beq_iff_eq,
    isPow2UpTo_iff, and_assoc, or_assoc] at h
  obtain ⟨-, -, -, -, hwb, ⟨k, hk, hbound⟩, hle, -⟩ := h
  obtain ⟨j, hj⟩ : ∃ j, c.pfWb = 2 ^ j := by
    rcases hwb with hw | hw | hw
    · exact ⟨0, hw⟩
    · exact ⟨1, hw⟩
    · exact ⟨2, hw⟩
  rw [hj, hbound] at hle
  rw [hj]
  exact pow_dvd_pow 2 (((Nat.pow_le_pow_iff_right (by decide)).1 hle).trans hk)

end Sys2Proof

namespace Sys2Proof.Machine

/-! ### The reset values -/

/-- Only the sentinel is live and no kind is present. -/
theorem ScheduleOk.reset (c : Cfg) : ScheduleOk c [sentinel c] 0#8 where
  kind_le := by simp [sentinel]
  sentinel_mem := by simp
  kinds_nodup := by simp
  present_iff := fun k => by simp [sentinel]; omega
  ordered := rfl

/-- Every remainder and count is 0. -/
theorem ClockOk.reset {c : Cfg} (hv : c.valid = true) :
    ClockOk c (List.replicate c.nd 0#64) (List.replicate c.nd 0#64) 0#64 where
  acc_length := by simp
  stall_length := by simp
  acc_lt := fun d hd => by
    have := Cfg.div_pos_of_valid hv d hd
    simpa [hd] using this
  refcnt_off := fun _ => rfl
  refcnt_lt := fun hp => by
    obtain ⟨-, -, hslack⟩ := Cfg.clock_of_valid hv
    have := hslack hp
    simp only [BitVec.toNat_ofNat]
    omega

/-- The buffer is empty at address 0 and no fetch is in progress. -/
theorem PrefetchOk.reset (c : Cfg) (en : Bool) : PrefetchOk c en [] 0#64 0#64 false 0#64 := by
  constructor <;> simp

/-- No entry is stored. -/
theorem SequenceOk.nil (c : Cfg) : SequenceOk c [] := by
  constructor <;> simp

/-- The reset values under a valid CFG meet every invariant (10_state.md R46). -/
theorem Block.Invariants.reset {c : Cfg} (hv : c.valid = true) : (Block.reset c).Invariants c where
  schedule := ScheduleOk.reset c
  clock := ClockOk.reset hv
  bw_length := by simp [Cfg.nr]
  engine := PrefetchOk.reset c _
  enable_lt := by simp
  flag_lt := by simp
  seq_length := by simp
  seq_ok := fun q hq => by
    rw [List.eq_of_mem_replicate hq]
    exact SequenceOk.nil c
  cause_ok := rfl

/-- Under a valid CFG consistency is the store's canonical form and the invariants of the elements. -/
theorem State.consistent_iff_of_valid (s : State) (hv : s.cfg.valid = true) :
    s.consistent = true ↔ Memory.wf s.back = true ∧ s.blk.Invariants s.cfg := by
  simp [State.consistent, hv, Block.legal_iff]

/-- A machine under a valid CFG is consistent if its store and its elements are. -/
theorem State.consistent_of_valid {s : State} (hv : s.cfg.valid = true) (hwf : Memory.wf s.back = true)
    (inv : s.blk.Invariants s.cfg) : s.consistent = true :=
  (State.consistent_iff_of_valid s hv).2 ⟨hwf, inv⟩

/-- The configuration of the reset state is valid. -/
theorem cfgRef_valid : cfgRef.valid = true := by decide

/-- Settles O24, from the reset values under any valid CFG. -/
theorem resetStateIsSound : Obligations.ResetStateIsSound := by
  have hc : State.reset.consistent = true :=
    State.consistent_of_valid cfgRef_valid State.reset_back_wf (Block.Invariants.reset cfgRef_valid)
  have hrun : State.reset.blk.fault = false := rfl
  refine ⟨?_, ?_⟩
  · simp [State.sound, hc]
  · simp [State.running, State.shaped_of_consistent State.reset hc hrun]

end Sys2Proof.Machine
end

section
/-! PROOFS. What each command's effect leaves (spec/30_encoding.md R112): one inversion lemma per effect, and from them
the frame of every command (10_state.md R43). -/

namespace Sys2Proof.Machine

/-! ### The effects, inverted -/

/-- ES_INSERT moves a scheduled kind or adds a new entry (R134). -/
theorem esInsertEffect_ok {c : Cfg} {b b' : Block} {x : Idx} {t : W64} {r : Response}
    (h : esInsertEffect c b x t = .ok (b', r)) :
    idxNat x < c.nk ∧
      ((∃ i, findKind b.heap (idxNat x) = some i ∧ b' = { b with heap := updateDue b.heap i t }) ∨
        (b.present.getLsbD (idxNat x) = false ∧
          b' = { b with
            heap := (siftUp b.heap.length (b.heap ++ [⟨idxNat x, t⟩]) b.heap.length).1
            present := setPresent b.present (idxNat x) })) := by
  simp only [esInsertEffect] at h
  split at h
  · cases h
  · rename_i hk
    refine ⟨by simpa [kindInRange] using hk, ?_⟩
    split at h
    · split at h
      · cases h
      · cases h
        exact .inl ⟨_, by assumption, rfl⟩
    · rename_i hp
      cases h
      exact .inr ⟨by simpa [isPresent] using hp, rfl⟩

/-- ES_REMOVE takes out the entry of a scheduled kind (R135). -/
theorem esRemoveEffect_ok {c : Cfg} {b b' : Block} {x : Idx} {r : Response}
    (h : esRemoveEffect c b x = .ok (b', r)) :
    b' = b ∨ (idxNat x < c.nk ∧ ∃ i, findKind b.heap (idxNat x) = some i ∧ b' = removeAt b i) := by
  simp only [esRemoveEffect] at h
  split at h
  · cases h
  · rename_i hk
    split at h
    · split at h
      · cases h
      · cases h
        exact .inr ⟨by simpa [kindInRange] using hk, _, by assumption, rfl⟩
    · cases h
      exact .inl rfl

/-- ES_POP takes out the root when it is due and no sentinel (R137). -/
theorem esPopEffect_ok {c : Cfg} {b b' : Block} {now : W64} {r : Response}
    (h : esPopEffect c b now = .ok (b', r)) :
    b' = b ∨ ((slot b.heap 0).kind ≠ c.nk ∧ b' = removeAt b 0) := by
  simp only [esPopEffect] at h
  split at h
  · rename_i hready
    simp only [rootReady, Bool.and_eq_true, bne_iff_ne] at hready
    obtain ⟨hkind, -⟩ := hready
    cases h
    exact .inr ⟨hkind, rfl⟩
  · cases h
    exact .inl rfl

/-- CD_ADVANCE, when no stall overflows (R163). -/
theorem cdAdvanceEffect_ok {c : Cfg} {b b' : Block} {long : Bool} {mc : W64} {r : Response}
    (h : cdAdvanceEffect c b long mc = .ok (b', r)) :
    ∃ stallOut : Nat → W64, b' = { b with
      refcnt := toW64 (periodic c b mc.toNat long).2
      acc := (List.range c.nd).map fun d => toW64 (convertRest c b mc.toNat d)
      stall := (List.range c.nd).map stallOut } := by
  simp only [cdAdvanceEffect] at h
  split at h
  · cases h
  · cases h
    exact ⟨_, rfl⟩

/-- CD_BUSGRANT records two stalls and turns TOGGLE (R165). -/
theorem cdBusgrantEffect_ok {c : Cfg} {b b' : Block} {x : Idx} {r : Response}
    (h : cdBusgrantEffect c b x = .ok (b', r)) :
    ∃ pri sec : W64, b' = { b with stall := (b.stall.set 0 pri).set (idxNat x) sec, toggle := !b.toggle } := by
  simp only [cdBusgrantEffect] at h
  split at h
  · cases h
  · split at h
    · cases h
    · cases h
      exact ⟨_, _, rfl⟩

/-- BT_COST is a query (R191). -/
theorem btCostEffect_ok {c : Cfg} {b b' : Block} {w : BitVec 2} {seq : Bool} {a : W64} {r : Response}
    (h : btCostEffect c b w seq a = .ok (b', r)) : b' = b := by
  unfold btCostEffect at h
  split at h
  · cases h
  · split at h
    · cases h
    · cases h
      rfl

/-- BT_SETBW writes one bit (R193). -/
theorem btSetbwEffect_ok {c : Cfg} {b b' : Block} {x : Idx} {bit : Bool} {r : Response}
    (h : btSetbwEffect c b x bit = .ok (b', r)) : b' = { b with bw := b.bw.set (idxNat x) bit } := by
  unfold btSetbwEffect at h
  split at h
  · cases h
  · cases h
    rfl

/-- BT_SETPF enables, or disables and abandons the fetch (R205). -/
theorem btSetpfEffect_ok {b b' : Block} {en : Bool} {r : Response} (h : btSetpfEffect b en = .ok (b', r)) :
    b' = { b with pfEn := true } ∨ b' = { b with pfEn := false, active := false, rem := 0#64 } := by
  unfold btSetpfEffect at h
  split at h
  · cases h
    exact .inl rfl
  · cases h
    exact .inr rfl

/-- PF_PREPARE has its effect only at a good address (R200, R207). -/
theorem pfPrepareEffect_ok {c : Cfg} {m : Memory} {b b' : Block} {a : W64} {r : Response}
    (h : pfPrepareEffect c m b a = .ok (b', r)) :
    a.toNat < 2 ^ c.ab ∧ a.toNat % c.pfWb = 0 ∧ b' = (prepare c m b a).1 := by
  unfold pfPrepareEffect at h
  rcases checkPfAddress_cases c a with ⟨hchk, hlt, halign⟩ | ⟨hchk, -⟩ | ⟨hchk, -⟩ <;> rw [hchk] at h
  · exact ⟨hlt, halign, (congrArg Prod.fst (Except.ok.inj h)).symm⟩
  · cases h
  · cases h

/-- PF_READ reads a word, once its address is good (R202, R207). -/
theorem pfReadEffect_ok {c : Cfg} {b b' : Block} {a : W64} {r : Response}
    (h : pfReadEffect c b a = .ok (b', r)) : b' = (readWord c b a).1 := by
  unfold pfReadEffect at h
  rcases checkPfAddress_cases c a with ⟨hchk, -⟩ | ⟨hchk, -⟩ | ⟨hchk, -⟩ <;> rw [hchk] at h
  · exact (congrArg Prod.fst (Except.ok.inj h)).symm
  · cases h
  · cases h

/-- XR_WRITE has its effect only on a register and a value in range (R260, R262). -/
theorem xrWriteEffect_ok {c : Cfg} {b b' : Block} {x : Idx} {t v : W64} {r : Response}
    (h : xrWriteEffect c b x t v = .ok (b', r)) :
    idxNat x < c.nx ∧ v.toNat < 2 ^ c.vw ∧
      b' = { b with seq := b.seq.set (idxNat x) (evict c.xrCap (putStamp ⟨t, v⟩ (seqOf b (idxNat x)))) } := by
  simp only [xrWriteEffect] at h
  split at h
  · cases h
  · rename_i hx
    split at h
    · cases h
    · rename_i hval
      cases h
      exact ⟨by simpa [registerInRange] using hx, by simpa [valueInRange] using hval, rfl⟩

/-- XR_READ is a query (R261). -/
theorem xrReadEffect_ok {c : Cfg} {b b' : Block} {x : Idx} {t : W64} {r : Response}
    (h : xrReadEffect c b x t = .ok (b', r)) : b' = b := by
  unfold xrReadEffect at h
  split at h
  · cases h
  · cases h
    rfl

/-! ### The operations of the prefetch unit, by cases -/

/-- PF_PREPARE at a good address: a buffer hit changes nothing, a hit on a fetch in progress completes it, and a miss
restarts the unit and completes the first fetch (R200). -/
theorem prepare_cases (c : Cfg) (m : Memory) (b : Block) (a : W64) :
    (prepare c m b a).1 = b ∨ (b.pfQ = [] ∧ (prepare c m b a).1 = completeFetch c m b) ∨
      (prepare c m b a).1 = completeFetch c m (b.restartAt a) := by
  unfold prepare
  split
  · exact .inl rfl
  · rename_i hmiss
    split
    · rename_i hhit
      simp only [Block.pfHits, Bool.and_eq_true] at hhit
      obtain ⟨haddr, -⟩ := hhit
      refine .inr (.inl ⟨?_, rfl⟩)
      simpa [haddr, Block.pfEmpty] using hmiss
    · exact .inr (.inr rfl)

/-- PF_READ at a good address: it pops the head word, and may resume the engine, or changes nothing (R202). -/
theorem readWord_cases (c : Cfg) (b : Block) (a : W64) :
    (readWord c b a).1 = b ∨
      ∃ w q, b.pfQ = w :: q ∧ (readWord c b a).1 = resume c { b with pfQ := q, raddr := nextWord c b.raddr } := by
  unfold readWord
  split
  · exact .inl rfl
  · rename_i w q hq
    split
    · exact .inr ⟨w, q, hq, rfl⟩
    · exact .inl rfl

/-- Resuming starts a fetch of an enabled engine on an empty buffer, or changes nothing (R203). -/
theorem resume_cases (c : Cfg) (b : Block) :
    resume c b = b ∨ (b.pfQ = [] ∧ b.pfEn = true ∧ resume c b = b.fetching (latN c b b.waddr)) := by
  unfold resume
  split
  · rename_i hres
    simp only [Bool.and_eq_true, Block.pfEmpty, List.isEmpty_iff] at hres
    obtain ⟨⟨hempty, -⟩, hen⟩ := hres
    exact .inr ⟨hempty, hen, rfl⟩
  · exact .inl rfl

/-- The prefetch unit's elements may have changed, but for PF_EN, which its commands do not write; nothing else did. -/
def OnlyEngine (b b' : Block) : Prop :=
  ∃ pfQ raddr waddr active rem, b' = { b with pfQ, raddr, waddr, active, rem }

/-- PF_PREPARE changes the engine's elements only. -/
theorem prepare_onlyEngine (c : Cfg) (m : Memory) (b : Block) (a : W64) : OnlyEngine b (prepare c m b a).1 := by
  rcases prepare_cases c m b a with h | ⟨-, h⟩ | h <;> rw [h]
  · exact ⟨_, _, _, _, _, rfl⟩
  · obtain ⟨q, w, act, rem, hfetch⟩ := completeFetch_frame c m b
    exact ⟨q, b.raddr, w, act, rem, hfetch⟩
  · obtain ⟨q, w, act, rem, hfetch⟩ := completeFetch_frame c m (b.restartAt a)
    exact ⟨q, a, w, act, rem, hfetch⟩

/-- PF_READ changes the engine's elements only. -/
theorem readWord_onlyEngine (c : Cfg) (b : Block) (a : W64) : OnlyEngine b (readWord c b a).1 := by
  rcases readWord_cases c b a with h | ⟨w, q, -, h⟩ <;> rw [h]
  · exact ⟨_, _, _, _, _, rfl⟩
  · rcases resume_cases c { b with pfQ := q, raddr := nextWord c b.raddr } with hres | ⟨-, -, hres⟩ <;> rw [hres]
    · exact ⟨q, nextWord c b.raddr, _, _, _, rfl⟩
    · exact ⟨q, nextWord c b.raddr, _, true, toW64 _, rfl⟩

/-- PF_ADVANCE changes the engine's elements only. -/
theorem runEngine_onlyEngine (c : Cfg) (m : Memory) (fuel : Nat) (b : Block) (n : Nat) :
    OnlyEngine b (runEngine c m fuel b n) := by
  obtain ⟨q, w, act, rem, hrun⟩ := runEngine_frame c m fuel b n
  exact ⟨q, b.raddr, w, act, rem, hrun⟩

/-! ### The frame -/

/-- The change that a command may make to the elements: those of its own unit, and by BT_SETBW and BT_SETPF the ones
that they are there to write (R43, R101), or FAULT and CAUSE (60_exceptions.md R282). -/
inductive Touches (b : Block) : Instr → Block → Prop
  | nothing (i : Instr) : Touches b i b
  | fault (i : Instr) (f : Cause) : Touches b i (b.raised f)
  | es {i : Instr} (hu : unitOf i = .es) (heap : List Entry) (present : BitVec 8) :
    Touches b i { b with heap, present }
  | cd {i : Instr} (hu : unitOf i = .cd) (acc stall : List W64) (toggle : Bool) (refcnt : W64) :
    Touches b i { b with acc, stall, toggle, refcnt }
  | setbw (x : Idx) (bit : Bool) (bw : List Bool) : Touches b (.btSetbw x bit) { b with bw }
  | setpf (en pfEn active : Bool) (rem : W64) : Touches b (.btSetpf en) { b with pfEn, active, rem }
  | pf {i : Instr} {b' : Block} (hu : unitOf i = .pf) (hb : OnlyEngine b b') : Touches b i b'
  | ia {i : Instr} (hu : unitOf i = .ia) (enable flag : W64) : Touches b i { b with enable, flag }
  | xr {i : Instr} (hu : unitOf i = .xr) (seq : List (List Stamp)) : Touches b i { b with seq }

/-- Whatever a command's effect leaves, it touched its own unit only. -/
theorem effectOf_touches {c : Cfg} {m : Memory} {b b' : Block} {i : Instr} {r : Response}
    (h : effectOf c m b i = .ok (b', r)) : Touches b i b' := by
  cases i with
  | esInsert kind due =>
    obtain ⟨-, ⟨j, -, rfl⟩ | ⟨-, rfl⟩⟩ := esInsertEffect_ok h
    · exact .es rfl _ b.present
    · exact .es rfl _ _
  | esRemove kind =>
    obtain rfl | ⟨-, j, -, rfl⟩ := esRemoveEffect_ok h
    · exact .nothing _
    · exact .es rfl _ _
  | esReady now => cases h; exact .nothing _
  | esPop now =>
    obtain rfl | ⟨-, rfl⟩ := esPopEffect_ok h
    · exact .nothing _
    · exact .es rfl _ _
  | cdAdvance long mc =>
    obtain ⟨stallOut, rfl⟩ := cdAdvanceEffect_ok h
    exact .cd rfl _ _ b.toggle _
  | cdBusgrant d =>
    obtain ⟨pri, sec, rfl⟩ := cdBusgrantEffect_ok h
    exact .cd rfl b.acc _ _ b.refcnt
  | btCost w seq addr =>
    obtain rfl := btCostEffect_ok h
    exact .nothing _
  | btSetbw x bit =>
    obtain rfl := btSetbwEffect_ok h
    exact .setbw x bit _
  | btSetpf en =>
    obtain rfl | rfl := btSetpfEffect_ok h
    · exact .setpf en true b.active b.rem
    · exact .setpf en false false 0#64
  | pfPrepare addr =>
    obtain ⟨-, -, rfl⟩ := pfPrepareEffect_ok h
    exact .pf rfl (prepare_onlyEngine c m b addr)
  | pfRead addr =>
    obtain rfl := pfReadEffect_ok h
    exact .pf rfl (readWord_onlyEngine c b addr)
  | pfAdvance cycles =>
    cases h
    exact .pf rfl (runEngine_onlyEngine c m (c.pfN + 1) b cycles.toNat)
  | iaSetflag src => cases h; exact .ia rfl b.enable _
  | iaWrenable mask => cases h; exact .ia rfl _ b.flag
  | iaWrflagclr mask => cases h; exact .ia rfl b.enable _
  | iaHpp => cases h; exact .nothing _
  | iaAck src => cases h; exact .ia rfl b.enable _
  | xrWrite x cycle value =>
    obtain ⟨-, -, rfl⟩ := xrWriteEffect_ok h
    exact .xr rfl _
  | xrRead x asOf =>
    obtain rfl := xrReadEffect_ok h
    exact .nothing _

/-- A command's next state: the elements as they were, with a fault taken, or as its effect leaves them. -/
theorem exec_blk_cases {i : Instr} {s t : State} (h : exec i s = .next t) :
    t.blk = s.blk ∨ (s.blk.fault = false ∧ ∃ f, t.blk = s.blk.raised f) ∨
      (s.blk.fault = false ∧ ∃ r, effectOf s.cfg s.back s.blk i = .ok (t.blk, r)) := by
  rw [exec_eq_serve] at h
  rcases serve_next s t _ h with ⟨-, rfl⟩ | ⟨hf, -, b, r, heff, rfl⟩ | ⟨hf, -, f, -, rfl⟩
  · exact .inl rfl
  · exact .inr (.inr ⟨hf, r, heff⟩)
  · exact .inr (.inl ⟨hf, f, rfl⟩)

/-- Every command touches its own unit only. -/
theorem exec_touches {i : Instr} {s t : State} (h : exec i s = .next t) : Touches s.blk i t.blk := by
  rcases exec_blk_cases h with hb | ⟨-, f, hb⟩ | ⟨-, r, heff⟩
  · rw [hb]
    exact .nothing i
  · rw [hb]
    exact .fault i f
  · exact effectOf_touches heff

/-- Settles O13, by the kinds of change that a command may make. -/
theorem commandsTouchOnlyTheirOwnUnit : Obligations.CommandsTouchOnlyTheirOwnUnit := by
  intro i s t h
  obtain ⟨hcfg, hback, hinbox, hdrawn⟩ := serve_frame s t _ ((exec_eq_serve i s).symm.trans h)
  refine ⟨hcfg, hinbox, hdrawn, fun a => by rw [hback], ?_⟩
  have htouch := exec_touches h
  generalize t.blk = b' at htouch
  cases htouch with
  | nothing => simp
  | fault f => simp
  | es hu heap present => simp [hu]
  | cd hu acc stall toggle refcnt => simp [hu]
  | setbw x bit bw => simp
  | setpf en pfEn active rem => simp
  | pf hu hb =>
    obtain ⟨pfQ, raddr, waddr, active, rem, rfl⟩ := hb
    simp [hu]
  | ia hu enable flag => simp [hu]
  | xr hu seq => simp [hu]

end Sys2Proof.Machine
end

section
/-! PROOFS. Every step keeps the invariant (spec/10_state.md R26, R31, R37, R41, R42): first what each unit's operations
keep of their own elements, then the effects of the commands, then whatever arrives. -/

namespace Sys2Proof.Machine

/-! ### Event Scheduler (R26, 40_event_scheduler.md R140) -/

/-- The bits of PRESENT after `PRESENT[k] <- 1` (R134). -/
theorem setPresent_bit (p : BitVec 8) (k j : Nat) (hk : k < 8) :
    (setPresent p k).getLsbD j = true ↔ j = k ∨ p.getLsbD j = true := by
  have hone : (1#8 <<< k).getLsbD j = (decide (k < 8) && decide (k = j)) := BitVec.getLsbD_twoPow k j
  simp only [setPresent, BitVec.getLsbD_or, hone, hk, Bool.or_eq_true, decide_true, Bool.true_and, decide_eq_true_eq,
    eq_comm (a := k), or_comm]

/-- The bits of PRESENT after `PRESENT[k] <- 0` (R138). -/
theorem clearPresent_bit (p : BitVec 8) (k j : Nat) :
    (clearPresent p k).getLsbD j = true ↔ p.getLsbD j = true ∧ j ≠ k := by
  have hone : (1#8 <<< k).getLsbD j = (decide (k < 8) && decide (k = j)) := BitVec.getLsbD_twoPow k j
  simp only [clearPresent, BitVec.getLsbD_and, BitVec.getLsbD_not, hone, Bool.and_eq_true]
  refine and_congr_right fun hj => ?_
  have hj8 : j < 8 := BitVec.lt_of_getLsbD hj
  by_cases hkj : k = j
  · simp [hkj, hj8]
  · simp [hkj, hj8, Ne.symm hkj]

/-- What does not depend on the order of the entries holds of every arrangement of them. -/
theorem EntriesOk.of_perm {c : Cfg} {h h' : List Entry} {p : BitVec 8} (ok : EntriesOk c h p) (hp : h'.Perm h) :
    EntriesOk c h' p where
  kind_le := fun k hk => ok.kind_le k ((hp.map _).mem_iff.1 hk)
  sentinel_mem := hp.mem_iff.2 ok.sentinel_mem
  kinds_nodup := (hp.map _).nodup_iff.2 ok.kinds_nodup
  present_iff := fun k => by rw [ok.present_iff, (hp.map _).mem_iff]

/-- An entry other than the sentinel may take any due cycle. -/
theorem EntriesOk.retime {c : Cfg} {e : Entry} {h : List Entry} {p : BitVec 8} (ok : EntriesOk c (e :: h) p)
    (he : e.kind ≠ c.nk) (t : W64) : EntriesOk c (⟨e.kind, t⟩ :: h) p where
  kind_le := ok.kind_le
  sentinel_mem := by
    rcases List.mem_cons.1 ok.sentinel_mem with rfl | hmem
    · exact absurd rfl he
    · exact List.mem_cons_of_mem _ hmem
  kinds_nodup := ok.kinds_nodup
  present_iff := ok.present_iff

/-- A new entry of a kind that is not scheduled. -/
theorem EntriesOk.add {c : Cfg} {h : List Entry} {p : BitVec 8} (ok : EntriesOk c h p) (hnk : c.nk ≤ 8) (k : Nat)
    (hk : k < c.nk) (hp : p.getLsbD k = false) (t : W64) : EntriesOk c (⟨k, t⟩ :: h) (setPresent p k) where
  kind_le := fun j hj => by
    rcases List.mem_cons.1 hj with rfl | hj
    · exact hk.le
    · exact ok.kind_le j hj
  sentinel_mem := List.mem_cons_of_mem _ ok.sentinel_mem
  kinds_nodup := by
    refine List.nodup_cons.2 ⟨fun hmem => ?_, ok.kinds_nodup⟩
    have := (ok.present_iff k).2 ⟨hk, hmem⟩
    simp [hp] at this
  present_iff := fun j => by
    rw [setPresent_bit p k j (by omega), ok.present_iff, List.map_cons, List.mem_cons]
    constructor
    · rintro (rfl | ⟨hj, hmem⟩)
      · exact ⟨hk, .inl rfl⟩
      · exact ⟨hj, .inr hmem⟩
    · rintro ⟨hj, heq | hmem⟩
      · exact .inl heq
      · exact .inr ⟨hj, hmem⟩

/-- Without an entry other than the sentinel, and its bit of PRESENT. -/
theorem EntriesOk.drop {c : Cfg} {e : Entry} {h : List Entry} {p : BitVec 8} (ok : EntriesOk c (e :: h) p)
    (he : e.kind ≠ c.nk) : EntriesOk c h (clearPresent p e.kind) := by
  obtain ⟨hnotin, hnodup⟩ := List.nodup_cons.1 ok.kinds_nodup
  refine ⟨fun k hk => ok.kind_le k (List.mem_cons_of_mem _ hk), ?_, hnodup, fun k => ?_⟩
  · rcases List.mem_cons.1 ok.sentinel_mem with rfl | hmem
    · exact absurd rfl he
    · exact hmem
  · rw [clearPresent_bit, ok.present_iff, List.map_cons, List.mem_cons]
    constructor
    · rintro ⟨⟨hk, heq | hmem⟩, hne⟩
      · exact absurd heq hne
      · exact ⟨hk, hmem⟩
    · rintro ⟨hk, hmem⟩
      exact ⟨⟨hk, .inr hmem⟩, fun heq => hnotin (heq ▸ hmem)⟩

/-- A live entry and the others. -/
theorem EntriesOk.split {c : Cfg} {h : List Entry} {p : BitVec 8} (ok : EntriesOk c h p) (i : Nat) (hi : i < h.length) :
    EntriesOk c (slot h i :: h.eraseIdx i) p := by
  rw [slot_of_lt h i hi]
  exact ok.of_perm (List.getElem_cons_eraseIdx_perm hi)

/-- The update of a due cycle (R134). -/
theorem ScheduleOk.updateDue {c : Cfg} {h : List Entry} {p : BitVec 8} (ok : ScheduleOk c h p) (i : Nat)
    (hi : i < h.length) (he : (slot h i).kind ≠ c.nk) (t : W64) : ScheduleOk c (updateDue h i t) p where
  toEntriesOk := ((ok.split i hi).retime he t).of_perm
    ((updateDue_perm h i t hi).trans (List.set_perm_cons_eraseIdx hi _))
  ordered := updateDue_ordered h i t hi ok.ordered

/-- The insertion of a new entry (R134). -/
theorem ScheduleOk.insert {c : Cfg} {h : List Entry} {p : BitVec 8} (ok : ScheduleOk c h p) (hnk : c.nk ≤ 8) (k : Nat)
    (hk : k < c.nk) (hp : p.getLsbD k = false) (t : W64) :
    ScheduleOk c (siftUp h.length (h ++ [⟨k, t⟩]) h.length).1 (setPresent p k) where
  toEntriesOk := (ok.add hnk k hk hp t).of_perm
    ((siftUp_perm _ _ _ (by simp)).trans (List.perm_append_singleton _ _))
  ordered := insert_ordered h _ ok.ordered

/-- `remove_at(i)` of a slot other than the sentinel's (R138). -/
theorem ScheduleOk.removeAt {c : Cfg} {b : Block} (ok : ScheduleOk c b.heap b.present) (i : Nat)
    (hi : i < b.heap.length) (he : (slot b.heap i).kind ≠ c.nk) :
    ScheduleOk c (removeAt b i).heap (removeAt b i).present where
  toEntriesOk := ((ok.split i hi).drop he).of_perm (refill_perm b.heap i hi)
  ordered := refill_ordered b.heap i hi ok.ordered

/-! ### Clock Domain Converter (R31) -/

/-- A number narrowed to a field does not grow. -/
theorem toW64_toNat_le (n : Nat) : (toW64 n).toNat ≤ n := by
  simp only [toW64, BitVec.toNat_ofNat]
  exact Nat.mod_le _ _

/-- The new REFCNT is 0 without a period, and below the threshold with one (R164). -/
theorem periodic_rest {c : Cfg} (hv : c.valid = true) (b : Block) (m : Nat) (long : Bool) :
    (c.refPeriod = 0 → (periodic c b m long).2 = 0) ∧
      (c.refPeriod ≠ 0 → (periodic c b m long).2 < c.refPeriod - c.refSlack) := by
  refine ⟨fun hp => by rw [periodic_of_off c b m long hp], fun hp => ?_⟩
  obtain ⟨-, -, hslack⟩ := Cfg.clock_of_valid hv
  have hth : 0 < periodThreshold c := Nat.sub_pos_of_lt (hslack hp)
  simp only [periodic, hp, if_false]
  exact Nat.mod_lt _ hth

/-- CD_ADVANCE leaves every remainder below its divider (R31, R161). -/
theorem ClockOk.advance {c : Cfg} (hv : c.valid = true) (b : Block) (m : Nat) (long : Bool) (stallOut : Nat → W64) :
    ClockOk c ((List.range c.nd).map fun d => toW64 (convertRest c b m d)) ((List.range c.nd).map stallOut)
      (toW64 (periodic c b m long).2) where
  acc_length := by simp
  stall_length := by simp
  acc_lt := fun d hd => by
    have hrest : convertRest c b m d < c.div.getD d 0 := convertRest_lt c b m d (Cfg.div_pos_of_valid hv d hd)
    simpa [hd] using (toW64_toNat_le _).trans_lt hrest
  refcnt_off := fun hp => by rw [(periodic_rest hv b m long).1 hp]; rfl
  refcnt_lt := fun hp => (toW64_toNat_le _).trans_lt ((periodic_rest hv b m long).2 hp)

/-! ### Prefetch unit (R37, 42_bus_timing_prefetch.md R206) -/

/-- `nextWord` on the numbers, for any valid AB. -/
theorem nextWord_toNat {c : Cfg} (hv : c.valid = true) (a : W64) :
    (nextWord c a).toNat = (a.toNat + c.pfWb) % 2 ^ c.ab := by
  have hle : 2 ^ c.ab ≤ 2 ^ 64 := Nat.pow_le_pow_right (by decide) (Cfg.ab_le_of_valid hv)
  exact toW64_toNat _ ((Nat.mod_lt _ (by positivity)).trans_le hle)

/-- The next word's address exists. -/
theorem nextWord_lt {c : Cfg} (hv : c.valid = true) (a : W64) : (nextWord c a).toNat < 2 ^ c.ab := by
  rw [nextWord_toNat hv]
  exact Nat.mod_lt _ (by positivity)

/-- The next word is aligned if this one is, also around the end of the address space. -/
theorem nextWord_aligned {c : Cfg} (hv : c.valid = true) (a : W64) (ha : a.toNat % c.pfWb = 0) :
    (nextWord c a).toNat % c.pfWb = 0 := by
  rw [nextWord_toNat hv, Nat.mod_mod_of_dvd _ (Cfg.pfWb_dvd_of_valid hv), Nat.add_mod_right, ha]

/-- A word of the store has PF_WB bytes (10_state.md R34). -/
theorem memRead_lt (c : Cfg) (m : Memory) (a : W64) : (memRead c m a).toNat < 2 ^ (8 * c.pfWb) := by
  simp only [memRead, BitVec.toNat_ofNat]
  exact (Nat.mod_le _ _).trans_lt (Memory.readLE_lt m a.toNat c.pfWb)

/-- A fetch that completes while there is room for its word (R198). -/
theorem Block.EngineOk.completeFetch {c : Cfg} {b : Block} (hv : c.valid = true) (ok : b.EngineOk c) (m : Memory)
    (hroom : b.pfQ.length < c.pfN) : (completeFetch c m b).EngineOk c where
  length_le := by simpa using hroom
  word_lt := by
    simp only [completeFetch_pfQ, List.forall_mem_append, List.forall_mem_singleton]
    exact ⟨ok.word_lt, memRead_lt c m b.waddr⟩
  raddr_lt := by simpa using ok.raddr_lt
  waddr_lt := by simpa using nextWord_lt hv b.waddr
  rem_of_idle := cont_rem c _
  waddr_eq := by
    simp only [completeFetch_waddr, completeFetch_raddr, completeFetch_pfQ, List.length_append, List.length_singleton]
    rw [nextWord_toNat hv, ok.waddr_eq, Nat.mod_add_mod, Nat.add_mul, Nat.one_mul, Nat.add_assoc]
  raddr_aligned := by simpa using ok.raddr_aligned
  waddr_aligned := by simpa using nextWord_aligned hv b.waddr ok.waddr_aligned
  active_enabled := fun ha => by simpa using (completeFetch_active c m b ha).1
  active_room := fun ha => by simpa using (completeFetch_active c m b ha).2

/-- The unit restarted at a good address (R200). -/
theorem Block.EngineOk.restartAt {c : Cfg} (b : Block) (a : W64) (ha : a.toNat < 2 ^ c.ab)
    (halign : a.toNat % c.pfWb = 0) : (b.restartAt a).EngineOk c := by
  constructor <;> simp [ha, halign, Nat.mod_eq_of_lt]

/-- PF_PREPARE at a good address (R200). -/
theorem Block.EngineOk.prepare {c : Cfg} {b : Block} (hv : c.valid = true) (ok : b.EngineOk c) (m : Memory) (a : W64)
    (ha : a.toNat < 2 ^ c.ab) (halign : a.toNat % c.pfWb = 0) : (prepare c m b a).1.EngineOk c := by
  have hpos := Cfg.pfN_pos_of_valid hv
  rcases prepare_cases c m b a with h | ⟨hempty, h⟩ | h <;> rw [h]
  · exact ok
  · exact ok.completeFetch hv m (by simpa [hempty] using hpos)
  · exact (Block.EngineOk.restartAt b a ha halign).completeFetch hv m (by simpa using hpos)

/-- The head word taken off the buffer (R202). -/
theorem Block.EngineOk.pop {c : Cfg} {b : Block} (hv : c.valid = true) (ok : b.EngineOk c) (w : PfWord)
    (q : List PfWord) (hq : b.pfQ = w :: q) :
    Block.EngineOk c { b with pfQ := q, raddr := nextWord c b.raddr } := by
  have hlen : b.pfQ.length = q.length + 1 := by simp [hq]
  exact {
    length_le := by have := ok.length_le; simp only; omega
    word_lt := fun v hmem => ok.word_lt v (by simp [hq, show v ∈ q from hmem])
    raddr_lt := nextWord_lt hv b.raddr
    waddr_lt := ok.waddr_lt
    rem_of_idle := ok.rem_of_idle
    waddr_eq := by
      have hcomm : b.raddr.toNat + (q.length * c.pfWb + c.pfWb) = b.raddr.toNat + c.pfWb + q.length * c.pfWb := by omega
      simp only [nextWord_toNat hv, Nat.mod_add_mod]
      rw [ok.waddr_eq, hlen, Nat.add_mul, Nat.one_mul, hcomm]
    raddr_aligned := nextWord_aligned hv b.raddr ok.raddr_aligned
    waddr_aligned := ok.waddr_aligned
    active_enabled := ok.active_enabled
    active_room := fun hact => by have := ok.active_room hact; simp only; omega }

/-- Resuming an enabled engine on an empty buffer (R203). -/
theorem Block.EngineOk.resume {c : Cfg} {b : Block} (hv : c.valid = true) (ok : b.EngineOk c) :
    (resume c b).EngineOk c := by
  rcases resume_cases c b with h | ⟨hempty, hen, h⟩ <;> rw [h]
  · exact ok
  · exact { ok with
      rem_of_idle := fun hact => by simp at hact
      active_enabled := fun _ => hen
      active_room := fun _ => by simpa [hempty] using Cfg.pfN_pos_of_valid hv }

/-- PF_READ (R202). -/
theorem Block.EngineOk.readWord {c : Cfg} {b : Block} (hv : c.valid = true) (ok : b.EngineOk c) (a : W64) :
    (readWord c b a).1.EngineOk c := by
  rcases readWord_cases c b a with h | ⟨w, q, hq, h⟩ <;> rw [h]
  · exact ok
  · exact (ok.pop hv w q hq).resume hv

/-- The loop of PF_ADVANCE: an active engine always has room for the word it fetches (R204, R37 (e)). -/
theorem Block.EngineOk.runEngine {c : Cfg} (hv : c.valid = true) (m : Memory) (fuel : Nat) (b : Block)
    (ok : b.EngineOk c) (n : Nat) : (runEngine c m fuel b n).EngineOk c := by
  induction fuel generalizing b n with
  | zero => exact ok
  | succ fuel ih =>
    unfold Machine.runEngine
    split
    · exact ok
    · rename_i hgo
      have hact : b.active = true := by
        simp only [Bool.or_eq_true, Bool.not_eq_true', not_or, Bool.not_eq_false] at hgo
        exact hgo.2
      split
      · exact { ok with rem_of_idle := fun hidle => by simp [hact] at hidle }
      · exact ih _ (ok.completeFetch hv m (ok.active_room hact)) _

/-! ### Interrupt Priority Arbiter (10_state.md R38) -/

/-- A mask cut to the sources that exist. -/
theorem and_validSources_lt (c : Cfg) (m : W64) : (m &&& validSources c).toNat < 2 ^ c.ns := by
  have hvalid : (validSources c).toNat < 2 ^ c.ns := by
    simp only [validSources, BitVec.toNat_ofNat]
    exact (Nat.mod_le _ _).trans_lt (Nat.sub_lt (by positivity) Nat.one_pos)
  rw [BitVec.toNat_and]
  exact Nat.and_lt_two_pow _ hvalid

/-- Setting flags of sources that exist. -/
theorem or_lt_of_lt {x y : W64} {n : Nat} (hx : x.toNat < 2 ^ n) (hy : y.toNat < 2 ^ n) :
    (x ||| y).toNat < 2 ^ n := by
  rw [BitVec.toNat_or]
  exact Nat.or_lt_two_pow hx hy

/-- Clearing flags. -/
theorem and_lt_of_lt {x : W64} {n : Nat} (hx : x.toNat < 2 ^ n) (y : W64) : (x &&& y).toNat < 2 ^ n := by
  rw [BitVec.toNat_and]
  exact Nat.and_le_left.trans_lt hx

/-! ### Time-Ordered Registers (R41) -/

/-- A write and the eviction after it (R260). -/
theorem SequenceOk.write {c : Cfg} {q : List Stamp} (ok : SequenceOk c q) (e : Stamp) (he : e.value.toNat < 2 ^ c.vw) :
    SequenceOk c (evict c.xrCap (putStamp e q)) where
  length_le := by
    rw [evict_length]
    exact Nat.min_le_right _ _
  value_lt := fun x hx => by
    rcases (mem_putStamp e x q).1 ((evict_suffix _ _).mem hx) with rfl | ⟨hx, -⟩
    · exact he
    · exact ok.value_lt x hx
  cycles := (putStamp_increasing e q ok.cycles).sublist (evict_suffix _ _).sublist

/-! ### The effects of the commands -/

/-- A change of the prefetch unit's elements that keeps R37 keeps every invariant. -/
theorem Block.Invariants.of_onlyEngine {c : Cfg} {b b' : Block} (inv : b.Invariants c) (hb : OnlyEngine b b')
    (ok : b'.EngineOk c) : b'.Invariants c := by
  obtain ⟨pfQ, raddr, waddr, active, rem, rfl⟩ := hb
  exact { inv with engine := ok }

/-- Taking out an entry other than the sentinel. -/
theorem Block.Invariants.removeAt {c : Cfg} {b : Block} (inv : b.Invariants c) (i : Nat) (hi : i < b.heap.length)
    (he : (slot b.heap i).kind ≠ c.nk) : (removeAt b i).Invariants c :=
  { inv with schedule := inv.schedule.removeAt i hi he }

/-- Under a valid CFG every command's effect keeps every invariant. -/
theorem effectOf_invariants {c : Cfg} {m : Memory} {b b' : Block} {i : Instr} {r : Response} (hv : c.valid = true)
    (inv : b.Invariants c) (h : effectOf c m b i = .ok (b', r)) : b'.Invariants c := by
  cases i with
  | esInsert kind due =>
    obtain ⟨hk, ⟨j, hfind, rfl⟩ | ⟨hp, rfl⟩⟩ := esInsertEffect_ok h
    · obtain ⟨hj, hkind⟩ := findKind_some _ _ _ hfind
      exact { inv with schedule := inv.schedule.updateDue j hj (by omega) due }
    · obtain ⟨hnk, -⟩ := Cfg.clock_of_valid hv
      exact { inv with schedule := inv.schedule.insert hnk _ hk hp due }
  | esRemove kind =>
    obtain rfl | ⟨hk, j, hfind, rfl⟩ := esRemoveEffect_ok h
    · exact inv
    · obtain ⟨hj, hkind⟩ := findKind_some _ _ _ hfind
      exact inv.removeAt j hj (by omega)
  | esReady now => cases h; exact inv
  | esPop now =>
    obtain rfl | ⟨hroot, rfl⟩ := esPopEffect_ok h
    · exact inv
    · exact inv.removeAt 0 inv.schedule.length_pos hroot
  | cdAdvance long mc =>
    obtain ⟨stallOut, rfl⟩ := cdAdvanceEffect_ok h
    exact { inv with clock := ClockOk.advance hv b mc.toNat long stallOut }
  | cdBusgrant d =>
    obtain ⟨pri, sec, rfl⟩ := cdBusgrantEffect_ok h
    exact { inv with clock := { inv.clock with stall_length := by simpa using inv.clock.stall_length } }
  | btCost w seq addr =>
    obtain rfl := btCostEffect_ok h
    exact inv
  | btSetbw x bit =>
    obtain rfl := btSetbwEffect_ok h
    exact { inv with bw_length := by simpa using inv.bw_length }
  | btSetpf en =>
    obtain rfl | rfl := btSetpfEffect_ok h
    · exact { inv with engine := { inv.engine with active_enabled := fun _ => rfl } }
    · exact { inv with engine := { inv.engine with
        rem_of_idle := fun _ => rfl
        active_enabled := fun hact => by cases hact
        active_room := fun hact => by cases hact } }
  | pfPrepare addr =>
    obtain ⟨hlt, halign, rfl⟩ := pfPrepareEffect_ok h
    exact inv.of_onlyEngine (prepare_onlyEngine c m b addr) (inv.engine.prepare hv m addr hlt halign)
  | pfRead addr =>
    obtain rfl := pfReadEffect_ok h
    exact inv.of_onlyEngine (readWord_onlyEngine c b addr) (inv.engine.readWord hv addr)
  | pfAdvance cycles =>
    cases h
    exact inv.of_onlyEngine (runEngine_onlyEngine c m _ b _) (Block.EngineOk.runEngine hv m _ b inv.engine _)
  | iaSetflag src =>
    cases h
    exact { inv with flag_lt := or_lt_of_lt inv.flag_lt (and_validSources_lt c _) }
  | iaWrenable mask =>
    cases h
    exact { inv with enable_lt := and_validSources_lt c mask }
  | iaWrflagclr mask =>
    cases h
    exact { inv with flag_lt := and_lt_of_lt inv.flag_lt _ }
  | iaHpp => cases h; exact inv
  | iaAck src =>
    cases h
    exact { inv with flag_lt := and_lt_of_lt inv.flag_lt _ }
  | xrWrite x cycle value =>
    obtain ⟨hx, hval, rfl⟩ := xrWriteEffect_ok h
    have hmem : seqOf b (idxNat x) ∈ b.seq := by
      have hlen : idxNat x < b.seq.length := by rw [inv.seq_length]; exact hx
      rw [seqOf, List.getD_eq_getElem _ _ hlen]
      exact List.getElem_mem hlen
    exact { inv with
      seq_length := by simpa using inv.seq_length
      seq_ok := fun q hq => by
        rcases List.mem_or_eq_of_mem_set hq with hold | rfl
        · exact inv.seq_ok q hold
        · exact (inv.seq_ok _ hmem).write _ hval }
  | xrRead x asOf =>
    obtain rfl := xrReadEffect_ok h
    exact inv

/-! ### Whatever arrives -/

/-- Consistency reads the configuration, the elements and the store alone. -/
theorem consistent_congr {s t : State} (hcfg : t.cfg = s.cfg) (hblk : t.blk = s.blk) (hback : t.back = s.back) :
    t.consistent = s.consistent := by
  simp [State.consistent, hcfg, hblk, hback]

/-- In RUN a consistent machine that comes to other elements stays consistent if they meet the invariants. -/
theorem consistent_of_running {s t : State} (hc : s.consistent = true) (hf : s.blk.fault = false)
    (hcfg : t.cfg = s.cfg) (hback : t.back = s.back)
    (hkeep : s.cfg.valid = true → s.blk.Invariants s.cfg → t.blk.Invariants s.cfg) : t.consistent = true := by
  have hshaped := State.shaped_of_consistent s hc hf
  simp only [State.shaped, Bool.and_eq_true] at hshaped
  obtain ⟨hv, -⟩ := hshaped
  obtain ⟨hwf, inv⟩ := (State.consistent_iff_of_valid s hv).1 hc
  exact State.consistent_of_valid (by rwa [hcfg]) (by rwa [hback]) (by rw [hcfg]; exact hkeep hv inv)

/-- Every command keeps consistency, in either mode. -/
theorem exec_consistent {i : Instr} {s t : State} (hc : s.consistent = true) (h : exec i s = .next t) :
    t.consistent = true := by
  obtain ⟨hcfg, hback, -, -⟩ := serve_frame s t _ ((exec_eq_serve i s).symm.trans h)
  rcases exec_blk_cases h with hb | ⟨hf, f, hb⟩ | ⟨hf, r, heff⟩
  · rw [consistent_congr hcfg hb hback]
    exact hc
  · exact consistent_of_running hc hf hcfg hback fun _ inv => by rw [hb]; exact inv.raised f
  · exact consistent_of_running hc hf hcfg hback fun hv inv => effectOf_invariants hv inv heff

/-- Every frame keeps consistency, a command or none. -/
theorem performFrame_consistent {f : Frame} {s t : State} (hc : s.consistent = true)
    (h : performFrame f s = .next t) : t.consistent = true := by
  rcases performFrame_cases f s with ⟨i, -, hexec⟩ | ⟨e, -, hill⟩
  · exact exec_consistent hc (hexec.symm.trans h)
  · rcases serveIllegal_next s t (hill.symm.trans h) with ⟨-, rfl⟩ | ⟨hf, rfl⟩
    · exact hc
    · exact consistent_of_running hc hf rfl rfl fun _ inv => inv.raised .illegalCmd

/-- RESET gives the reset values or a faulted block with its own cause, whatever the free elements are (R320). -/
theorem hostReset_consistent (c : Cfg) (s : State) (hwf : Memory.wf s.back = true) :
    (hostReset c s).consistent = true := by
  cases hv : c.valid with
  | true =>
    rw [hostReset_of_valid c s (Cfg.no_zero_div_of_valid c hv) hv]
    exact State.consistent_of_valid hv hwf (Block.Invariants.reset hv)
  | false =>
    rw [hostReset_of_invalid c s hv]
    cases hz : c.hasZeroDiv <;> simp [State.consistent, hwf, hv, Block.afterBadReset]

/-- RESTORE takes a legal image, or faults a block in RUN, or changes nothing (R302). -/
theorem hostRestore_consistent (im : Block) {s : State} (hc : s.consistent = true) :
    (hostRestore im s).consistent = true := by
  cases hgood : s.cfg.valid && im.legal s.cfg with
  | true =>
    obtain ⟨hv, hl⟩ := Bool.and_eq_true_iff.1 hgood
    rw [hostRestore_of_legal im s hv hl]
    obtain ⟨hwf, -⟩ := (State.consistent_iff_of_valid s hv).1 hc
    exact State.consistent_of_valid hv hwf ((Block.legal_iff _ _).1 hl)
  | false =>
    rw [hostRestore_of_bad im s hgood]
    split
    · exact hc
    · rename_i hf
      exact consistent_of_running hc (by simpa using hf) rfl rfl fun _ inv => inv.raised .restoreInvalid

/-- A change of the store keeps its canonical form and the elements (R73). -/
theorem platformWrite_consistent {a : Nat} {v : Byte} {s t : State} (hc : s.consistent = true)
    (h : platformWrite a v s = .next t) : t.consistent = true := by
  unfold platformWrite at h
  split at h
  · cases h
    simp only [State.consistent, Bool.and_eq_true] at hc ⊢
    obtain ⟨hwf, helems⟩ := hc
    exact ⟨Memory.wf_write s.back a v hwf, helems⟩
  · cases h

/-- Settles O25, by cases on what has arrived. -/
theorem everyStepKeepsConsistency : Obligations.EveryStepKeepsConsistency := by
  intro s t hc h
  cases hin : s.inbox with
  | nil =>
    rw [step_idle s hin] at h
    cases h
    exact hc
  | cons item rest =>
    have hc' : ({ s with inbox := rest } : State).consistent = true := by simpa using hc
    cases item with
    | frame f =>
      rw [step_frame s f rest hin] at h
      exact performFrame_consistent hc' h
    | reset c =>
      rw [step_reset s c rest hin] at h
      cases h
      simp only [State.consistent, Bool.and_eq_true] at hc
      exact hostReset_consistent c _ hc.1
    | snapshot =>
      rw [step_snapshot s rest hin] at h
      cases h
      exact hc'
    | restore im =>
      rw [step_restore s im rest hin] at h
      cases h
      exact hostRestore_consistent im hc'
    | backWrite a v =>
      rw [step_backWrite s a v rest hin] at h
      exact platformWrite_consistent hc' h

end Sys2Proof.Machine
end

section
/-! PROOFS. The backing store seen from the block (spec/20_memory.md R73, R75, R85): how a word is made of its bytes,
and what the platform's change of a byte leaves alone. -/

namespace Sys2Proof.Machine

/-- With PF_WB of at most 4 bytes a word holds its bytes' number whole. -/
theorem memRead_toNat {c : Cfg} (hwb : c.pfWb ≤ 4) (m : Memory) (a : W64) :
    (memRead c m a).toNat = Memory.readLE m a.toNat c.pfWb := by
  have hlt : Memory.readLE m a.toNat c.pfWb < 2 ^ 32 :=
    (Memory.readLE_lt m a.toNat c.pfWb).trans_le (Nat.pow_le_pow_right (by decide) (by omega))
  simp only [memRead, BitVec.toNat_ofNat, Nat.mod_eq_of_lt hlt]

/-- Settles O51, byte by byte of the number that the word is. -/
theorem wordsAreLittleEndian : Obligations.WordsAreLittleEndian := by
  intro c m a hwb
  refine ⟨memRead_lt c m a, fun j hj => BitVec.eq_of_toNat_eq ?_⟩
  rw [BitVec.extractLsb'_toNat, memRead_toNat hwb, Nat.shiftRight_eq_div_pow]
  exact Memory.readLE_byte m a.toNat c.pfWb j hj

/-- Settles O50, from the laws of the store's write. -/
theorem storeChangesLeaveTheBlockAlone : Obligations.StoreChangesLeaveTheBlockAlone := by
  intro s a v rest hwf hin ha
  refine ⟨_, (step_backWrite s a v rest hin).trans (platformWrite_of_lt a v _ ha), rfl, rfl, rfl, ?_, ?_, ?_⟩
  · exact Memory.wf_write s.back a v hwf
  · exact Memory.read_write_same s.back a v hwf
  · exact fun x hx => Memory.read_write_other s.back a x v hx

end Sys2Proof.Machine
end

section
/-! PROOFS. Every address has one region, and its cost is that region's table entry (spec/00_scope.md R9, 20_memory.md
R72, 42_bus_timing_prefetch.md R190). -/

namespace Sys2Proof

/-- The checks on the bus regions. -/
theorem Cfg.regions_of_valid {c : Cfg} (h : c.valid = true) :
    (∀ r ∈ c.regions, Region.ok c.ab r = true) ∧ disjointRegions c.regions = true ∧
      coversSpace c.ab c.regions = true := by
  simp only [Cfg.valid, Cfg.busOk, Bool.and_eq_true, List.all_eq_true, and_assoc] at h
  obtain ⟨-, -, -, -, -, hok, hdisj, hcov, -⟩ := h
  exact ⟨hok, hdisj, hcov⟩

/-- One region's own checks, as propositions. -/
theorem Region.ok_iff (ab : Nat) (r : Region) :
    Region.ok ab r = true ↔ r.lo ≤ r.hi ∧ r.hi < 2 ^ ab ∧ r.wt.inRange = true ∧ r.bwReset ≤ 1 := by
  simp [Region.ok, and_assoc]

/-- A cost is an entry for the bus-width bit in one of the table's six pairs. -/
theorem CostTable.cost_mem (t : CostTable) (w : Nat) (q b : Bool) :
    ∃ s ∈ [t.w8, t.w16, t.w32], ∃ p ∈ [s.nonSeq, s.seq], t.cost w q b = if b then p.b1 else p.b0 := by
  refine ⟨if w = 0 then t.w8 else if w = 1 then t.w16 else t.w32, ?_, _, ?_, rfl⟩
  · split_ifs <;> simp
  · cases q <;> simp

/-- Every entry of a table in range is a 32-bit number. -/
theorem CostTable.cost_lt {t : CostTable} (h : t.inRange = true) (w : Nat) (q b : Bool) : t.cost w q b < 2 ^ 32 := by
  simp only [CostTable.inRange, cost32, List.all_eq_true, Bool.and_eq_true, decide_eq_true_eq] at h
  obtain ⟨s, hs, p, hp, hcost⟩ := t.cost_mem w q b
  obtain ⟨h0, h1⟩ := h s hs p hp
  rw [hcost]
  cases b
  · exact h0
  · exact h1

/-- Disjoint regions that hold one address have one index. -/
theorem index_unique_of_disjoint {rs : List Region} (hd : disjointRegions rs = true) {i j : Nat} (hi : i < rs.length)
    (hj : j < rs.length) {a : Nat} (hia : rs[i].lo ≤ a ∧ a ≤ rs[i].hi) (hja : rs[j].lo ≤ a ∧ a ≤ rs[j].hi) :
    i = j := by
  have hpair := List.pairwise_iff_getElem.1 ((disjointRegions_iff rs).1 hd)
  simp only [Region.disjoint, Bool.or_eq_true, decide_eq_true_eq] at hpair
  rcases Nat.lt_trichotomy i j with hlt | heq | hgt
  · have := hpair i j hi hj hlt
    omega
  · exact heq
  · have := hpair j i hj hi hgt
    omega

end Sys2Proof

namespace Sys2Proof.Machine

/-- Under a valid CFG the lookup finds a region for every address that exists (R72). -/
theorem regionOf_exists {c : Cfg} (hv : c.valid = true) {a : Nat} (ha : a < 2 ^ c.ab) :
    ∃ r, regionOf c a = some r := by
  obtain ⟨hok, hdisj, hcov⟩ := Cfg.regions_of_valid hv
  have hrange : ∀ r ∈ c.regions, r.lo ≤ r.hi ∧ r.hi < 2 ^ c.ab := fun r hr => by
    obtain ⟨hle, hhi, -⟩ := (Region.ok_iff c.ab r).1 (hok r hr)
    exact ⟨hle, hhi⟩
  obtain ⟨r, hr, hlo, hhi⟩ := (coversSpace_iff c.ab c.regions hrange hdisj).1 hcov a ha
  refine Option.ne_none_iff_exists'.1 fun hnone => ?_
  exact (regionOf_none c a).1 hnone r hr ⟨hlo, hhi⟩

/-- An access is priced by the region of its start address (R190). -/
theorem waitCycles_of_region {c : Cfg} {a r : Nat} (h : regionOf c a = some r) (b : Block) (w : Nat) (q : Bool) :
    waitCycles c b a w q = (c.regions.getD r default).wt.cost w q (bwOf b r) := by
  simp [waitCycles, h]

/-- Settles O19: a region exists by coverage, is unique by disjointness, and prices the access by its own table. -/
theorem everyAddressHasOneRegionAndItsCost : Obligations.EveryAddressHasOneRegionAndItsCost := by
  intro c b a hv ha
  obtain ⟨hok, hdisj, -⟩ := Cfg.regions_of_valid hv
  obtain ⟨r, hreg⟩ := regionOf_exists hv ha
  obtain ⟨hr, hlo, hhi⟩ := regionOf_some c a r hreg
  refine ⟨r, hr, hreg, hlo, hhi, fun r' hr' hlo' hhi' => ?_, fun w _ q => ?_⟩
  · rw [List.getD_eq_getElem _ _ hr] at hlo hhi
    rw [List.getD_eq_getElem _ _ hr'] at hlo' hhi'
    exact index_unique_of_disjoint hdisj hr' hr ⟨hlo', hhi'⟩ ⟨hlo, hhi⟩
  · have hmem : c.regions.getD r default ∈ c.regions := by
      rw [List.getD_eq_getElem _ _ hr]
      exact List.getElem_mem hr
    obtain ⟨-, -, htable, -⟩ := (Region.ok_iff c.ab _).1 (hok _ hmem)
    rw [waitCycles_of_region hreg]
    exact ⟨rfl, CostTable.cost_lt htable w q _⟩

end Sys2Proof.Machine
end

section
/-! PROOFS. The pure queries (spec/20_memory.md R78): their effect leaves the elements as they are, so serving one again
finds the same elements and answers the same. -/

namespace Sys2Proof.Machine

/-- A query's effect leaves every element as it was. -/
theorem effectOf_query {c : Cfg} {m : Memory} {b b' : Block} {i : Instr} {r : Response} (hq : isQuery i = true)
    (h : effectOf c m b i = .ok (b', r)) : b' = b := by
  cases i with
  | esReady now => cases h; rfl
  | btCost w seq addr => exact btCostEffect_ok h
  | iaHpp => cases h; rfl
  | xrRead x asOf => exact xrReadEffect_ok h
  | _ => cases hq

/-- Settles O15: the elements after a query are those before it, and they with CFG and the store fix its effect. -/
theorem queriesMayBeRepeated : Obligations.QueriesMayBeRepeated := by
  intro i s t hq h hfault
  rw [exec_eq_serve] at h
  rcases serve_next s t _ h with ⟨hf, rfl⟩ | ⟨hf, hs, b, r, heff, rfl⟩ | ⟨-, -, f, -, rfl⟩
  · rw [State.stillFaulted_blk, hf] at hfault
    contradiction
  · obtain rfl := effectOf_query hq heff
    refine ⟨rfl, ?_⟩
    rw [exec_eq_serve, State.answer_cfg, State.answer_back, State.answer_blk, heff]
    exact serve_ok _ _ _ hf hs
  · cases hfault

end Sys2Proof.Machine
end

section
/-! PROOFS. The prefetch buffer mirrors a store that does not change (spec/10_state.md R34, 20_memory.md R85,
42_bus_timing_prefetch.md R206): a fetch appends the store's word at WADDR, which is the address behind the buffer, and
a read moves RADDR on with the word it pops. -/

namespace Sys2Proof.Machine

/-! ### The addresses of the buffered words -/

/-- The address of the j-th word from `a` up, around the end of the address space. -/
def wordAddr (c : Cfg) (a : W64) (j : Nat) : W64 := toW64 ((a.toNat + j * c.pfWb) % 2 ^ c.ab)

/-- `wordAddr` on the numbers, for any valid AB. -/
theorem wordAddr_toNat {c : Cfg} (hv : c.valid = true) (a : W64) (j : Nat) :
    (wordAddr c a j).toNat = (a.toNat + j * c.pfWb) % 2 ^ c.ab := by
  have hle : 2 ^ c.ab ≤ 2 ^ 64 := Nat.pow_le_pow_right (by decide) (Cfg.ab_le_of_valid hv)
  exact toW64_toNat _ ((Nat.mod_lt _ (by positivity)).trans_le hle)

/-- The first word is at the address itself. -/
theorem wordAddr_zero {c : Cfg} (hv : c.valid = true) {a : W64} (ha : a.toNat < 2 ^ c.ab) : wordAddr c a 0 = a :=
  BitVec.eq_of_toNat_eq (by rw [wordAddr_toNat hv, Nat.zero_mul, Nat.add_zero, Nat.mod_eq_of_lt ha])

/-- Counting from the next word on is counting one further. -/
theorem wordAddr_nextWord {c : Cfg} (hv : c.valid = true) (a : W64) (j : Nat) :
    wordAddr c (nextWord c a) j = wordAddr c a (j + 1) := by
  have hsum : a.toNat + c.pfWb + j * c.pfWb = a.toNat + (j + 1) * c.pfWb := by ring
  refine BitVec.eq_of_toNat_eq ?_
  rw [wordAddr_toNat hv, wordAddr_toNat hv, nextWord_toNat hv, Nat.mod_add_mod, hsum]

/-- WADDR is the address behind the buffered words (10_state.md R37 (c)). -/
theorem Block.EngineOk.waddr_eq_wordAddr {c : Cfg} {b : Block} (hv : c.valid = true) (ok : b.EngineOk c) :
    b.waddr = wordAddr c b.raddr b.pfQ.length :=
  BitVec.eq_of_toNat_eq (by rw [wordAddr_toNat hv, ok.waddr_eq])

/-! ### What keeps the buffer a mirror -/

/-- Every buffered word is the store's word at its address. Tied to `State.mirrorsBack` by `mirrorsBack_iff`. -/
def Block.Mirrors (c : Cfg) (m : Memory) (b : Block) : Prop :=
  ∀ j w, b.pfQ[j]? = some w → w = memRead c m (wordAddr c b.raddr j)

/-- The model's check is `Block.Mirrors`. -/
theorem mirrorsBack_iff (s : State) : s.mirrorsBack = true ↔ s.blk.Mirrors s.cfg s.back := by
  simp only [State.mirrorsBack, List.all_eq_true, List.mem_range, beq_iff_eq, List.getD_eq_getElem?_getD,
    Block.Mirrors, wordAddr]
  constructor
  · intro h j w hw
    have hj := h j (List.getElem?_eq_some_iff.1 hw).1
    rwa [hw] at hj
  · intro h j hj
    have hw := List.getElem?_eq_getElem hj
    rw [hw]
    exact h j _ hw

/-- The mirror reads PF_Q and RADDR alone. -/
theorem Block.Mirrors.congr {c : Cfg} {m : Memory} {b b' : Block} (hm : b.Mirrors c m) (hq : b'.pfQ = b.pfQ)
    (hr : b'.raddr = b.raddr) : b'.Mirrors c m := by
  intro j w hw
  rw [hr]
  exact hm j w (hq ▸ hw)

/-- An empty buffer mirrors any store. -/
theorem Block.Mirrors.of_empty {c : Cfg} {m : Memory} {b : Block} (h : b.pfQ = []) : b.Mirrors c m := by
  intro j w hw
  simp [h] at hw

/-- A fetch that completes appends the word of the address behind the buffer (R198). -/
theorem Block.Mirrors.completeFetch {c : Cfg} {m : Memory} {b : Block} (hv : c.valid = true) (ok : b.EngineOk c)
    (hm : b.Mirrors c m) : (completeFetch c m b).Mirrors c m := by
  intro j w hw
  rw [completeFetch_pfQ] at hw
  rw [completeFetch_raddr]
  rcases Nat.lt_trichotomy j b.pfQ.length with hlt | rfl | hgt
  · exact hm j w (by rwa [List.getElem?_append_left hlt] at hw)
  · rw [List.getElem?_concat_length, Option.some.injEq] at hw
    rw [← hw, ok.waddr_eq_wordAddr hv]
  · rw [List.getElem?_eq_none (by simpa using hgt)] at hw
    cases hw

/-- The word popped off the buffer takes RADDR one word on (R202). -/
theorem Block.Mirrors.pop {c : Cfg} {m : Memory} {b : Block} (hv : c.valid = true) (hm : b.Mirrors c m) (w : PfWord)
    (q : List PfWord) (hq : b.pfQ = w :: q) :
    Block.Mirrors c m { b with pfQ := q, raddr := nextWord c b.raddr } := by
  intro j v hv'
  simp only [wordAddr_nextWord hv]
  exact hm (j + 1) v (by simpa [hq] using hv')

/-- PF_PREPARE at a good address (R200). -/
theorem Block.Mirrors.prepare {c : Cfg} {m : Memory} {b : Block} (hv : c.valid = true) (ok : b.EngineOk c)
    (hm : b.Mirrors c m) (a : W64) (ha : a.toNat < 2 ^ c.ab) (halign : a.toNat % c.pfWb = 0) :
    (prepare c m b a).1.Mirrors c m := by
  rcases prepare_cases c m b a with h | ⟨-, h⟩ | h <;> rw [h]
  · exact hm
  · exact hm.completeFetch hv ok
  · exact (Block.Mirrors.of_empty rfl).completeFetch hv (Block.EngineOk.restartAt b a ha halign)

/-- Resuming starts a fetch and leaves the buffer (R203). -/
theorem Block.Mirrors.resume {c : Cfg} {m : Memory} {b : Block} (hm : b.Mirrors c m) : (resume c b).Mirrors c m := by
  rcases resume_cases c b with h | ⟨-, -, h⟩ <;> rw [h]
  · exact hm
  · exact hm.congr rfl rfl

/-- PF_READ (R202). -/
theorem Block.Mirrors.readWord {c : Cfg} {m : Memory} {b : Block} (hv : c.valid = true) (hm : b.Mirrors c m)
    (a : W64) : (readWord c b a).1.Mirrors c m := by
  rcases readWord_cases c b a with h | ⟨w, q, hq, h⟩ <;> rw [h]
  · exact hm
  · exact (hm.pop hv w q hq).resume

/-- A turn of the loop of PF_ADVANCE: it ends, or an active engine counts down, or it completes its fetch and goes on
(R204). -/
theorem runEngine_succ_cases (c : Cfg) (m : Memory) (fuel : Nat) (b : Block) (n : Nat) :
    runEngine c m (fuel + 1) b n = b ∨
      (b.active = true ∧ n < b.rem.toNat ∧
        runEngine c m (fuel + 1) b n = { b with rem := toW64 (b.rem.toNat - n) }) ∨
      (b.active = true ∧ b.rem.toNat ≤ n ∧
        runEngine c m (fuel + 1) b n = runEngine c m fuel (completeFetch c m b) (n - b.rem.toNat)) := by
  rw [runEngine]
  split
  · exact .inl rfl
  · rename_i hgo
    obtain ⟨-, hact⟩ : n ≠ 0 ∧ b.active = true := by simpa using hgo
    split
    · rename_i hlt
      exact .inr (.inl ⟨hact, hlt, rfl⟩)
    · rename_i hge
      exact .inr (.inr ⟨hact, Nat.le_of_not_lt hge, rfl⟩)

/-- The loop of PF_ADVANCE: every turn that fetches has room for its word (R204, R37 (e)). -/
theorem Block.Mirrors.runEngine {c : Cfg} {m : Memory} (hv : c.valid = true) (fuel : Nat) (b : Block)
    (ok : b.EngineOk c) (hm : b.Mirrors c m) (n : Nat) : (runEngine c m fuel b n).Mirrors c m := by
  induction fuel generalizing b n with
  | zero => exact hm
  | succ fuel ih =>
    rcases runEngine_succ_cases c m fuel b n with h | ⟨-, -, h⟩ | ⟨hact, -, h⟩ <;> rw [h]
    · exact hm
    · exact hm.congr rfl rfl
    · exact ih _ (ok.completeFetch hv m (ok.active_room hact)) (hm.completeFetch hv ok) _

/-! ### Every frame, and what PF_READ answers -/

/-- A command of another unit leaves the buffer and RADDR alone. -/
theorem Touches.buffer_same {b b' : Block} {i : Instr} (h : Touches b i b') (hu : unitOf i ≠ .pf) :
    b'.pfQ = b.pfQ ∧ b'.raddr = b.raddr := by
  cases h with
  | pf hpf => exact absurd hpf hu
  | _ => exact ⟨rfl, rfl⟩

/-- Every command's effect keeps the mirror: the prefetch unit's by its operations, the others' by their frame. -/
theorem effectOf_mirrors {c : Cfg} {m : Memory} {b b' : Block} {i : Instr} {r : Response} (hv : c.valid = true)
    (ok : b.EngineOk c) (hm : b.Mirrors c m) (h : effectOf c m b i = .ok (b', r)) : b'.Mirrors c m := by
  by_cases hu : unitOf i = .pf
  · cases i with
    | pfPrepare addr =>
      obtain ⟨hlt, halign, rfl⟩ := pfPrepareEffect_ok h
      exact hm.prepare hv ok addr hlt halign
    | pfRead addr =>
      obtain rfl := pfReadEffect_ok h
      exact hm.readWord hv addr
    | pfAdvance cycles =>
      cases h
      exact Block.Mirrors.runEngine hv _ b ok hm _
    | _ => cases hu
  · obtain ⟨hq, hr⟩ := (effectOf_touches h).buffer_same hu
    exact hm.congr hq hr

/-- Every command keeps the mirror, in either mode. -/
theorem exec_mirrors {i : Instr} {s t : State} (hv : s.cfg.valid = true) (ok : s.blk.EngineOk s.cfg)
    (hm : s.blk.Mirrors s.cfg s.back) (h : exec i s = .next t) : t.blk.Mirrors t.cfg t.back := by
  obtain ⟨hcfg, hback, -, -⟩ := serve_frame s t _ ((exec_eq_serve i s).symm.trans h)
  rw [hcfg, hback]
  rcases exec_blk_cases h with hb | ⟨-, f, hb⟩ | ⟨-, r, heff⟩
  · rwa [hb]
  · rw [hb]
    exact hm.congr rfl rfl
  · exact effectOf_mirrors hv ok hm heff

/-- Every frame keeps the mirror, a command or none. -/
theorem performFrame_mirrors {f : Frame} {s t : State} (hv : s.cfg.valid = true) (ok : s.blk.EngineOk s.cfg)
    (hm : s.blk.Mirrors s.cfg s.back) (h : performFrame f s = .next t) : t.blk.Mirrors t.cfg t.back := by
  rcases performFrame_cases f s with ⟨i, -, hexec⟩ | ⟨e, -, hill⟩
  · exact exec_mirrors hv ok hm (hexec.symm.trans h)
  · rcases serveIllegal_next s t (hill.symm.trans h) with ⟨-, rfl⟩ | ⟨-, rfl⟩
    · exact hm
    · exact hm.congr rfl rfl

/-- Once its address is good, PF_READ's response is that of `readWord` (R202, R207). -/
theorem pfReadEffect_response {c : Cfg} {b b' : Block} {a : W64} {r : Response}
    (h : pfReadEffect c b a = .ok (b', r)) : r = (readWord c b a).2 := by
  unfold pfReadEffect at h
  rcases checkPfAddress_cases c a with ⟨hchk, -⟩ | ⟨hchk, -⟩ | ⟨hchk, -⟩ <;> rw [hchk] at h
  · exact (congrArg Prod.snd (Except.ok.inj h)).symm
  · cases h
  · cases h

/-- PF_READ answers OK only with the head word, asked for at RADDR (R202). -/
theorem readWord_status_ok {c : Cfg} {b : Block} {a : W64} (h : (readWord c b a).2.status = .ok) :
    a = b.raddr ∧ ∃ w, b.pfQ[0]? = some w ∧ (readWord c b a).2.r0 = w.setWidth 64 := by
  unfold readWord at h ⊢
  split at h
  · cases h
  · rename_i w q hq
    split at h
    · rename_i haddr
      simp only [haddr, if_true]
      exact ⟨beq_iff_eq.1 haddr, w, by simp [hq], rfl⟩
    · cases h

/-- A command that is answered OK had its effect, which gave that response. -/
theorem exec_status_ok {i : Instr} {s t : State} {r : Response} (h : exec i s = .next t)
    (hout : t.out = some (.response r)) (hr : r.status = .ok) :
    s.shaped = true ∧ ∃ b, effectOf s.cfg s.back s.blk i = .ok (b, r) := by
  rw [exec_eq_serve] at h
  rcases serve_next s t _ h with ⟨-, rfl⟩ | ⟨-, hs, b, r', heff, rfl⟩ | ⟨-, -, f, -, rfl⟩ <;> cases hout
  · cases hr
  · exact ⟨hs, b, heff⟩
  · cases hr

/-- Settles O49: the mirror is kept by every frame, and PF_READ hands out the head word, whose address is RADDR. -/
theorem bufferMirrorsAnUnchangingStore : Obligations.BufferMirrorsAnUnchangingStore := by
  refine ⟨fun s t f rest hc hv hm hin h => ?_, fun s t a r hsound hm h hout hr => ?_⟩
  · obtain ⟨-, inv⟩ := (State.consistent_iff_of_valid s hv).1 hc
    rw [step_frame s f rest hin] at h
    have hkeep := performFrame_mirrors (s := { s with inbox := rest }) hv inv.engine ((mirrorsBack_iff s).1 hm) h
    exact (mirrorsBack_iff t).2 hkeep
  · obtain ⟨hc, -⟩ := Bool.and_eq_true_iff.1 hsound
    obtain ⟨hs, b, heff⟩ := exec_status_ok h hout hr
    obtain ⟨hv, -⟩ := Bool.and_eq_true_iff.1 hs
    obtain ⟨-, inv⟩ := (State.consistent_iff_of_valid s hv).1 hc
    obtain rfl := pfReadEffect_response heff
    obtain ⟨rfl, w, hw, hr0⟩ := readWord_status_ok hr
    rw [hr0, (mirrorsBack_iff s).1 hm 0 w hw, wordAddr_zero hv inv.engine.raddr_lt]

end Sys2Proof.Machine
end

section
/-! PROOFS. The fields of a frame (spec/30_encoding.md R100): a frame is its four fields, each field is read back from a
frame that is made of it, and a field that a command uses in part (R103) is fixed by that part once the rest is zero. -/

namespace Sys2Proof

/-! ### The four fields -/

@[simp] theorem Frame.mk_op (op : BitVec 8) (x : Idx) (a b : W64) : (Frame.mk op x a b).op = op :=
  calc (Frame.mk op x a b).op
    _ = (op ++ x ++ a).extractLsb' 72 8 := BitVec.extractLsb'_append_eq_of_le (by decide)
    _ = (op ++ x).extractLsb' 8 8 := BitVec.extractLsb'_append_eq_of_le (by decide)
    _ = op := BitVec.extractLsb'_append_eq_left

@[simp] theorem Frame.mk_idx (op : BitVec 8) (x : Idx) (a b : W64) : (Frame.mk op x a b).idx = x :=
  calc (Frame.mk op x a b).idx
    _ = (op ++ x ++ a).extractLsb' 64 8 := BitVec.extractLsb'_append_eq_of_le (by decide)
    _ = (op ++ x).extractLsb' 0 8 := BitVec.extractLsb'_append_eq_of_le (by decide)
    _ = x := BitVec.extractLsb'_append_eq_right

@[simp] theorem Frame.mk_a (op : BitVec 8) (x : Idx) (a b : W64) : (Frame.mk op x a b).a = a :=
  calc (Frame.mk op x a b).a
    _ = (op ++ x ++ a).extractLsb' 0 64 := BitVec.extractLsb'_append_eq_of_le (by decide)
    _ = a := BitVec.extractLsb'_append_eq_right

@[simp] theorem Frame.mk_b (op : BitVec 8) (x : Idx) (a b : W64) : (Frame.mk op x a b).b = b :=
  BitVec.extractLsb'_append_eq_right

/-- A frame has no bit outside its four fields. -/
theorem Frame.mk_fields (f : Frame) : Frame.mk f.op f.idx f.a f.b = f := by
  have hhead : f.op ++ f.idx = f.extractLsb' 128 16 := BitVec.extractLsb'_append_extractLsb'_eq_extractLsb' rfl
  have hmid : f.extractLsb' 128 16 ++ f.a = f.extractLsb' 64 80 :=
    BitVec.extractLsb'_append_extractLsb'_eq_extractLsb' rfl
  have hall : f.extractLsb' 64 80 ++ f.b = f.extractLsb' 0 144 :=
    BitVec.extractLsb'_append_extractLsb'_eq_extractLsb' rfl
  rw [Frame.mk, hhead, hmid, hall, BitVec.extractLsb'_eq_self]

/-- A frame is made of four given fields exactly when they are its own. -/
theorem Frame.mk_eq_iff {f : Frame} {op : BitVec 8} {x : Idx} {a b : W64} :
    Frame.mk op x a b = f ↔ op = f.op ∧ x = f.idx ∧ a = f.a ∧ b = f.b := by
  constructor
  · rintro rfl
    simp
  · rintro ⟨rfl, rfl, rfl, rfl⟩
    exact f.mk_fields

/-- A frame matches a row exactly when each of its fields does (R103). -/
theorem TableRow.hits_iff_fields (row : TableRow) (f : Frame) :
    row.hits f = true ↔
      f.op &&& row.care.op = row.fixed.op ∧ f.idx &&& row.care.idx = row.fixed.idx ∧
      f.a &&& row.care.a = row.fixed.a ∧ f.b &&& row.care.b = row.fixed.b := by
  have hmask : f &&& row.care = Frame.mk (f.op &&& row.care.op) (f.idx &&& row.care.idx) (f.a &&& row.care.a)
      (f.b &&& row.care.b) := by
    rw [← Laws.RowOfTable.mk_and, f.mk_fields, row.care.mk_fields]
  rw [TableRow.hits, beq_iff_eq, hmask, Frame.mk_eq_iff]

/-! ### Fields that a command uses in part -/

/-- A word whose upper bits are zero is its lowest bit. -/
theorem ite_getLsbD_zero_eq {n : Nat} {x : BitVec (n + 1)} (h : x.extractLsb' 1 n = 0#n) :
    (if x.getLsbD 0 then 1#(n + 1) else 0#(n + 1)) = x := by
  refine BitVec.eq_of_getLsbD_eq fun j hj => ?_
  cases j with
  | zero => cases x.getLsbD 0 <;> simp
  | succ j =>
    have hj' : j < n := by omega
    have hbit : x.getLsbD (j + 1) = false := by
      simpa [hj', Nat.add_comm 1 j] using congrArg (BitVec.getLsbD · j) h
    rw [hbit]
    split <;> simp

/-- The LONG bit of CD_ADVANCE is the whole of IDX once the other seven bits are zero. -/
theorem longIdx_eq {x : Idx} (h : x.extractLsb' 1 7 = 0#7) : longIdx x[0] = x := ite_getLsbD_zero_eq h

/-- A one-bit operand is the whole of its field once the other 63 bits are zero. -/
theorem bit64_eq {a : W64} (h : a.extractLsb' 1 63 = 0#63) : bit64 a[0] = a := ite_getLsbD_zero_eq h

/-- W and S of BT_COST are the whole of IDX once the other five bits are zero. -/
theorem costIdx_eq {x : Idx} (h : x.extractLsb' 3 5 = 0#5) : costIdx (x.extractLsb' 0 2) x[2] = x := by
  revert x
  decide

theorem longIdx_fields (long : Bool) :
    (longIdx long).extractLsb' 1 7 = 0#7 ∧ (longIdx long)[0] = long := by
  cases long <;> decide

theorem bit64_fields (b : Bool) : (bit64 b).extractLsb' 1 63 = 0#63 ∧ (bit64 b)[0] = b := by
  cases b <;> decide

theorem costIdx_fields (w : BitVec 2) (seq : Bool) :
    (costIdx w seq).extractLsb' 3 5 = 0#5 ∧ (costIdx w seq).extractLsb' 0 2 = w ∧
      (costIdx w seq)[2] = seq := by
  revert w seq
  decide

/-- A field that is masked whole is the row's match. -/
theorem eq_of_masked {n : Nat} {x care fixed : BitVec n} (h : x &&& care = fixed) (hc : care = BitVec.allOnes n) :
    fixed = x := by
  rw [← h, hc, BitVec.and_allOnes]

/-- A field that is masked from bit `k` up and must be zero there has zero upper bits. -/
theorem upper_zero_of_masked {n k len : Nat} {x care : BitVec n} (h : x &&& care = 0#n)
    (hc : care = BitVec.allOnes n <<< k) (hlen : k + len = n) : x.extractLsb' k len = 0#len := by
  subst hc
  refine BitVec.eq_of_getLsbD_eq fun j hj => ?_
  have hlt : k + j < n := by omega
  simpa [hj, hlt] using congrArg (BitVec.getLsbD · (k + j)) h

end Sys2Proof
end

section
/-! PROOFS. Decoding and encoding are inverse to each other (spec/30_encoding.md R100 to R103, R107, R108): the decoder
reads back what `encode` writes, and a frame that decodes has zeros wherever `encode` writes them. -/

namespace Sys2Proof

/-- A check of must-be-zero bits that passes gives the command it guards (R112 step 3). -/
theorem whenZero_eq_ok_iff {name : String} {mbz : Bool} {i j : Instr} :
    whenZero name mbz i = .ok j ↔ mbz = true ∧ i = j := by
  cases mbz <;> simp [whenZero]

/-- Settles O1, by cases on the command: its fields are read back as they were written. -/
theorem decodeOfEncodeIsTheCommand : Obligations.DecodeOfEncodeIsTheCommand := by
  intro i h
  cases i with
  | cdAdvance long mc => simp [decode, encode, whenZero, longIdx_fields]
  | btCost w seq addr =>
    have hw : widthCodeOk w = true := h
    simp [decode, encode, costIdx_fields, hw]
  | btSetbw r b => simp [decode, encode, whenZero, bit64_fields]
  | btSetpf en => simp [decode, encode, whenZero, bit64_fields]
  | _ => simp [decode, encode, whenZero]

/-- What passes the check of a row's must-be-zero bits is the encoding of the command, when the check makes the fields
those that the encoding has. -/
theorem encode_of_whenZero {f : Frame} {name : String} {mbz : Bool} {i j : Instr} {op : BitVec 8} {x : Idx} {a b : W64}
    (h : whenZero name mbz i = .ok j) (hwf : i.wf = true) (hi : encode i = Frame.mk op x a b)
    (hop : f.op.toNat = op.toNat) (hfields : mbz = true → x = f.idx ∧ a = f.a ∧ b = f.b) :
    j.wf = true ∧ encode j = f := by
  obtain ⟨hzero, rfl⟩ := whenZero_eq_ok_iff.1 h
  exact ⟨hwf, hi.trans (Frame.mk_eq_iff.2 ⟨(BitVec.eq_of_toNat_eq hop).symm, hfields hzero⟩)⟩

/-- Settles O2, by cases on OP: the bits that the decoder demands to be zero are those that `encode` leaves zero. -/
theorem decodedFrameIsItsEncoding : Obligations.DecodedFrameIsItsEncoding := by
  intro f i h
  simp only [decode] at h
  split at h
  -- CD_ADVANCE, BT_SETBW, BT_SETPF and BT_COST use a field in part, XR_WRITE leaves none unused.
  case h_5 hop => exact encode_of_whenZero h rfl rfl hop (by simp +contextual [longIdx_eq])
  case h_8 hop | h_9 hop => exact encode_of_whenZero h rfl rfl hop (by simp +contextual [bit64_eq])
  case h_7 hop =>
    split at h
    · rename_i hzero
      obtain ⟨hidx, hb⟩ := Bool.and_eq_true_iff.1 hzero
      split at h
      · rename_i hw
        cases h
        exact ⟨hw, Frame.mk_eq_iff.2
          ⟨(BitVec.eq_of_toNat_eq hop).symm, costIdx_eq (eq_of_beq hidx), rfl, (eq_of_beq hb).symm⟩⟩
      · cases h
    · cases h
  case h_18 hop =>
    cases h
    exact ⟨rfl, Frame.mk_eq_iff.2 ⟨(BitVec.eq_of_toNat_eq hop).symm, rfl, rfl, rfl⟩⟩
  case h_20 => cases h
  -- Every other command uses each field whole or not at all.
  all_goals
    rename_i hop
    exact encode_of_whenZero h rfl rfl hop (by simp +contextual)

end Sys2Proof
end

section
/-! PROOFS. Decoding and the opcode table (spec/30_encoding.md R103, R107): every encoding hits its row, OP tells the
rows apart, and a frame that hits a row is the encoding of a term, which is no command only with the reserved width
code. -/

namespace Sys2Proof

/-! ### Rows and encodings -/

/-- The encoding of every command matches the row of its mnemonic. -/
theorem encode_hits_row (i : Instr) : Laws.RowOfTable.Statement i := by
  cases i with
  | esInsert kind due => exact Laws.RowOfTable.esInsert kind due
  | esRemove kind => exact Laws.RowOfTable.esRemove kind
  | esReady now => exact Laws.RowOfTable.esReady now
  | esPop now => exact Laws.RowOfTable.esPop now
  | cdAdvance long mc => exact Laws.RowOfTable.cdAdvance long mc
  | cdBusgrant d => exact Laws.RowOfTable.cdBusgrant d
  | btCost w seq addr => exact Laws.RowOfTable.btCost w seq addr
  | btSetbw r bit => exact Laws.RowOfTable.btSetbw r bit
  | btSetpf en => exact Laws.RowOfTable.btSetpf en
  | pfPrepare addr => exact Laws.RowOfTable.pfPrepare addr
  | pfRead addr => exact Laws.RowOfTable.pfRead addr
  | pfAdvance cycles => exact Laws.RowOfTable.pfAdvance cycles
  | iaSetflag src => exact Laws.RowOfTable.iaSetflag src
  | iaWrenable mask => exact Laws.RowOfTable.iaWrenable mask
  | iaWrflagclr mask => exact Laws.RowOfTable.iaWrflagclr mask
  | iaHpp => exact Laws.RowOfTable.iaHpp
  | iaAck src => exact Laws.RowOfTable.iaAck src
  | xrWrite x cycle value => exact Laws.RowOfTable.xrWrite x cycle value
  | xrRead x asOf => exact Laws.RowOfTable.xrRead x asOf

/-- A frame that decodes hits the row of its command. -/
theorem hits_row_of_decode {f : Frame} {i : Instr} (h : decode f = .ok i) :
    ∃ row ∈ opcodeTable, row.mnemonic = i.mnemonic ∧ row.hits f = true := by
  obtain ⟨-, rfl⟩ := decodedFrameIsItsEncoding f i h
  exact encode_hits_row i

/-- Every row fixes the whole of OP. -/
theorem opcodeTable_care_op : ∀ row ∈ opcodeTable, row.care.op = BitVec.allOnes 8 := by decide

/-- No two rows have one OP. -/
theorem opcodeTable_op_nodup : (opcodeTable.map fun row => row.fixed.op).Nodup := by decide

/-- The OP of a frame that hits a row is the row's. -/
theorem op_of_hits {row : TableRow} {f : Frame} (hrow : row ∈ opcodeTable) (h : row.hits f = true) :
    row.fixed.op = f.op := by
  obtain ⟨hop, -⟩ := (row.hits_iff_fields f).1 h
  exact eq_of_masked hop (opcodeTable_care_op row hrow)

/-- A frame hits at most one row, since OP tells the rows apart. -/
theorem hits_unique {row row' : TableRow} {f : Frame} (hrow : row ∈ opcodeTable) (hrow' : row' ∈ opcodeTable)
    (h : row.hits f = true) (h' : row'.hits f = true) : row = row' :=
  List.inj_on_of_nodup_map opcodeTable_op_nodup hrow hrow' ((op_of_hits hrow h).trans (op_of_hits hrow' h').symm)

/-- A frame that hits a row is the encoding of a term of that mnemonic, its operands the fields that the row leaves
free. -/
theorem exists_encode_eq_of_hits {row : TableRow} {f : Frame} (hrow : row ∈ opcodeTable) (h : row.hits f = true) :
    ∃ i : Instr, i.mnemonic = row.mnemonic ∧ encode i = f := by
  have hop := op_of_hits hrow h
  obtain ⟨-, hx, ha, hb⟩ := (row.hits_iff_fields f).1 h
  simp only [opcodeTable, List.cons_append, List.nil_append, List.mem_cons, List.not_mem_nil, or_false] at hrow
  obtain rfl | rfl | rfl | rfl | rfl | rfl | rfl | rfl | rfl | rfl | rfl | rfl | rfl | rfl | rfl | rfl | rfl | rfl |
    rfl := hrow
  · exact ⟨.esInsert f.idx f.a, rfl, Frame.mk_eq_iff.2 ⟨hop, rfl, rfl, eq_of_masked hb rfl⟩⟩
  · exact ⟨.esRemove f.idx, rfl, Frame.mk_eq_iff.2 ⟨hop, rfl, eq_of_masked ha rfl, eq_of_masked hb rfl⟩⟩
  · exact ⟨.esReady f.a, rfl, Frame.mk_eq_iff.2 ⟨hop, eq_of_masked hx rfl, rfl, eq_of_masked hb rfl⟩⟩
  · exact ⟨.esPop f.a, rfl, Frame.mk_eq_iff.2 ⟨hop, eq_of_masked hx rfl, rfl, eq_of_masked hb rfl⟩⟩
  · exact ⟨.cdAdvance f.idx[0] f.a, rfl, Frame.mk_eq_iff.2
      ⟨hop, longIdx_eq (upper_zero_of_masked hx rfl rfl), rfl, eq_of_masked hb rfl⟩⟩
  · exact ⟨.cdBusgrant f.idx, rfl, Frame.mk_eq_iff.2 ⟨hop, rfl, eq_of_masked ha rfl, eq_of_masked hb rfl⟩⟩
  · exact ⟨.btCost (f.idx.extractLsb' 0 2) f.idx[2] f.a, rfl, Frame.mk_eq_iff.2
      ⟨hop, costIdx_eq (upper_zero_of_masked hx rfl rfl), rfl, eq_of_masked hb rfl⟩⟩
  · exact ⟨.btSetbw f.idx f.a[0], rfl, Frame.mk_eq_iff.2
      ⟨hop, rfl, bit64_eq (upper_zero_of_masked ha rfl rfl), eq_of_masked hb rfl⟩⟩
  · exact ⟨.btSetpf f.a[0], rfl, Frame.mk_eq_iff.2
      ⟨hop, eq_of_masked hx rfl, bit64_eq (upper_zero_of_masked ha rfl rfl), eq_of_masked hb rfl⟩⟩
  · exact ⟨.pfPrepare f.a, rfl, Frame.mk_eq_iff.2 ⟨hop, eq_of_masked hx rfl, rfl, eq_of_masked hb rfl⟩⟩
  · exact ⟨.pfRead f.a, rfl, Frame.mk_eq_iff.2 ⟨hop, eq_of_masked hx rfl, rfl, eq_of_masked hb rfl⟩⟩
  · exact ⟨.pfAdvance f.a, rfl, Frame.mk_eq_iff.2 ⟨hop, eq_of_masked hx rfl, rfl, eq_of_masked hb rfl⟩⟩
  · exact ⟨.iaSetflag f.idx, rfl, Frame.mk_eq_iff.2 ⟨hop, rfl, eq_of_masked ha rfl, eq_of_masked hb rfl⟩⟩
  · exact ⟨.iaWrenable f.a, rfl, Frame.mk_eq_iff.2 ⟨hop, eq_of_masked hx rfl, rfl, eq_of_masked hb rfl⟩⟩
  · exact ⟨.iaWrflagclr f.a, rfl, Frame.mk_eq_iff.2 ⟨hop, eq_of_masked hx rfl, rfl, eq_of_masked hb rfl⟩⟩
  · exact ⟨.iaHpp, rfl, Frame.mk_eq_iff.2 ⟨hop, eq_of_masked hx rfl, eq_of_masked ha rfl, eq_of_masked hb rfl⟩⟩
  · exact ⟨.iaAck f.idx, rfl, Frame.mk_eq_iff.2 ⟨hop, rfl, eq_of_masked ha rfl, eq_of_masked hb rfl⟩⟩
  · exact ⟨.xrWrite f.idx f.a f.b, rfl, Frame.mk_eq_iff.2 ⟨hop, rfl, rfl, rfl⟩⟩
  · exact ⟨.xrRead f.idx f.a, rfl, Frame.mk_eq_iff.2 ⟨hop, rfl, rfl, eq_of_masked hb rfl⟩⟩

/-! ### The reserved width code -/

/-- The only terms that are no commands are BT_COST with the width code 3 (R107). -/
theorem Instr.wf_eq_false_iff {i : Instr} : i.wf = false ↔ ∃ seq addr, i = .btCost 3#2 seq addr := by
  cases i with
  | btCost w seq addr => simp [Instr.wf, widthCodeOk]
  | _ => simp [Instr.wf]

/-- OP 0x30 is BT_COST's alone. -/
theorem eq_btCost_of_encode_op {i : Instr} (h : (encode i).op = 0x30#8) : ∃ w seq addr, i = .btCost w seq addr := by
  cases i with
  | btCost w seq addr => exact ⟨w, seq, addr, rfl⟩
  | _ => simp [encode] at h

/-- The field W of BT_COST, bits 1:0 of IDX, as bits of the frame (R103). -/
theorem Frame.extractLsb'_width (f : Frame) : f.extractLsb' 128 2 = f.idx.extractLsb' 0 2 := by
  ext j hj
  have hj8 : j < 8 := by omega
  simp [Frame.idx, hj8]

/-- The bits of a BT_COST frame that hold its width code. -/
theorem encode_btCost_width (w : BitVec 2) (seq : Bool) (addr : W64) :
    (encode (.btCost w seq addr)).extractLsb' 128 2 = w := by
  obtain ⟨-, hw, -⟩ := costIdx_fields w seq
  rw [Frame.extractLsb'_width, encode, Frame.mk_idx, hw]

/-- Settles O3: a legal frame is an encoding, and every frame that hits a row is the encoding of a term, which is a
command but for the reserved width code. -/
theorem legalFramesHitExactlyTheirRow : Obligations.LegalFramesHitExactlyTheirRow := by
  refine fun f => ⟨fun i h => hits_row_of_decode h, fun row hrow row' hrow' => hits_unique hrow hrow',
    fun row hrow h => ?_⟩
  obtain ⟨i, hname, rfl⟩ := exists_encode_eq_of_hits hrow h
  cases hwf : i.wf with
  | true => exact .inr ⟨i, decodeOfEncodeIsTheCommand i hwf, hname⟩
  | false =>
    obtain ⟨seq, addr, rfl⟩ := Instr.wf_eq_false_iff.1 hwf
    exact .inl ⟨hname.symm, encode_btCost_width 3#2 seq addr⟩

/-- A frame that R107 calls illegal does not decode: it hits no row, or it is BT_COST with `W = 3`. -/
theorem decode_ne_ok_of_illegal {f : Frame} (i : Instr)
    (hill : (∀ row ∈ opcodeTable, row.hits f = false) ∨ (f.op = 0x30#8 ∧ f.extractLsb' 128 2 = 3#2)) :
    decode f ≠ .ok i := by
  intro h
  rcases hill with hmiss | ⟨hop, hw⟩
  · obtain ⟨row, hrow, -, hhit⟩ := hits_row_of_decode h
    rw [hmiss row hrow] at hhit
    contradiction
  · obtain ⟨hwf, rfl⟩ := decodedFrameIsItsEncoding f i h
    obtain ⟨w, seq, addr, rfl⟩ := eq_btCost_of_encode_op hop
    rw [encode_btCost_width] at hw
    subst hw
    cases hwf

end Sys2Proof
end

section
/-! PROOFS. What a step makes of a frame (spec/30_encoding.md R107, R112): the command that it decodes to, or the fault
of an illegal frame. -/

namespace Sys2Proof.Machine

/-- A frame that decodes is performed as its command. -/
theorem performFrame_of_ok {f : Frame} {i : Instr} (h : decode f = .ok i) (s : State) :
    performFrame f s = exec i s := by
  rw [performFrame, h]

/-- In RUN a frame that decodes to nothing is answered with F_ILLEGAL_CMD (R107). -/
theorem performFrame_of_illegal {f : Frame} {s : State} (h : ∀ i, decode f ≠ .ok i) (hf : s.blk.fault = false) :
    performFrame f s = .next (s.takeFault .illegalCmd) := by
  obtain ⟨i, hi, -⟩ | ⟨-, -, hill⟩ := performFrame_cases f s
  · exact absurd hi (h i)
  · simp [hill, serveIllegal, hf]

/-- A frame read as a table word is the frame itself. -/
theorem tableFrame_toNat (f : Frame) : tableFrame 144 f.toNat = f := by
  rw [tableFrame, Nat.mod_eq_of_lt f.isLt, BitVec.ofNat_toNat, BitVec.setWidth_eq]

/-- Settles O4, by evaluation of the six frames. -/
theorem printedFramesDecode : Obligations.PrintedFramesDecode := by
  unfold Obligations.PrintedFramesDecode
  decide

/-- Settles O5: the frame that has arrived is performed on the state without it, and a stored command decodes to
itself. -/
theorem stepPerformsTheDecodedCommand : Obligations.StepPerformsTheDecodedCommand := by
  refine ⟨fun s f rest i hin h => ?_, fun s i hwf => ?_⟩
  · obtain ⟨hwf, -⟩ := decodedFrameIsItsEncoding f i h
    exact ⟨hwf, (step_frame s f rest hin).trans (performFrame_of_ok h _)⟩
  · have hin : (s.withFetchWord 144 (encode i).toNat).inbox = .frame (encode i) :: s.inbox := by
      rw [State.withFetchWord_inbox, tableFrame_toNat]
    exact (step_frame _ _ _ hin).trans (performFrame_of_ok (decodeOfEncodeIsTheCommand i hwf) _)

/-- Settles O6: neither kind of illegal frame decodes, and in RUN such a frame takes the fault. -/
theorem illegalFrameRaisesIllegalCmd : Obligations.IllegalFrameRaisesIllegalCmd := by
  intro s f rest hin hf hill
  have hstep := (step_frame s f rest hin).trans
    (performFrame_of_illegal (fun i => decode_ne_ok_of_illegal i hill) hf)
  exact ⟨_, hstep, rfl, rfl⟩

end Sys2Proof.Machine
end

section
/-! PROOFS. The fields of a response (spec/30_encoding.md R104 to R106): R1 is empty in every response, and only an OK
of CD_ADVANCE has a vector. -/

namespace Sys2Proof.Machine

/-- A response without R1 and without a vector. -/
def Response.Plain (r : Response) : Prop := r.r1 = 0#64 ∧ r.ticks = []

theorem Response.Plain.okWith (k : BitVec 8) (r0 : W64) : (Response.okWith k r0).Plain := ⟨rfl, rfl⟩

theorem Response.Plain.okay : Response.okay.Plain := ⟨rfl, rfl⟩

theorem Response.Plain.nothing : Response.nothing.Plain := ⟨rfl, rfl⟩

theorem Response.Plain.faultWith (code : BitVec 8) : (Response.faultWith code).Plain := ⟨rfl, rfl⟩

theorem Response.Plain.faultedWith (code : BitVec 8) : (Response.faultedWith code).Plain := ⟨rfl, rfl⟩

/-- An effect whose response, if it gives one, is plain. -/
def Effect.Plain (e : Effect) : Prop := ∀ b r, e = .ok (b, r) → r.Plain

theorem Effect.Plain.error (f : Cause) : Effect.Plain (.error f) := by
  intro b r h
  cases h

theorem Effect.Plain.ok {p : Block × Response} (hp : p.2.Plain) : Effect.Plain (.ok p) := by
  intro b r h
  cases h
  exact hp

/-- An effect that is chosen by a check is plain when both choices are. -/
theorem Effect.Plain.ite {p : Prop} [Decidable p] {e e' : Effect} (he : e.Plain) (he' : e'.Plain) :
    Effect.Plain (if p then e else e') := by
  split
  · exact he
  · exact he'

/-! ### The commands with a plain response -/

/-- A prefetch command is answered by its unit once its address is good, and else faults (R207). -/
theorem Effect.Plain.checked (c : Cfg) (a : W64) {p : Block × Response} (hp : p.2.Plain) :
    Effect.Plain (do checkPfAddress c a; return p) := by
  rcases checkPfAddress_cases c a with ⟨hchk, -⟩ | ⟨hchk, -⟩ | ⟨hchk, -⟩ <;> rw [hchk]
  · exact .ok hp
  · exact .error _
  · exact .error _

theorem prepare_plain (c : Cfg) (m : Memory) (b : Block) (a : W64) : (prepare c m b a).2.Plain := by
  unfold prepare
  split
  · exact .okWith _ _
  · split
    · exact .okWith _ _
    · exact .okWith _ _

theorem readWord_plain (c : Cfg) (b : Block) (a : W64) : (readWord c b a).2.Plain := by
  unfold readWord
  split
  · exact .nothing
  · split
    · exact .okWith _ _
    · exact .nothing

theorem hppResponse_plain (c : Cfg) (b : Block) : (hppResponse c b).Plain := by
  unfold hppResponse
  split
  · exact .okWith _ _
  · exact .nothing

/-- Every command but CD_ADVANCE has a plain response. -/
theorem effectOf_plain (c : Cfg) (m : Memory) (b : Block) {i : Instr} (hi : ∀ long mc, i ≠ .cdAdvance long mc) :
    (effectOf c m b i).Plain := by
  cases i with
  | esInsert kind due =>
    refine .ite (.error _) (.ite ?_ (.ok .okay))
    split
    · exact .error _
    · exact .ok .okay
  | esRemove kind =>
    refine .ite (.error _) (.ite ?_ (.ok .okay))
    split
    · exact .error _
    · exact .ok .okay
  | esReady now => exact .ok (.okWith _ _)
  | esPop now => exact .ite (.ok (.okWith _ _)) (.ok .nothing)
  | cdAdvance long mc => exact absurd rfl (hi long mc)
  | cdBusgrant d => exact .ite (.error _) (.ite (.error _) (.ok .okay))
  | btCost w seq addr => exact .ite (.error _) (.ite (.error _) (.ok (.okWith _ _)))
  | btSetbw r bit => exact .ite (.error _) (.ok .okay)
  | btSetpf en => exact .ite (.ok .okay) (.ok .okay)
  | pfPrepare addr => exact .checked c addr (prepare_plain c m b addr)
  | pfRead addr => exact .checked c addr (readWord_plain c b addr)
  | iaHpp => exact .ok (hppResponse_plain c b)
  | xrWrite x cycle value => exact .ite (.error _) (.ite (.error _) (.ok .okay))
  | xrRead x asOf => exact .ite (.error _) (.ok (.okWith _ _))
  | pfAdvance _ | iaSetflag _ | iaWrenable _ | iaWrflagclr _ | iaAck _ => exact .ok .okay

/-! ### CD_ADVANCE, and every command -/

/-- CD_ADVANCE answers OK with one pair for each domain (R106, R163). -/
theorem cdAdvanceEffect_response {c : Cfg} {b b' : Block} {long : Bool} {mc : W64} {r : Response}
    (h : cdAdvanceEffect c b long mc = .ok (b', r)) : r.status = .ok ∧ r.r1 = 0#64 ∧ r.ticks.length = c.nd := by
  simp only [cdAdvanceEffect] at h
  split at h
  · cases h
  · cases h
    simp

/-- The response of a command: with a vector of ND pairs for CD_ADVANCE's OK, and plain otherwise. -/
theorem exec_response {i : Instr} {s t : State} (h : exec i s = .next t) :
    ∃ r, t.out = some (.response r) ∧
      (((∃ long mc, i = .cdAdvance long mc) ∧ r.status = .ok ∧ r.r1 = 0#64 ∧ r.ticks.length = s.cfg.nd) ∨
        (¬ ((∃ long mc, i = .cdAdvance long mc) ∧ r.status = .ok) ∧ r.Plain)) := by
  rw [exec_eq_serve] at h
  rcases serve_next s t _ h with ⟨-, rfl⟩ | ⟨-, -, b, r, heff, rfl⟩ | ⟨-, -, f, -, rfl⟩
  · exact ⟨_, rfl, .inr ⟨fun ⟨_, hst⟩ => (by cases hst), .faultedWith _⟩⟩
  · refine ⟨r, rfl, ?_⟩
    by_cases hi : ∃ long mc, i = .cdAdvance long mc
    · obtain ⟨long, mc, rfl⟩ := hi
      exact .inl ⟨⟨long, mc, rfl⟩, cdAdvanceEffect_response heff⟩
    · have hne : ∀ long mc, i ≠ .cdAdvance long mc := by simpa using hi
      exact .inr ⟨fun ⟨hadv, _⟩ => hi hadv, effectOf_plain s.cfg s.back s.blk hne b r heff⟩
  · exact ⟨_, rfl, .inr ⟨fun ⟨_, hst⟩ => (by cases hst), .faultWith _⟩⟩

/-- The fixed fields of a response are laid out as those of a frame (R100, R104). -/
theorem Response.fixedBits_eq_mk (r : Response) : r.fixedBits = Frame.mk r.status.code r.k r.r0 r.r1 := rfl

/-- The fixed fields of a response stand in their bits (R104). -/
theorem Response.fixedBits_fields (r : Response) :
    r.fixedBits.extractLsb' 136 8 = r.status.code ∧ r.fixedBits.extractLsb' 128 8 = r.k ∧
      r.fixedBits.extractLsb' 64 64 = r.r0 ∧ r.fixedBits.extractLsb' 0 64 = r.r1 := by
  rw [r.fixedBits_eq_mk]
  exact ⟨Frame.mk_op _ _ _ _, Frame.mk_idx _ _ _ _, Frame.mk_a _ _ _ _, Frame.mk_b _ _ _ _⟩

/-- Settles O12: the fields of every response are in their places, and its length is that of its vector. -/
theorem responsesHaveTheirFields : Obligations.ResponsesHaveTheirFields := by
  intro i s t h
  obtain ⟨r, hout, hr⟩ := exec_response h
  obtain ⟨hstatus, hk, hr0, hlow⟩ := r.fixedBits_fields
  have hr1 : r.r1 = 0#64 := by
    rcases hr with ⟨-, -, hr1, -⟩ | ⟨-, hr1, -⟩ <;> exact hr1
  refine ⟨r, hout, hr1, hstatus, hk, hr0, hlow.trans hr1, ?_⟩
  rcases hr with ⟨hadv, hok, -, hlen⟩ | ⟨hother, -, hticks⟩
  · exact ⟨fun _ => by rw [Response.bitLength, hlen], fun hn => absurd ⟨hadv, hok⟩ hn⟩
  · exact ⟨fun hy => absurd hy hother, fun _ => by simp [Response.bitLength, hticks]⟩

end Sys2Proof.Machine
end

section
/-! PROOFS. The abstract schedule of a heap (spec/10_state.md R27, 40_event_scheduler.md R139): on entries of different
kinds the due cycle of a kind depends on the set of entries alone, and each heap procedure changes it at one kind. -/

namespace Sys2Proof.Machine

/-! ### The order of entries (R130) -/

theorem less_irrefl (a : Entry) : less a a = false := by
  rw [not_less_iff_nat]
  omega

theorem less_trans (a b c : Entry) (hab : less a b = true) (hbc : less b c = true) : less a c = true := by
  rw [less_iff_nat] at *
  omega

/-- Entries of different kinds are comparable. -/
theorem less_total (a b : Entry) (hne : a.kind ≠ b.kind) : less a b = true ∨ less b a = true := by
  rw [less_iff_nat, less_iff_nat]
  omega

/-- Every real entry is before the sentinel, one due at MAX64 included. -/
theorem less_sentinel (c : Cfg) (e : Entry) (he : e.kind < c.nk) : less e (sentinel c) = true := by
  have hmax : (sentinel c).due.toNat = 2 ^ 64 - 1 := rfl
  have hkind : (sentinel c).kind = c.nk := rfl
  have hlt := e.due.isLt
  rw [less_iff_nat]
  omega

/-- Settles O27, one law of the order at a time. -/
theorem lessIsTheStrictTotalOrder : Obligations.LessIsTheStrictTotalOrder :=
  ⟨less_iff, less_irrefl, less_trans, less_total, less_sentinel⟩

/-! ### The due cycle of a kind -/

/-- The due cycle of kind k in a heap: `sched` on the one element that it reads. Tied to it by `sched_eq_dueOf`. -/
def dueOf (h : List Entry) (k : Nat) : Option W64 := (h.find? fun e => e.kind == k).map Entry.due

theorem sched_eq_dueOf (b : Block) (k : Nat) : sched b k = dueOf b.heap k := rfl

theorem dueOf_cons (e : Entry) (h : List Entry) (k : Nat) :
    dueOf (e :: h) k = if k = e.kind then some e.due else dueOf h k := by
  unfold dueOf
  by_cases hk : e.kind = k
  · simp [hk]
  · simp [List.find?_cons_of_neg, hk, Ne.symm hk]

theorem dueOf_eq_none_iff (h : List Entry) (k : Nat) : dueOf h k = none ↔ k ∉ h.map Entry.kind := by
  simp [dueOf]

theorem dueOf_isSome_iff (h : List Entry) (k : Nat) : (dueOf h k).isSome = true ↔ k ∈ h.map Entry.kind := by
  rw [Option.isSome_iff_ne_none, ne_eq, dueOf_eq_none_iff, not_not]

/-- An entry is its kind and its due cycle. -/
theorem Entry.mk_eq_iff (k : Nat) (t : W64) (e : Entry) : ⟨k, t⟩ = e ↔ k = e.kind ∧ t = e.due := by
  cases e
  simp

/-- Among entries of different kinds, kind k is due at t exactly when the entry (k, t) is live. -/
theorem dueOf_eq_some_iff {h : List Entry} (hnd : (h.map Entry.kind).Nodup) (k : Nat) (t : W64) :
    dueOf h k = some t ↔ ⟨k, t⟩ ∈ h := by
  induction h with
  | nil => simp [dueOf]
  | cons e h ih =>
    obtain ⟨hnotin, hnd⟩ := List.nodup_cons.1 hnd
    rw [dueOf_cons, List.mem_cons]
    split
    · rename_i hk
      have hrest : (⟨k, t⟩ : Entry) ∉ h := fun hmem => hnotin (hk ▸ List.mem_map_of_mem hmem)
      rw [or_iff_left hrest, Entry.mk_eq_iff, and_iff_right hk, Option.some.injEq, eq_comm]
    · rename_i hk
      have hhead : (⟨k, t⟩ : Entry) ≠ e := fun he => hk (he ▸ rfl)
      simp only [hhead, false_or, ih hnd]

/-- The place of an entry in the array does not matter. -/
theorem dueOf_perm {h h' : List Entry} (hnd : (h.map Entry.kind).Nodup) (hp : h'.Perm h) (k : Nat) :
    dueOf h' k = dueOf h k :=
  Option.ext fun t => by
    rw [dueOf_eq_some_iff ((hp.map _).nodup_iff.2 hnd), dueOf_eq_some_iff hnd, hp.mem_iff]

/-- The entry of a live slot, and the due cycles of the other entries. -/
theorem dueOf_split {h : List Entry} (hnd : (h.map Entry.kind).Nodup) {i : Nat} (hi : i < h.length) (k : Nat) :
    dueOf h k = if k = (slot h i).kind then some (slot h i).due else dueOf (h.eraseIdx i) k := by
  rw [← dueOf_cons, slot_of_lt h i hi]
  exact (dueOf_perm hnd (List.getElem_cons_eraseIdx_perm hi) k).symm

/-- A kind stands in one slot only. -/
theorem kind_notMem_eraseIdx {h : List Entry} (hnd : (h.map Entry.kind).Nodup) {i : Nat} (hi : i < h.length) :
    (slot h i).kind ∉ (h.eraseIdx i).map Entry.kind := by
  have hperm := (List.getElem_cons_eraseIdx_perm hi).map Entry.kind
  rw [slot_of_lt h i hi]
  exact (List.nodup_cons.1 (hperm.nodup_iff.2 hnd)).1

/-! ### What the heap procedures do to it -/

/-- The update of a due cycle (R134). -/
theorem dueOf_updateDue {h : List Entry} (hnd : (h.map Entry.kind).Nodup) {i : Nat} (hi : i < h.length) (t : W64)
    (k : Nat) : dueOf (updateDue h i t) k = if k = (slot h i).kind then some t else dueOf h k := by
  have hp : (updateDue h i t).Perm (⟨(slot h i).kind, t⟩ :: h.eraseIdx i) :=
    (updateDue_perm h i t hi).trans (List.set_perm_cons_eraseIdx hi _)
  have hnd' : ((⟨(slot h i).kind, t⟩ :: h.eraseIdx i : List Entry).map Entry.kind).Nodup :=
    List.nodup_cons.2 ⟨kind_notMem_eraseIdx hnd hi, hnd.sublist ((List.eraseIdx_sublist h i).map _)⟩
  rw [dueOf_perm hnd' hp, dueOf_cons, dueOf_split hnd hi]
  split_ifs <;> rfl

/-- The insertion of an entry whose kind is not live (R134). -/
theorem dueOf_insert {h : List Entry} (hnd : (h.map Entry.kind).Nodup) {e : Entry} (he : e.kind ∉ h.map Entry.kind)
    (k : Nat) :
    dueOf (siftUp h.length (h ++ [e]) h.length).1 k = if k = e.kind then some e.due else dueOf h k := by
  have hp : (siftUp h.length (h ++ [e]) h.length).1.Perm (e :: h) :=
    (siftUp_perm _ _ _ (by simp)).trans (List.perm_append_singleton _ _)
  have hnd' : ((e :: h).map Entry.kind).Nodup := List.nodup_cons.2 ⟨he, hnd⟩
  rw [dueOf_perm hnd' hp, dueOf_cons]

/-- The removal of the entry of a slot (R138). -/
theorem dueOf_refill {h : List Entry} (hnd : (h.map Entry.kind).Nodup) {i : Nat} (hi : i < h.length) (k : Nat) :
    dueOf (refill h i) k = if k = (slot h i).kind then none else dueOf h k := by
  rw [dueOf_perm (hnd.sublist ((List.eraseIdx_sublist h i).map _)) (refill_perm h i hi), dueOf_split hnd hi k]
  split
  · rename_i hk
    exact (dueOf_eq_none_iff _ _).2 (hk ▸ kind_notMem_eraseIdx hnd hi)
  · rfl

/-- An update to the due cycle that the entry has moves nothing (R134 (b)). -/
theorem updateDue_same (h : List Entry) {i : Nat} (hi : i < h.length) : updateDue h i (slot h i).due = h := by
  have hset : h.set i ⟨(slot h i).kind, (slot h i).due⟩ = h := by
    rw [slot_of_lt h i hi]
    exact List.set_getElem_self hi
  simp [updateDue, hset]

/-! ### PRESENT and the root -/

/-- PRESENT tells which kinds in range are scheduled (R26 (d)). -/
theorem EntriesOk.isSome_dueOf {c : Cfg} {h : List Entry} {p : BitVec 8} (ok : EntriesOk c h p) {k : Nat}
    (hk : k < c.nk) : (dueOf h k).isSome = p.getLsbD k := by
  rw [Bool.eq_iff_iff, dueOf_isSome_iff, ok.present_iff]
  exact (and_iff_right hk).symm

/-- `find` succeeds for a kind whose bit of PRESENT is set. -/
theorem EntriesOk.findKind_of_present {c : Cfg} {h : List Entry} {p : BitVec 8} (ok : EntriesOk c h p) {k : Nat}
    (hp : p.getLsbD k = true) : ∃ i, findKind h k = some i ∧ i < h.length ∧ (slot h i).kind = k := by
  obtain ⟨-, hmem⟩ := (ok.present_iff k).1 hp
  cases hf : findKind h k with
  | none =>
    obtain ⟨e, he, hek⟩ := List.mem_map.1 hmem
    exact absurd hek ((findKind_none h k).1 hf e he)
  | some i => exact ⟨i, rfl, findKind_some h k i hf⟩

/-- The root is a live entry: it is scheduled at its due cycle. -/
theorem EntriesOk.dueOf_root {c : Cfg} {h : List Entry} {p : BitVec 8} (ok : EntriesOk c h p) :
    dueOf h (slot h 0).kind = some (slot h 0).due := by
  rw [dueOf_split ok.kinds_nodup ok.length_pos, if_pos rfl]

theorem EntriesOk.root_kind_le {c : Cfg} {h : List Entry} {p : BitVec 8} (ok : EntriesOk c h p) :
    (slot h 0).kind ≤ c.nk :=
  ok.kind_le _ ((dueOf_isSome_iff _ _).1 (by simp [ok.dueOf_root]))

/-- The root is the least scheduled pair (R26 (e), R130). -/
theorem ScheduleOk.root_least {c : Cfg} {h : List Entry} {p : BitVec 8} (ok : ScheduleOk c h p) {k : Nat} {t : W64}
    (hdue : dueOf h k = some t) : less ⟨k, t⟩ (slot h 0) = false := by
  obtain ⟨j, hj, hget⟩ := List.getElem_of_mem ((dueOf_eq_some_iff ok.kinds_nodup k t).1 hdue)
  rw [← hget, ← slot_of_lt h j hj]
  exact root_le h ok.ordered j hj

/-- The root is the sentinel only if nothing is scheduled. -/
theorem ScheduleOk.root_kind_ne {c : Cfg} {h : List Entry} {p : BitVec 8} (ok : ScheduleOk c h p) {k : Nat} {t : W64}
    (hk : k < c.nk) (hdue : dueOf h k = some t) : (slot h 0).kind ≠ c.nk := by
  intro hroot
  have hsent : dueOf h c.nk = some max64 := (dueOf_eq_some_iff ok.kinds_nodup _ _).2 ok.sentinel_mem
  have hrootDue := ok.dueOf_root
  rw [hroot, hsent, Option.some.injEq] at hrootDue
  have hslot : slot h 0 = sentinel c := ((Entry.mk_eq_iff _ _ _).2 ⟨hroot.symm, hrootDue⟩).symm
  have hnot := ok.root_least hdue
  rw [hslot, less_sentinel c ⟨k, t⟩ hk] at hnot
  contradiction

/-- The root against a scheduled pair, due cycle first and then kind (R130). -/
theorem ScheduleOk.root_le_pair {c : Cfg} {h : List Entry} {p : BitVec 8} (ok : ScheduleOk c h p) {k : Nat} {t : W64}
    (hdue : dueOf h k = some t) : (slot h 0).due < t ∨ ((slot h 0).due = t ∧ (slot h 0).kind ≤ k) := by
  have hleast := ok.root_least hdue
  rwa [not_less_iff_nat, ← BitVec.lt_def, BitVec.toNat_inj, eq_comm] at hleast

/-- The test of R136 and R137, on the root as a scheduled pair. -/
theorem ScheduleOk.rootReady_iff_scheduled {c : Cfg} {b : Block} (ok : ScheduleOk c b.heap b.present) (now : W64) :
    rootReady c (slot b.heap 0) now = true ↔
      Scheduled c b (slot b.heap 0).kind (slot b.heap 0).due ∧ (slot b.heap 0).due ≤ now := by
  simp only [rootReady, Bool.and_eq_true, bne_iff_ne, decide_eq_true_eq, Scheduled, sched_eq_dueOf, ok.dueOf_root,
    and_true, Nat.lt_iff_le_and_ne, ok.root_kind_le, true_and, ne_eq]

/-- The test of R136 and R137 asks whether something is due. -/
theorem ScheduleOk.rootReady_iff {c : Cfg} {b : Block} (ok : ScheduleOk c b.heap b.present) (now : W64) :
    rootReady c (slot b.heap 0) now = true ↔ SomethingDue c b now := by
  rw [ok.rootReady_iff_scheduled]
  constructor
  · rintro ⟨hroot, hnow⟩
    exact ⟨_, _, hroot, hnow⟩
  · rintro ⟨k, t, ⟨hk, hdue⟩, hnow⟩
    refine ⟨⟨Nat.lt_of_le_of_ne ok.root_kind_le (ok.root_kind_ne hk hdue), ok.dueOf_root⟩, ?_⟩
    rcases ok.root_le_pair hdue with hlt | ⟨heq, -⟩
    · exact BitVec.le_trans (BitVec.le_of_lt hlt) hnow
    · rwa [heq]

end Sys2Proof.Machine
end

section
/-! PROOFS. Serving a command in RUN and in a sound state (spec/60_exceptions.md R280, R282): what a sound machine is,
and a command's next state from its effect alone. -/

namespace Sys2Proof.Machine

theorem State.running_iff_shaped (s : State) : s.running = true ↔ s.blk.fault = false ∧ s.shaped = true := by
  simp [State.running]

/-- In RUN on well-typed elements a command has its effect. -/
theorem exec_of_ok {i : Instr} {s : State} {b : Block} {r : Response} (hs : s.running = true)
    (he : effectOf s.cfg s.back s.blk i = .ok (b, r)) : exec i s = .next (s.answer b r) := by
  obtain ⟨hf, hshaped⟩ := s.running_iff_shaped.1 hs
  rw [exec_eq_serve, he, serve_ok s b r hf hshaped]

/-- In RUN on well-typed elements a command takes the fault that its rule raises. -/
theorem exec_of_error {i : Instr} {s : State} {f : Cause} (hs : s.running = true)
    (he : effectOf s.cfg s.back s.blk i = .error f) : exec i s = .next (s.takeFault f) := by
  obtain ⟨hf, hshaped⟩ := s.running_iff_shaped.1 hs
  rw [exec_eq_serve, he, serve_error s f hf hshaped]

theorem State.sound_iff (s : State) : s.sound = true ↔ s.consistent = true ∧ s.blk.fault = false := by
  simp [State.sound]

/-- A sound machine is in RUN on well-typed elements. -/
theorem State.running_of_sound {s : State} (hs : s.sound = true) : s.running = true := by
  obtain ⟨hc, hf⟩ := s.sound_iff.1 hs
  exact s.running_iff_shaped.2 ⟨hf, State.shaped_of_consistent s hc hf⟩

/-- A sound machine has a valid CFG, and its elements meet every invariant. -/
theorem State.invariants_of_sound {s : State} (hs : s.sound = true) :
    s.cfg.valid = true ∧ s.blk.Invariants s.cfg := by
  obtain ⟨-, hv, -⟩ := (running_iff s).1 (State.running_of_sound hs)
  obtain ⟨hc, -⟩ := s.sound_iff.1 hs
  exact ⟨hv, ((State.consistent_iff_of_valid s hv).1 hc).2⟩

/-- A command keeps a sound machine sound if it leaves FAULT at 0. -/
theorem exec_sound {i : Instr} {s u : State} (hs : s.sound = true) (h : exec i s = .next u)
    (hf : u.blk.fault = false) : u.sound = true :=
  u.sound_iff.2 ⟨exec_consistent (s.sound_iff.1 hs).1 h, hf⟩

end Sys2Proof.Machine
end

section
/-! PROOFS. The Event Scheduler commands in a sound state (spec/40_event_scheduler.md R134 to R139): the effect of each
is said once by the schedule, and no response or schedule depends on the layout of the heap. -/

namespace Sys2Proof.Machine

/-! ### The effects by cases -/

theorem esInsertEffect_outOfRange {c : Cfg} {x : Idx} (hx : c.nk ≤ x.toNat) (b : Block) (t : W64) :
    esInsertEffect c b x t = .error .kindRange := by
  simp [esInsertEffect, kindInRange, idxNat, Nat.not_lt.2 hx]

theorem esRemoveEffect_outOfRange {c : Cfg} {x : Idx} (hx : c.nk ≤ x.toNat) (b : Block) :
    esRemoveEffect c b x = .error .kindRange := by
  simp [esRemoveEffect, kindInRange, idxNat, Nat.not_lt.2 hx]

theorem esInsertEffect_missing {c : Cfg} {b : Block} {x : Idx} (hx : x.toNat < c.nk)
    (hp : b.present.getLsbD x.toNat = true) (hf : findKind b.heap x.toNat = none) (t : W64) :
    esInsertEffect c b x t = .error .heapCorrupt := by
  simp [esInsertEffect, kindInRange, idxNat, isPresent, hx, hp, hf]

theorem esRemoveEffect_missing {c : Cfg} {b : Block} {x : Idx} (hx : x.toNat < c.nk)
    (hp : b.present.getLsbD x.toNat = true) (hf : findKind b.heap x.toNat = none) :
    esRemoveEffect c b x = .error .heapCorrupt := by
  simp [esRemoveEffect, kindInRange, idxNat, isPresent, hx, hp, hf]

theorem esInsertEffect_present {c : Cfg} {b : Block} {x : Idx} {i : Nat} (hx : x.toNat < c.nk)
    (hp : b.present.getLsbD x.toNat = true) (hf : findKind b.heap x.toNat = some i) (t : W64) :
    esInsertEffect c b x t = .ok ({ b with heap := updateDue b.heap i t }, .okay) := by
  simp [esInsertEffect, kindInRange, idxNat, isPresent, hx, hp, hf]

theorem esRemoveEffect_present {c : Cfg} {b : Block} {x : Idx} {i : Nat} (hx : x.toNat < c.nk)
    (hp : b.present.getLsbD x.toNat = true) (hf : findKind b.heap x.toNat = some i) :
    esRemoveEffect c b x = .ok (removeAt b i, .okay) := by
  simp [esRemoveEffect, kindInRange, idxNat, isPresent, hx, hp, hf]

theorem esInsertEffect_absent {c : Cfg} {b : Block} {x : Idx} (hx : x.toNat < c.nk)
    (hp : b.present.getLsbD x.toNat = false) (t : W64) :
    esInsertEffect c b x t = .ok ({ b with
      heap := (siftUp b.heap.length (b.heap ++ [⟨x.toNat, t⟩]) b.heap.length).1
      present := setPresent b.present x.toNat }, .okay) := by
  simp [esInsertEffect, kindInRange, idxNat, isPresent, hx, hp]

theorem esRemoveEffect_absent {c : Cfg} {b : Block} {x : Idx} (hx : x.toNat < c.nk)
    (hp : b.present.getLsbD x.toNat = false) : esRemoveEffect c b x = .ok (b, .okay) := by
  simp [esRemoveEffect, kindInRange, idxNat, isPresent, hx, hp]

/-! ### Faults of the operand and of the heap -/

/-- Settles O31: the range check is the first of both commands. -/
theorem kindOutOfRangeFaults : Obligations.KindOutOfRangeFaults := fun s _ t hs hx =>
  ⟨⟨_, exec_of_error hs (esInsertEffect_outOfRange hx s.blk t), rfl, rfl⟩,
    ⟨_, exec_of_error hs (esRemoveEffect_outOfRange hx s.blk), rfl, rfl⟩⟩

/-- Settles O32: `find` returns nothing. -/
theorem missingEntryIsHeapCorrupt : Obligations.MissingEntryIsHeapCorrupt := by
  intro s x t hs hx hp hnone
  have hf : findKind s.blk.heap x.toNat = none := (findKind_none _ _).2 hnone
  exact ⟨⟨_, exec_of_error hs (esInsertEffect_missing hx hp hf t), rfl, rfl⟩,
    ⟨_, exec_of_error hs (esRemoveEffect_missing hx hp hf), rfl, rfl⟩⟩

/-! ### ES_INSERT -/

/-- What ES_INSERT of a kind in range does to the schedule (R134). -/
theorem esInsertEffect_schedule {c : Cfg} {b : Block} (hnk : c.nk ≤ 8) (ok : ScheduleOk c b.heap b.present) {x : Idx}
    (hx : x.toNat < c.nk) (t : W64) :
    ∃ (h : List Entry) (p : BitVec 8),
      esInsertEffect c b x t = .ok ({ b with heap := h, present := p }, .okay) ∧
      (∀ k, dueOf h k = if k = x.toNat then some t else dueOf b.heap k) ∧
      h.length = b.heap.length + (if (dueOf b.heap x.toNat).isSome then 0 else 1) ∧
      (∀ k, p.getLsbD k = (b.present.getLsbD k || k == x.toNat)) := by
  rw [ok.isSome_dueOf hx]
  cases hp : b.present.getLsbD x.toNat with
  | true =>
    obtain ⟨i, hf, hi, hkind⟩ := ok.findKind_of_present hp
    refine ⟨updateDue b.heap i t, b.present, esInsertEffect_present hx hp hf t, fun k => ?_, ?_, fun k => ?_⟩
    · rw [dueOf_updateDue ok.kinds_nodup hi, hkind]
    · simpa using (updateDue_perm b.heap i t hi).length_eq
    · by_cases hk : k = x.toNat
      · simp [hk, hp]
      · simp [hk]
  | false =>
    have hnew : x.toNat ∉ b.heap.map Entry.kind := fun hmem => by
      have := (ok.present_iff x.toNat).2 ⟨hx, hmem⟩
      simp [hp] at this
    refine ⟨_, _, esInsertEffect_absent hx hp t, dueOf_insert ok.kinds_nodup hnew, by simp, fun k => ?_⟩
    rw [Bool.eq_iff_iff, setPresent_bit _ _ _ (by omega), Bool.or_eq_true, beq_iff_eq, or_comm]

/-- ES_INSERT of a kind at the due cycle that it has changes nothing (R134 (b)). -/
theorem esInsertEffect_same {c : Cfg} {b : Block} (ok : ScheduleOk c b.heap b.present) {x : Idx}
    (hx : x.toNat < c.nk) {t : W64} (hdue : dueOf b.heap x.toNat = some t) :
    esInsertEffect c b x t = .ok (b, .okay) := by
  have hp : b.present.getLsbD x.toNat = true := by simp [← ok.isSome_dueOf hx, hdue]
  obtain ⟨i, hf, hi, hkind⟩ := ok.findKind_of_present hp
  have hold : t = (slot b.heap i).due := by
    rw [dueOf_split ok.kinds_nodup hi, if_pos hkind.symm] at hdue
    exact (Option.some.inj hdue).symm
  rw [esInsertEffect_present hx hp hf, hold, updateDue_same b.heap hi]

/-- Settles O28, from what the effect does to the schedule. -/
theorem insertSchedulesTheKind : Obligations.InsertSchedulesTheKind := by
  intro s x t hs hx
  obtain ⟨hv, inv⟩ := State.invariants_of_sound hs
  obtain ⟨hnk, -⟩ := Cfg.clock_of_valid hv
  obtain ⟨h, p, heff, hdue, hlen, hbits⟩ := esInsertEffect_schedule hnk inv.schedule hx t
  refine ⟨h, p, exec_of_ok (State.running_of_sound hs) heff, ?_, fun k hk => ?_, hlen, fun k _ => hbits k⟩
  · rw [sched_eq_dueOf, hdue, if_pos rfl]
  · rw [sched_eq_dueOf, hdue, if_neg hk, sched_eq_dueOf]

/-- Settles O29: after the first ES_INSERT the kind has the due cycle, so the second changes nothing. -/
theorem insertTwiceIsInsertOnce : Obligations.InsertTwiceIsInsertOnce := by
  intro s x t hs hx
  obtain ⟨h, p, hexec, hdue, -⟩ := insertSchedulesTheKind s x t hs hx
  have hsound : (s.answer { s.blk with heap := h, present := p } Response.okay).sound = true :=
    exec_sound hs hexec (s.sound_iff.1 hs).2
  have heff := esInsertEffect_same (State.invariants_of_sound hsound).2.schedule hx hdue
  exact ⟨_, hexec, exec_of_ok (State.running_of_sound hsound) heff⟩

/-! ### Taking an entry out: ES_REMOVE and ES_POP -/

/-- The bits of PRESENT after `remove_at(i)` (R138). -/
theorem removeAt_present_bit (b : Block) (i k : Nat) :
    (removeAt b i).present.getLsbD k = (b.present.getLsbD k && k != (slot b.heap i).kind) := by
  rw [Bool.eq_iff_iff, removeAt, clearPresent_bit, Bool.and_eq_true, bne_iff_ne]

/-- What ES_REMOVE of a kind in range does to the schedule (R135). -/
theorem esRemoveEffect_schedule {c : Cfg} {b : Block} (ok : ScheduleOk c b.heap b.present) {x : Idx}
    (hx : x.toNat < c.nk) :
    ∃ (h : List Entry) (p : BitVec 8),
      esRemoveEffect c b x = .ok ({ b with heap := h, present := p }, .okay) ∧
      (∀ k, dueOf h k = if k = x.toNat then none else dueOf b.heap k) ∧
      (∀ k, p.getLsbD k = (b.present.getLsbD k && k != x.toNat)) ∧
      (dueOf b.heap x.toNat = none → h = b.heap ∧ p = b.present) := by
  have hsome := ok.isSome_dueOf hx
  cases hp : b.present.getLsbD x.toNat with
  | true =>
    obtain ⟨i, hf, hi, hkind⟩ := ok.findKind_of_present hp
    have hdue := fun k => dueOf_refill ok.kinds_nodup hi k
    have hbit := removeAt_present_bit b i
    rw [hkind] at hdue hbit
    exact ⟨_, _, esRemoveEffect_present hx hp hf, hdue, hbit, fun hnone => by simp [hnone, hp] at hsome⟩
  | false =>
    have hnone : dueOf b.heap x.toNat = none := by simpa [hp] using hsome
    refine ⟨b.heap, b.present, esRemoveEffect_absent hx hp, fun k => ?_, fun k => ?_, fun _ => ⟨rfl, rfl⟩⟩
    · by_cases hk : k = x.toNat
      · simp [hk, hnone]
      · simp [hk]
    · by_cases hk : k = x.toNat
      · simp [hk, hp]
      · simp [hk]

/-- Settles O30, from what the effect does to the schedule. -/
theorem removeUnschedulesTheKind : Obligations.RemoveUnschedulesTheKind := by
  intro s x hs hx
  obtain ⟨-, inv⟩ := State.invariants_of_sound hs
  obtain ⟨h, p, heff, hdue, hbits, habsent⟩ := esRemoveEffect_schedule inv.schedule hx
  refine ⟨h, p, exec_of_ok (State.running_of_sound hs) heff, ?_, fun k hk => ?_, fun k _ => hbits k, habsent⟩
  · rw [sched_eq_dueOf, hdue, if_pos rfl]
  · rw [sched_eq_dueOf, hdue, if_neg hk, sched_eq_dueOf]

theorem esPopEffect_ready {c : Cfg} {b : Block} {now : W64} (h : rootReady c (slot b.heap 0) now = true) :
    esPopEffect c b now =
      .ok (removeAt b 0, .okWith (toK (slot b.heap 0).kind) (slot b.heap 0).due) := by
  simp [esPopEffect, h]

theorem esPopEffect_notReady {c : Cfg} {b : Block} {now : W64} (h : ¬ rootReady c (slot b.heap 0) now = true) :
    esPopEffect c b now = .ok (b, .nothing) := by
  simp [esPopEffect, h]

/-- Settles O34: the root is ready exactly when something is due, and it is the least scheduled pair. -/
theorem popReturnsTheLeastDueEvent : Obligations.PopReturnsTheLeastDueEvent := by
  intro s now hs
  have hrun := State.running_of_sound hs
  obtain ⟨-, inv⟩ := State.invariants_of_sound hs
  have ok := inv.schedule
  constructor
  · intro hdue
    have hready := (ok.rootReady_iff now).2 hdue
    obtain ⟨hroot, hnow⟩ := (ok.rootReady_iff_scheduled now).1 hready
    have hrest : ∀ k, dueOf (removeAt s.blk 0).heap k = _ := dueOf_refill ok.kinds_nodup ok.length_pos
    refine ⟨_, _, (removeAt s.blk 0).heap, _, hroot, hnow, fun k t hkt => ok.root_le_pair hkt.2,
      exec_of_ok hrun (esPopEffect_ready hready), ?_, fun k hk => ?_, fun k _ => removeAt_present_bit s.blk 0 k⟩
    · rw [sched_eq_dueOf, hrest, if_pos rfl]
    · rw [sched_eq_dueOf, hrest, if_neg hk, sched_eq_dueOf]
  · intro hnot
    exact exec_of_ok hrun (esPopEffect_notReady (mt (ok.rootReady_iff now).1 hnot))

/-! ### ES_READY -/

/-- Settles O33: the root is ready exactly when something is due. -/
theorem readyTellsWhetherSomethingIsDue : Obligations.ReadyTellsWhetherSomethingIsDue := by
  intro s now hs
  obtain ⟨-, inv⟩ := State.invariants_of_sound hs
  have hready := inv.schedule.rootReady_iff now
  have hexec := exec_of_ok (i := .esReady now) (State.running_of_sound hs) rfl
  constructor
  · intro hdue
    rw [hexec, hready.2 hdue]
    rfl
  · intro hnot
    rw [hexec, Bool.eq_false_iff.2 (mt hready.1 hnot)]
    rfl

/-! ### The layout of the heap (R139) -/

theorem scheduled_congr {c : Cfg} {b d : Block} (hsame : ∀ k, sched b k = sched d k) (k : Nat) (t : W64) :
    Scheduled c b k t ↔ Scheduled c d k t := by
  rw [Scheduled, Scheduled, hsame]

theorem somethingDue_congr {c : Cfg} {b d : Block} (hsame : ∀ k, sched b k = sched d k) (now : W64) :
    SomethingDue c b now ↔ SomethingDue c d now := by
  simp only [SomethingDue, scheduled_congr hsame]

/-- A schedule has one least pair (R130). -/
theorem least_pair_unique {k k' : Nat} {t t' : W64} (h : t < t' ∨ (t = t' ∧ k ≤ k'))
    (h' : t' < t ∨ (t' = t ∧ k' ≤ k)) : k = k' ∧ t = t' := by
  rw [BitVec.lt_def, ← BitVec.toNat_inj] at *
  omega

/-- In RUN a sound machine's FAULT and CAUSE are both 0 (R42). -/
theorem State.fault_cause_of_sound {s : State} (hs : s.sound = true) : s.blk.fault = false ∧ s.blk.cause = 0#8 := by
  have hf := (s.sound_iff.1 hs).2
  have hcause := (State.invariants_of_sound hs).2.cause_ok
  exact ⟨hf, by simpa [Block.causeOk, hf] using hcause⟩

/-- A command shows a caller no difference between two machines in its response, the schedule after it, FAULT and
CAUSE. -/
def ShowsAlike (i : Instr) (s u : State) : Prop :=
  ∃ t v, exec i s = .next t ∧ exec i u = .next v ∧ t.out = v.out ∧ (∀ k, sched t.blk k = sched v.blk k) ∧
    t.blk.fault = v.blk.fault ∧ t.blk.cause = v.blk.cause

section Alike

variable {i : Instr} {s u : State} (hs : s.sound = true) (hu : u.sound = true) (hcfg : s.cfg = u.cfg)
  (hsame : ∀ k, sched s.blk k = sched u.blk k)

include hsame in
/-- Both machines take one fault. -/
theorem ShowsAlike.of_fault {code : BitVec 8} {r : Response}
    (h : ∃ t, exec i s = .next t ∧ t.blk = { s.blk with fault := true, cause := code } ∧ t.out = some (.response r))
    (h' : ∃ v, exec i u = .next v ∧ v.blk = { u.blk with fault := true, cause := code } ∧
      v.out = some (.response r)) : ShowsAlike i s u := by
  obtain ⟨t, hexec, hblk, hout⟩ := h
  obtain ⟨v, hexec', hblk', hout'⟩ := h'
  refine ⟨t, v, hexec, hexec', hout.trans hout'.symm, ?_⟩
  rw [hblk, hblk']
  exact ⟨hsame, rfl, rfl⟩

include hs hu hsame

/-- Both machines give one response and change the schedule at one kind, leaving one value there. -/
theorem ShowsAlike.of_change {h h' : List Entry} {p p' : BitVec 8} {r : Response} {k : Nat} {o : Option W64}
    (hexec : exec i s = .next (s.answer { s.blk with heap := h, present := p } r))
    (hexec' : exec i u = .next (u.answer { u.blk with heap := h', present := p' } r))
    (hat : sched { s.blk with heap := h } k = o) (hat' : sched { u.blk with heap := h' } k = o)
    (hoff : ∀ j, j ≠ k → sched { s.blk with heap := h } j = sched s.blk j)
    (hoff' : ∀ j, j ≠ k → sched { u.blk with heap := h' } j = sched u.blk j) : ShowsAlike i s u := by
  obtain ⟨hf, hc⟩ := State.fault_cause_of_sound hs
  obtain ⟨hf', hc'⟩ := State.fault_cause_of_sound hu
  refine ⟨_, _, hexec, hexec', rfl, fun j => ?_, hf.trans hf'.symm, hc.trans hc'.symm⟩
  by_cases hj : j = k
  · exact hj ▸ hat.trans hat'.symm
  · exact (hoff j hj).trans ((hsame j).trans (hoff' j hj).symm)

/-- Both machines give one response and change nothing. -/
theorem ShowsAlike.of_unchanged {r : Response} (hexec : exec i s = .next (s.answer s.blk r))
    (hexec' : exec i u = .next (u.answer u.blk r)) : ShowsAlike i s u :=
  .of_change hs hu hsame hexec hexec' (hsame 0) rfl (fun _ _ => rfl) (fun _ _ => rfl)

include hcfg

theorem esInsert_showsAlike (x : Idx) (t : W64) : ShowsAlike (.esInsert x t) s u := by
  rcases Nat.lt_or_ge x.toNat s.cfg.nk with hx | hx
  · obtain ⟨h, p, hexec, hat, hoff, -⟩ := insertSchedulesTheKind s x t hs hx
    obtain ⟨h', p', hexec', hat', hoff', -⟩ := insertSchedulesTheKind u x t hu (hcfg ▸ hx)
    exact .of_change hs hu hsame hexec hexec' hat hat' hoff hoff'
  · obtain ⟨hfault, -⟩ := kindOutOfRangeFaults s x t (State.running_of_sound hs) hx
    obtain ⟨hfault', -⟩ := kindOutOfRangeFaults u x t (State.running_of_sound hu) (hcfg ▸ hx)
    exact .of_fault hsame hfault hfault'

theorem esRemove_showsAlike (x : Idx) : ShowsAlike (.esRemove x) s u := by
  rcases Nat.lt_or_ge x.toNat s.cfg.nk with hx | hx
  · obtain ⟨h, p, hexec, hat, hoff, -⟩ := removeUnschedulesTheKind s x hs hx
    obtain ⟨h', p', hexec', hat', hoff', -⟩ := removeUnschedulesTheKind u x hu (hcfg ▸ hx)
    exact .of_change hs hu hsame hexec hexec' hat hat' hoff hoff'
  · obtain ⟨-, hfault⟩ := kindOutOfRangeFaults s x 0#64 (State.running_of_sound hs) hx
    obtain ⟨-, hfault'⟩ := kindOutOfRangeFaults u x 0#64 (State.running_of_sound hu) (hcfg ▸ hx)
    exact .of_fault hsame hfault hfault'

theorem esReady_showsAlike (now : W64) : ShowsAlike (.esReady now) s u := by
  obtain ⟨hyes, hno⟩ := readyTellsWhetherSomethingIsDue s now hs
  obtain ⟨hyes', hno'⟩ := readyTellsWhetherSomethingIsDue u now hu
  rw [← hcfg, ← somethingDue_congr hsame] at hyes' hno'
  by_cases hdue : SomethingDue s.cfg s.blk now
  · exact .of_unchanged hs hu hsame (hyes hdue) (hyes' hdue)
  · exact .of_unchanged hs hu hsame (hno hdue) (hno' hdue)

theorem esPop_showsAlike (now : W64) : ShowsAlike (.esPop now) s u := by
  obtain ⟨hyes, hno⟩ := popReturnsTheLeastDueEvent s now hs
  obtain ⟨hyes', hno'⟩ := popReturnsTheLeastDueEvent u now hu
  simp only [← hcfg, ← somethingDue_congr hsame, ← scheduled_congr hsame] at hyes' hno'
  by_cases hdue : SomethingDue s.cfg s.blk now
  · obtain ⟨k, t, h, p, hkt, -, hleast, hexec, hat, hoff, -⟩ := hyes hdue
    obtain ⟨k', t', h', p', hkt', -, hleast', hexec', hat', hoff', -⟩ := hyes' hdue
    obtain ⟨rfl, rfl⟩ := least_pair_unique (hleast k' t' hkt') (hleast' k t hkt)
    exact .of_change hs hu hsame hexec hexec' hat hat' hoff hoff'
  · exact .of_unchanged hs hu hsame (hno hdue) (hno' hdue)

end Alike

/-- Settles O35: each command's response and its change of the schedule are said by the schedule alone. -/
theorem heapLayoutNeverShows : Obligations.HeapLayoutNeverShows := by
  intro i s u hi hs hu hcfg hsame
  cases i with
  | esInsert x t => exact esInsert_showsAlike hs hu hcfg hsame x t
  | esRemove x => exact esRemove_showsAlike hs hu hcfg hsame x
  | esReady now => exact esReady_showsAlike hs hu hcfg hsame now
  | esPop now => exact esPop_showsAlike hs hu hcfg hsame now
  | _ => cases hi

end Sys2Proof.Machine
end

section
/-! PROOFS. The Clock Domain Converter commands (spec/41_clock_domain_converter.md R161 to R166): what CD_ADVANCE leaves
and answers is said once, in numbers, because under a valid CFG every figure of the rules fits its 64-bit field. -/

namespace Sys2Proof

/-- The dividers and the period are u64 parameters (00_scope.md R9). -/
theorem Cfg.clock_fits64_of_valid {c : Cfg} (h : c.valid = true) :
    (∀ d ∈ c.div, d ≤ maxNat64) ∧ c.refPeriod ≤ maxNat64 := by
  simp only [Cfg.valid, Cfg.clockOk, fits64, Bool.and_eq_true, decide_eq_true_eq, List.all_eq_true, and_assoc] at h
  obtain ⟨-, -, -, -, hdiv, hperiod, -⟩ := h
  exact ⟨fun d hd => (hdiv d hd).2, hperiod⟩

end Sys2Proof

namespace Sys2Proof.Machine

/-! ### The figures of the rules fit their fields -/

/-- A number of at most MAX64 is read back from its field. -/
theorem toW64_toNat_of_le {n : Nat} (h : n ≤ maxNat64) : (toW64 n).toNat = n :=
  toW64_toNat n (Nat.lt_of_le_of_lt h (by decide))

/-- Every 64-bit field holds a number of at most MAX64. -/
theorem toNat_le_maxNat64 (x : W64) : x.toNat ≤ maxNat64 :=
  Nat.le_sub_one_of_lt x.isLt

/-- The remainder of a conversion is below its divider, and so a 64-bit number (R161). -/
theorem convertRest_le_max {c : Cfg} (hv : c.valid = true) (b : Block) (m : Nat) {d : Nat} (hd : d < c.nd) :
    convertRest c b m d ≤ maxNat64 := by
  have hmem : divOf c d ∈ c.div := by
    rw [divOf, List.getD_eq_getElem _ _ hd]
    exact List.getElem_mem hd
  exact (convertRest_lt c b m d (Cfg.div_pos_of_valid hv d hd)).le.trans ((Cfg.clock_fits64_of_valid hv).1 _ hmem)

/-- A remainder below the divider adds no whole tick to the cycles of the command (R31, R161). -/
theorem convertTicks_le {c : Cfg} {b : Block} {d : Nat} (hacc : accOf b d < divOf c d) (m : Nat) :
    convertTicks c b m d ≤ m := by
  have hm : m ≤ m * divOf c d := Nat.le_mul_of_pos_right m (Nat.zero_lt_of_lt hacc)
  refine Nat.le_of_lt_succ ((Nat.div_lt_iff_lt_mul (Nat.zero_lt_of_lt hacc)).2 ?_)
  rw [Nat.succ_mul]
  omega

/-- The new REFCNT is below the period, and so a 64-bit number (R164). -/
theorem periodic_rest_le_max {c : Cfg} (hv : c.valid = true) (b : Block) (m : Nat) (long : Bool) :
    (periodic c b m long).2 ≤ maxNat64 := by
  obtain ⟨hoff, hlt⟩ := periodic_rest hv b m long
  have hperiod := (Cfg.clock_fits64_of_valid hv).2
  by_cases hp : c.refPeriod = 0
  · rw [hoff hp]
    exact Nat.zero_le _
  · have := hlt hp
    omega

/-- When the primary's stall fits with what is injected, every domain's does (R163). -/
theorem stallWith_le_max {b : Block} {inj : Nat} (hfit : stallOf b 0 + inj ≤ maxNat64) (d : Nat) :
    stallWith b inj d ≤ maxNat64 := by
  unfold stallWith
  split
  · exact hfit
  · exact toNat_le_maxNat64 _

/-- The injected stall counts for the primary alone (R163). -/
theorem stallWith_eq_add (b : Block) (inj d : Nat) : stallWith b inj d = stallOf b d + if d = 0 then inj else 0 := by
  unfold stallWith
  split
  · rename_i hd
    rw [hd]
  · rfl

/-! ### CD_ADVANCE -/

/-- The elements `b'` and the response `r` of a CD_ADVANCE over m cycles that completes, in the numbers of R161 to R164:
`p` is what `periodic` gives, the ticks injected and the new REFCNT. Tied to the effect by `cdAdvanceEffect_of_fits`. -/
structure AdvancedBy (c : Cfg) (b : Block) (m : Nat) (p : Nat × Nat) (b' : Block) (r : Response) : Prop where
  frame : b' = { b with acc := b'.acc, stall := b'.stall, refcnt := b'.refcnt }
  refcnt : b'.refcnt.toNat = p.2
  acc_length : b'.acc.length = c.nd
  stall_length : b'.stall.length = c.nd
  acc : ∀ d, d < c.nd → accOf b' d = convertRest c b m d
  stall : ∀ d, d < c.nd → stallOf b' d = stallWith b p.1 d - stallSpent c b p.1 m d
  status : r.status = .ok
  k : r.k = 0#8
  r0 : r.r0.toNat = p.1
  r1 : r.r1 = 0#64
  ticks_length : r.ticks.length = c.nd
  converted : ∀ d, d < c.nd → (r.ticks.getD d (0#64, 0#64)).1.toNat = convertTicks c b m d
  executed : ∀ d, d < c.nd →
    (r.ticks.getD d (0#64, 0#64)).2.toNat = convertTicks c b m d - stallSpent c b p.1 m d

theorem cdAdvanceEffect_of_overflow {c : Cfg} {b : Block} {long : Bool} {mc : W64}
    (h : maxNat64 < stallOf b 0 + (periodic c b mc.toNat long).1) :
    cdAdvanceEffect c b long mc = .error .cdOverflow := by
  simp [cdAdvanceEffect, h]

/-- CD_ADVANCE completes when the primary's stall fits, with every figure in its field (R163). -/
theorem cdAdvanceEffect_of_fits {c : Cfg} {b : Block} {long : Bool} {mc : W64} (hv : c.valid = true)
    (ok : ClockOk c b.acc b.stall b.refcnt) (hfit : stallOf b 0 + (periodic c b mc.toNat long).1 ≤ maxNat64) :
    ∃ b' r, cdAdvanceEffect c b long mc = .ok (b', r) ∧
      AdvancedBy c b mc.toNat (periodic c b mc.toNat long) b' r := by
  have hticks : ∀ d, d < c.nd → convertTicks c b mc.toNat d ≤ maxNat64 := fun d hd =>
    (convertTicks_le (ok.acc_lt d hd) mc.toNat).trans (toNat_le_maxNat64 mc)
  refine ⟨_, _, if_neg (Nat.not_lt.2 hfit), ?_⟩
  exact {
    frame := rfl
    refcnt := toW64_toNat_of_le (periodic_rest_le_max hv b _ long)
    acc_length := by simp
    stall_length := by simp
    acc := fun d hd => by
      simpa [accOf, hd] using toW64_toNat_of_le (convertRest_le_max hv b mc.toNat hd)
    stall := fun d hd => by
      simpa [stallOf, hd] using toW64_toNat_of_le ((Nat.sub_le _ _).trans (stallWith_le_max hfit d))
    status := rfl
    k := rfl
    r0 := toW64_toNat_of_le ((Nat.le_add_left _ _).trans hfit)
    r1 := rfl
    ticks_length := by simp
    converted := fun d hd => by
      simpa [tickPair, hd] using toW64_toNat_of_le (hticks d hd)
    executed := fun d hd => by
      simpa [tickPair, hd] using toW64_toNat_of_le ((Nat.sub_le _ _).trans (hticks d hd)) }

/-- A CD_ADVANCE of a sound machine that leaves FAULT at 0 has completed. -/
theorem advancedBy_of_exec {s t : State} {long : Bool} {mc : W64} {r : Response} (hs : s.sound = true)
    (h : exec (.cdAdvance long mc) s = .next t) (hf : t.blk.fault = false) (hout : t.out = some (.response r)) :
    AdvancedBy s.cfg s.blk mc.toNat (periodic s.cfg s.blk mc.toNat long) t.blk r := by
  have hrun := State.running_of_sound hs
  obtain ⟨hv, inv⟩ := State.invariants_of_sound hs
  rcases Nat.lt_or_ge maxNat64 (stallOf s.blk 0 + (periodic s.cfg s.blk mc.toNat long).1) with hover | hfit
  · cases h.symm.trans (exec_of_error hrun (cdAdvanceEffect_of_overflow hover))
    cases hf
  · obtain ⟨b', r', heff, hadv⟩ := cdAdvanceEffect_of_fits hv inv.clock hfit
    cases h.symm.trans (exec_of_ok hrun heff)
    cases hout
    exact hadv

/-- The periods crossed and the count left fix what is injected and the new REFCNT (R164), the period off included. -/
theorem periodic_eq {c : Cfg} {b : Block} {m n newref inj : Nat} {long : Bool}
    (hoff : c.refPeriod = 0 → n = 0 ∧ newref = 0)
    (hon : 0 < c.refPeriod → n * (c.refPeriod - c.refSlack) + newref = b.refcnt.toNat + m ∧
      newref < c.refPeriod - c.refSlack)
    (hinj : inj = if n = 0 then 0 else if long then c.refStallLong else n * c.refStall) :
    periodic c b m long = (inj, newref) := by
  rcases Nat.eq_zero_or_pos c.refPeriod with hp | hp
  · obtain ⟨rfl, rfl⟩ := hoff hp
    rw [periodic_of_off c b m long hp, hinj, if_pos rfl]
  · obtain ⟨hcount, hlt⟩ := hon hp
    rw [periodic_of_crossed c b m n newref long hp.ne' hcount hlt, hinj]

/-- Settles O36, by whether the primary's stall fits. -/
theorem advanceConvertsAndGatesEveryDomain : Obligations.AdvanceConvertsAndGatesEveryDomain := by
  intro s long mc n newref inj hs hoff hon hinj
  have hper : periodic s.cfg s.blk mc.toNat long = (inj, newref) := periodic_eq hoff hon hinj
  have hrun := State.running_of_sound hs
  obtain ⟨hv, inv⟩ := State.invariants_of_sound hs
  constructor
  · intro hfit
    have hfit' : stallOf s.blk 0 + (periodic s.cfg s.blk mc.toNat long).1 ≤ maxNat64 := by rwa [hper]
    obtain ⟨b', r, heff, adv⟩ := cdAdvanceEffect_of_fits hv inv.clock hfit'
    rw [hper] at adv
    refine ⟨b', r, exec_of_ok hrun heff, adv.status, adv.k, adv.r0, adv.r1, adv.ticks_length, adv.frame, adv.refcnt,
      adv.acc_length, adv.stall_length, ?_⟩
    rintro d hd _ _ wait rfl rfl hwait
    have hwith : stallWith s.blk inj d = wait := (stallWith_eq_add s.blk inj d).trans hwait.symm
    have hspent : stallSpent s.cfg s.blk inj mc.toNat d = min wait (convertTicks s.cfg s.blk mc.toNat d) := by
      rw [stallSpent, hwith]
    refine ⟨adv.converted d hd, adv.acc d hd, (adv.executed d hd).trans ?_, (adv.stall d hd).trans ?_⟩
    · rw [hspent]
      rfl
    · rw [hspent, hwith]
      rfl
  · intro hover
    have hover' : maxNat64 < stallOf s.blk 0 + (periodic s.cfg s.blk mc.toNat long).1 := by rwa [hper]
    exact ⟨_, exec_of_error hrun (cdAdvanceEffect_of_overflow hover'), rfl, rfl⟩

/-- Settles O37: the conversion conserves cycles, and the stall spent is within the stall and the ticks. -/
theorem advanceConservesCycles : Obligations.AdvanceConservesCycles := by
  intro s t long mc r hs h hf hout d hd
  have adv := advancedBy_of_exec hs h hf hout
  refine ⟨?_, ?_⟩
  · rw [adv.converted d hd]
    exact (congrArg _ (adv.acc d hd)).trans (convert_conserves s.cfg s.blk mc.toNat d)
  · intro before after hbefore hafter
    rw [adv.r0] at hbefore
    have hbefore' := hbefore.trans (stallWith_eq_add s.blk _ d).symm
    have hafter' := hafter.trans (adv.stall d hd)
    obtain ⟨hstall, hticks⟩ := stallSpent_le s.cfg s.blk (periodic s.cfg s.blk mc.toNat long).1 mc.toNat d
    rw [adv.executed d hd, adv.converted d hd]
    omega

/-! ### Two CD_ADVANCE after each other -/

/-- Dividing in two goes: what the first leaves is carried into the second. -/
theorem div_add_div_of_rest {k : Nat} (hk : 0 < k) (x y : Nat) : x / k + (x % k + y) / k = (x + y) / k := by
  conv_rhs => rw [← Nat.div_add_mod x k, Nat.add_assoc, Nat.mul_add_div hk]

/-- Two conversions, the second from the remainder of the first (R161). -/
theorem convert_add {c : Cfg} {b b' : Block} {m1 d : Nat} (hdiv : 0 < divOf c d)
    (hacc : accOf b' d = convertRest c b m1 d) (m2 : Nat) :
    convertTicks c b m1 d + convertTicks c b' m2 d = convertTicks c b (m1 + m2) d ∧
      convertRest c b' m2 d = convertRest c b (m1 + m2) d := by
  simp only [convertTicks, convertRest, hacc, ← Nat.add_assoc]
  exact ⟨div_add_div_of_rest hdiv _ m2, Nat.mod_add_mod _ _ m2⟩

/-- Without LONG every period crossed injects REF_STALL (R164). -/
theorem periodic_of_short {c : Cfg} (hp : c.refPeriod ≠ 0) (b : Block) (m : Nat) :
    periodic c b m false =
      ((b.refcnt.toNat + m) / periodThreshold c * c.refStall, (b.refcnt.toNat + m) % periodThreshold c) := by
  simp only [periodic, hp, if_false, Bool.false_eq_true]
  split
  · rename_i hnone
    rw [hnone, Nat.zero_mul]
  · rfl

/-- Two counts without LONG, the second from what is left of the first (R164). -/
theorem periodic_add {c : Cfg} (hv : c.valid = true) {b b' : Block} {m1 : Nat}
    (hcnt : b'.refcnt.toNat = (periodic c b m1 false).2) (m2 : Nat) :
    (periodic c b m1 false).1 + (periodic c b' m2 false).1 = (periodic c b (m1 + m2) false).1 ∧
      (periodic c b' m2 false).2 = (periodic c b (m1 + m2) false).2 := by
  by_cases hp : c.refPeriod = 0
  · simp [periodic_of_off, hp]
  · obtain ⟨-, -, hslack⟩ := Cfg.clock_of_valid hv
    have hth : 0 < periodThreshold c := Nat.sub_pos_of_lt (hslack hp)
    simp only [periodic_of_short hp] at hcnt ⊢
    rw [hcnt, ← Nat.add_mul, div_add_div_of_rest hth, Nat.mod_add_mod, Nat.add_assoc]
    exact ⟨rfl, rfl⟩

/-- Lists of the remainders of ND domains are equal when every remainder is. -/
theorem acc_ext {b b' : Block} {n : Nat} (hlen : b.acc.length = n) (hlen' : b'.acc.length = n)
    (h : ∀ d, d < n → accOf b d = accOf b' d) : b.acc = b'.acc := by
  refine List.ext_getElem (hlen.trans hlen'.symm) fun d hd hd' => BitVec.eq_of_toNat_eq ?_
  have := h d (hlen ▸ hd)
  rwa [accOf, accOf, List.getD_eq_getElem _ _ hd, List.getD_eq_getElem _ _ hd'] at this

/-- FAULT was 0 before a command that leaves it at 0 (60_exceptions.md R283). -/
theorem not_fault_of_exec {i : Instr} {s t : State} (h : exec i s = .next t) (hf : t.blk.fault = false) :
    s.blk.fault = false := by
  rcases exec_blk_cases h with hb | ⟨hf', -⟩ | ⟨hf', -⟩
  · rwa [← hb]
  · exact hf'
  · exact hf'

/-- Settles O38: the second command converts and counts on from what the first has left. -/
theorem twoAdvancesConvertAsOne : Obligations.TwoAdvancesConvertAsOne := by
  intro s t v w m1 m2 resT resV resW hs hsum ht hv hw hvf hwf htout hvout hwout
  obtain ⟨hvalid, -⟩ := State.invariants_of_sound hs
  have htf := not_fault_of_exec hv hvf
  have advT := advancedBy_of_exec hs ht htf htout
  have advV := advancedBy_of_exec (exec_sound hs ht htf) hv hvf hvout
  have advW := advancedBy_of_exec hs hw hwf hwout
  obtain ⟨hcfg, -⟩ := serve_frame s t _ ((exec_eq_serve _ s).symm.trans ht)
  rw [hcfg] at advV
  rw [BitVec.toNat_add_of_lt hsum] at advW
  obtain ⟨hinj, hcnt⟩ := periodic_add hvalid advT.refcnt m2.toNat
  have hconv := fun d hd => convert_add (Cfg.div_pos_of_valid hvalid d hd) (advT.acc d hd) m2.toNat
  refine ⟨acc_ext advV.acc_length advW.acc_length fun d hd => ?_, BitVec.eq_of_toNat_eq ?_, ?_, fun d hd => ?_⟩
  · rw [advV.acc d hd, advW.acc d hd, (hconv d hd).2]
  · rw [advV.refcnt, advW.refcnt, hcnt]
  · rw [advT.r0, advV.r0, advW.r0, hinj]
  · rw [advT.converted d hd, advV.converted d hd, advW.converted d hd, (hconv d hd).1]

/-! ### CD_BUSGRANT -/

theorem secondaryDomain_iff (c : Cfg) (x : Idx) : secondaryDomain c x = true ↔ 1 ≤ x.toNat ∧ x.toNat < c.nd := by
  rw [secondaryDomain, idxNat, Bool.and_eq_true, decide_eq_true_eq, decide_eq_true_eq]

theorem cdBusgrantEffect_of_range {c : Cfg} {x : Idx} (hx : x.toNat = 0 ∨ c.nd ≤ x.toNat) (b : Block) :
    cdBusgrantEffect c b x = .error .operandRange := by
  have hnot : secondaryDomain c x = false := by
    rw [Bool.eq_false_iff, ne_eq, secondaryDomain_iff]
    omega
  simp [cdBusgrantEffect, hnot]

theorem cdBusgrantEffect_of_overflow {c : Cfg} {b : Block} {x : Idx} (hx : secondaryDomain c x = true)
    (hover : maxNat64 < stallOf b 0 + c.grantPri ∨ maxNat64 < stallOf b x.toNat + grantSecondary c b) :
    cdBusgrantEffect c b x = .error .cdOverflow := by
  have hcheck : (decide (maxNat64 < stallOf b 0 + c.grantPri) ||
      decide (maxNat64 < stallOf b (idxNat x) + grantSecondary c b)) = true := by
    rwa [Bool.or_eq_true, decide_eq_true_eq, decide_eq_true_eq]
  simp only [cdBusgrantEffect, hx, hcheck, Bool.not_true, Bool.false_eq_true, if_false, if_true]

/-- The stalls after a grant to domain d (R165). -/
def grantedStalls (c : Cfg) (b : Block) (d : Nat) : List W64 :=
  (b.stall.set 0 (toW64 (stallOf b 0 + c.grantPri))).set d (toW64 (stallOf b d + grantSecondary c b))

theorem cdBusgrantEffect_of_fits {c : Cfg} {b : Block} {x : Idx} (hx : secondaryDomain c x = true)
    (hpri : stallOf b 0 + c.grantPri ≤ maxNat64) (hsec : stallOf b x.toNat + grantSecondary c b ≤ maxNat64) :
    cdBusgrantEffect c b x =
      .ok ({ b with stall := grantedStalls c b x.toNat, toggle := !b.toggle }, .okay) := by
  simp [cdBusgrantEffect, grantedStalls, hx, Nat.not_lt.2 hpri, Nat.not_lt.2 hsec, idxNat]

@[simp] theorem grantedStalls_length (c : Cfg) (b : Block) (d : Nat) :
    (grantedStalls c b d).length = b.stall.length := by
  simp [grantedStalls]

/-- The primary is charged GRANT_PRI. -/
theorem grantedStalls_primary (c : Cfg) {b : Block} {d : Nat} (hd : d ≠ 0) (hlen : 0 < b.stall.length) :
    (grantedStalls c b d).getD 0 0#64 = toW64 (stallOf b 0 + c.grantPri) := by
  rw [grantedStalls, List.getD_eq_getElem?_getD, List.getElem?_set_ne hd, List.getElem?_set_self hlen, Option.getD_some]

/-- The secondary domain is charged the even or the odd figure. -/
theorem grantedStalls_secondary (c : Cfg) {b : Block} {d : Nat} (hlen : d < b.stall.length) :
    (grantedStalls c b d).getD d 0#64 = toW64 (stallOf b d + grantSecondary c b) := by
  simp [grantedStalls, List.getD_eq_getElem?_getD, hlen]

/-- No other domain is charged. -/
theorem grantedStalls_other (c : Cfg) (b : Block) {d e : Nat} (h0 : e ≠ 0) (hd : e ≠ d) :
    (grantedStalls c b d).getD e 0#64 = b.stall.getD e 0#64 := by
  simp [grantedStalls, List.getD_eq_getElem?_getD, List.getElem?_set_ne (Ne.symm h0),
    List.getElem?_set_ne (Ne.symm hd)]

/-- Well-typed elements have one stall for each domain (10_state.md R20). -/
theorem State.stall_length_of_running {s : State} (hs : s.running = true) : s.blk.stall.length = s.cfg.nd := by
  obtain ⟨-, -, hfits⟩ := (running_iff s).1 hs
  simp only [Block.fits, Bool.and_eq_true, beq_iff_eq, and_assoc] at hfits
  obtain ⟨-, -, -, -, -, hstall, -⟩ := hfits
  exact hstall

/-- Settles O39, by the checks of the rule in their order. -/
theorem busGrantRecordsBothStalls : Obligations.BusGrantRecordsBothStalls := by
  rintro s x _ hs rfl
  refine ⟨rfl, fun h1 hnd hpri hsec => ?_, fun h1 hnd hover => ?_, fun hx => ?_⟩
  · have hlen := State.stall_length_of_running hs
    refine ⟨_, exec_of_ok hs (cdBusgrantEffect_of_fits ((secondaryDomain_iff _ _).2 ⟨h1, hnd⟩) hpri hsec),
      by simpa using hlen, ?_, ?_, fun d h0 hd => grantedStalls_other _ _ h0 hd⟩
    · rw [grantedStalls_primary _ (by omega) (by omega)]
      exact toW64_toNat_of_le hpri
    · rw [grantedStalls_secondary _ (by omega)]
      exact toW64_toNat_of_le hsec
  · exact exec_of_error (i := .cdBusgrant x) hs
      (cdBusgrantEffect_of_overflow ((secondaryDomain_iff _ _).2 ⟨h1, hnd⟩) hover)
  · exact exec_of_error (i := .cdBusgrant x) hs (cdBusgrantEffect_of_range hx s.blk)

end Sys2Proof.Machine
end

section
/-! PROOFS. The bus cost table commands (spec/42_bus_timing_prefetch.md R190 to R193, R205): under a valid CFG the lookup
finds the region that holds the address, so a cost is that region's entry for its own bit of BW. -/

namespace Sys2Proof.Machine

/-! ### The region of an address -/

/-- A region lies in the address space (00_scope.md R9). -/
theorem region_hi_lt {c : Cfg} (hv : c.valid = true) {r : Nat} (hr : r < c.nr) :
    (c.regions.getD r default).hi < 2 ^ c.ab := by
  obtain ⟨hok, -⟩ := Cfg.regions_of_valid hv
  rw [List.getD_eq_getElem _ _ hr]
  obtain ⟨-, hhi, -⟩ := (Region.ok_iff c.ab _).1 (hok _ (List.getElem_mem hr))
  exact hhi

/-- The region that holds an address is the one that the lookup finds (20_memory.md R72). -/
theorem regionOf_of_holds {c : Cfg} (hv : c.valid = true) {a r : Nat} (hr : r < c.nr)
    (hlo : (c.regions.getD r default).lo ≤ a) (hhi : a ≤ (c.regions.getD r default).hi) : regionOf c a = some r := by
  obtain ⟨r', -, hreg, -, -, huniq, -⟩ :=
    everyAddressHasOneRegionAndItsCost c default a hv (hhi.trans_lt (region_hi_lt hv hr))
  rw [hreg, huniq r hr hlo hhi]

/-! ### BT_COST -/

theorem widthCodeOk_iff (w : BitVec 2) : widthCodeOk w = true ↔ w ≠ 3#2 := by
  simp [widthCodeOk]

theorem btCostEffect_reserved (c : Cfg) (b : Block) (seq : Bool) (a : W64) :
    btCostEffect c b 3#2 seq a = .error .illegalCmd := rfl

theorem btCostEffect_outOfRange {c : Cfg} {w : BitVec 2} {a : W64} (hw : w ≠ 3#2) (ha : 2 ^ c.ab ≤ a.toNat)
    (b : Block) (seq : Bool) : btCostEffect c b w seq a = .error .operandRange := by
  simp [btCostEffect, (widthCodeOk_iff w).2 hw, addressInRange, Nat.not_lt.2 ha]

/-- At an address of region r BT_COST answers the region's entry for `BW[r]` (R191). -/
theorem btCostEffect_of_holds {c : Cfg} (hv : c.valid = true) {w : BitVec 2} {a : W64} {r : Nat} (hw : w ≠ 3#2)
    (hr : r < c.nr) (hlo : (c.regions.getD r default).lo ≤ a.toNat)
    (hhi : a.toNat ≤ (c.regions.getD r default).hi) (b : Block) (seq : Bool) :
    btCostEffect c b w seq a =
      .ok (b, .okWith 0#8 (toW64 ((c.regions.getD r default).wt.cost w.toNat seq (bwOf b r)))) := by
  have ha : a.toNat < 2 ^ c.ab := hhi.trans_lt (region_hi_lt hv hr)
  simp [btCostEffect, (widthCodeOk_iff w).2 hw, addressInRange, ha,
    waitCycles_of_region (regionOf_of_holds hv hr hlo hhi)]

/-- A machine in RUN has a valid CFG. -/
theorem State.valid_of_running {s : State} (hs : s.running = true) : s.cfg.valid = true := by
  obtain ⟨-, hv, -⟩ := (running_iff s).1 hs
  exact hv

/-- Settles O40, by the checks of the rule in their order. -/
theorem costIsTheTableEntryOfTheRegion : Obligations.CostIsTheTableEntryOfTheRegion := by
  intro s w seq a r hs
  refine ⟨rfl, fun hw hr hlo hhi => ?_, ?_, fun hw ha => ?_⟩
  · exact exec_of_ok (i := .btCost w seq a) hs
      (btCostEffect_of_holds (State.valid_of_running hs) hw hr hlo hhi s.blk seq)
  · rintro rfl
    exact exec_of_error (i := .btCost 3#2 seq a) hs (btCostEffect_reserved s.cfg s.blk seq a)
  · exact exec_of_error (i := .btCost w seq a) hs (btCostEffect_outOfRange hw ha s.blk seq)

/-! ### BT_SETBW -/

theorem btSetbwEffect_outOfRange {c : Cfg} {x : Idx} (hx : c.nr ≤ x.toNat) (b : Block) (bit : Bool) :
    btSetbwEffect c b x bit = .error .operandRange := by
  simp [btSetbwEffect, regionInRange, idxNat, Nat.not_lt.2 hx]

theorem btSetbwEffect_inRange {c : Cfg} {x : Idx} (hx : x.toNat < c.nr) (b : Block) (bit : Bool) :
    btSetbwEffect c b x bit = .ok ({ b with bw := b.bw.set x.toNat bit }, .okay) := by
  simp [btSetbwEffect, regionInRange, idxNat, hx]

/-- Well-typed elements have one bus-width bit for each region (10_state.md R20). -/
theorem State.bw_length_of_running {s : State} (hs : s.running = true) : s.blk.bw.length = s.cfg.nr := by
  obtain ⟨-, -, hfits⟩ := (running_iff s).1 hs
  simp only [Block.fits, Bool.and_eq_true, beq_iff_eq, and_assoc] at hfits
  obtain ⟨-, -, -, -, -, -, hbw, -⟩ := hfits
  exact hbw

/-- Of BW the mode RUN reads the length alone. -/
theorem State.running_answer_bw {s : State} (hs : s.running = true) {bw : List Bool}
    (hlen : bw.length = s.cfg.nr) (r : Response) : (s.answer { s.blk with bw := bw } r).running = true := by
  have hbw := State.bw_length_of_running hs
  simp only [State.running, State.shaped, Block.fits, State.answer_cfg, State.answer_blk, hlen, hbw] at hs ⊢
  exact hs

/-- Settles O41: the bit that is written is the one that the next lookup in its region reads. -/
theorem setBusWidthWritesOneBit : Obligations.SetBusWidthWritesOneBit := by
  intro s x bit hs
  refine ⟨rfl, fun hx => ?_, fun hx => ?_⟩
  · have hbw := State.bw_length_of_running hs
    have hlen : (s.blk.bw.set x.toNat bit).length = s.cfg.nr := by rw [List.length_set, hbw]
    have hself : (s.blk.bw.set x.toNat bit).getD x.toNat false = bit := by
      rw [List.getD_eq_getElem?_getD, List.getElem?_set_self (hbw ▸ hx), Option.getD_some]
    refine ⟨_, _, rfl, exec_of_ok (i := .btSetbw x bit) hs (btSetbwEffect_inRange hx s.blk bit), hlen, hself,
      fun r hr => ?_, fun w seq a hw hlo hhi => ?_⟩
    · rw [List.getD_eq_getElem?_getD, List.getElem?_set_ne hr.symm, List.getD_eq_getElem?_getD]
    · have hcost := exec_of_ok (i := .btCost w seq a) (State.running_answer_bw hs hlen .okay)
        (btCostEffect_of_holds (State.valid_of_running hs) hw hx hlo hhi _ seq)
      rw [bwOf, State.answer_blk, hself] at hcost
      exact hcost
  · exact exec_of_error (i := .btSetbw x bit) hs (btSetbwEffect_outOfRange hx s.blk bit)

/-! ### BT_SETPF -/

/-- Settles O42: both values are effects that no check precedes. -/
theorem setPrefetchWritesTheEnable : Obligations.SetPrefetchWritesTheEnable := fun _ hs =>
  ⟨exec_of_ok (i := .btSetpf true) hs rfl, exec_of_ok (i := .btSetpf false) hs rfl, fun _ => rfl⟩

end Sys2Proof.Machine
end

section
/-! PROOFS. The prefetch unit's commands (spec/42_bus_timing_prefetch.md R197 to R204, R207): a fetch that completes is
said once, the commands by the cases of their rules, and PF_ADVANCE turn by turn, with no bound on its turns in sight. -/

namespace Sys2Proof.Machine

/-! ### The address checks (R207) -/

theorem checkPfAddress_good {c : Cfg} {a : W64} (ha : a.toNat < 2 ^ c.ab) (halign : a.toNat % c.pfWb = 0) :
    checkPfAddress c a = .ok () := by
  simp [checkPfAddress, addressInRange, addressAligned, ha, halign]

theorem checkPfAddress_outOfRange {c : Cfg} {a : W64} (ha : 2 ^ c.ab ≤ a.toNat) :
    checkPfAddress c a = .error .operandRange := by
  simp [checkPfAddress, addressInRange, Nat.not_lt.2 ha]

theorem checkPfAddress_misaligned {c : Cfg} {a : W64} (ha : a.toNat < 2 ^ c.ab) (halign : a.toNat % c.pfWb ≠ 0) :
    checkPfAddress c a = .error .pfMisaligned := by
  simp [checkPfAddress, addressInRange, addressAligned, ha, halign]

/-- A fault of the address is the fault of the command. -/
theorem effectOf_of_badAddress {c : Cfg} {a : W64} {f : Cause} {i : Instr} (hi : i = .pfPrepare a ∨ i = .pfRead a)
    (hchk : checkPfAddress c a = .error f) (m : Memory) (b : Block) : effectOf c m b i = .error f := by
  rcases hi with rfl | rfl
  · simp only [effectOf, pfPrepareEffect, hchk]
    rfl
  · simp only [effectOf, pfReadEffect, hchk]
    rfl

/-- Settles O43, by the two checks in their order. -/
theorem prefetchAddressChecks : Obligations.PrefetchAddressChecks := fun _ _ _ hs hi =>
  ⟨fun ha => exec_of_error hs (effectOf_of_badAddress hi (checkPfAddress_outOfRange ha) _ _),
    fun ha halign => exec_of_error hs (effectOf_of_badAddress hi (checkPfAddress_misaligned ha halign) _ _)⟩

/-- At a good address PF_PREPARE has its effect. -/
theorem exec_pfPrepare {s : State} {a : W64} (hs : s.running = true) (ha : a.toNat < 2 ^ s.cfg.ab)
    (halign : a.toNat % s.cfg.pfWb = 0) :
    exec (.pfPrepare a) s =
      .next (s.answer (prepare s.cfg s.back s.blk a).1 (prepare s.cfg s.back s.blk a).2) := by
  refine exec_of_ok hs ?_
  simp only [effectOf, pfPrepareEffect, checkPfAddress_good ha halign]
  rfl

/-- At a good address PF_READ has its effect. -/
theorem exec_pfRead {s : State} {a : W64} (hs : s.running = true) (ha : a.toNat < 2 ^ s.cfg.ab)
    (halign : a.toNat % s.cfg.pfWb = 0) :
    exec (.pfRead a) s = .next (s.answer (readWord s.cfg s.blk a).1 (readWord s.cfg s.blk a).2) := by
  refine exec_of_ok hs ?_
  simp only [effectOf, pfReadEffect, checkPfAddress_good ha halign]
  rfl

/-! ### A fetch that completes (R197, R198) -/

/-- The address of the next word is known by its number. -/
theorem eq_nextWord {c : Cfg} (hv : c.valid = true) {a w : W64} (hw : w.toNat = (a.toNat + c.pfWb) % 2 ^ c.ab) :
    w = nextWord c a :=
  BitVec.eq_of_toNat_eq (by rw [nextWord_toNat hv, hw])

/-- The word goes to the end of the buffer, and the engine goes on when it is enabled, has room for one word more and
is not at a boundary. -/
theorem completeFetch_eq {c : Cfg} {b : Block} {w : W64} {go : Bool} (m : Memory) (hw : w = nextWord c b.waddr)
    (hgo : go = (b.pfEn && decide (b.pfQ.length + 1 < c.pfN) && w.toNat % c.pfBoundary != 0)) :
    completeFetch c m b = { b with
      pfQ := b.pfQ ++ [memRead c m b.waddr], waddr := w, active := go
      rem := if go then toW64 (latS c b w) else 0#64 } := by
  have hcond : (b.pfEn && decide ((b.pfQ ++ [memRead c m b.waddr]).length < c.pfN) &&
      !(w.toNat % c.pfBoundary == 0)) = go := by
    rw [hgo, List.length_append, List.length_singleton]
    rfl
  simp only [completeFetch, cont, atBoundary, ← hw, hcond]
  cases go
  · rfl
  · rfl

/-- What a fetch leaves does not depend on the cycles that it still had to wait. -/
theorem completeFetch_with_rem (c : Cfg) (m : Memory) (b : Block) (r : W64) :
    completeFetch c m { b with rem := r } = completeFetch c m b := by
  rw [completeFetch_eq m rfl rfl, completeFetch_eq (b := b) m rfl rfl]
  rfl

/-- A fetch that completes leaves room for the next one if it starts it. -/
theorem completeFetch_room (c : Cfg) (m : Memory) (b : Block) (hact : (completeFetch c m b).active = true) :
    (completeFetch c m b).pfQ.length < c.pfN := by
  simpa using (completeFetch_active c m b hact).2

/-! ### PF_PREPARE (R200, R201) -/

theorem prepare_of_buffered {c : Cfg} {b : Block} {a : W64} (ha : a = b.raddr) (hq : b.pfQ ≠ []) (m : Memory) :
    prepare c m b a = (b, .okWith 1#8 (toW64 c.pfHitCost)) := by
  simp [prepare, Block.pfEmpty, ha, hq]

theorem prepare_of_inProgress {c : Cfg} {b : Block} {a : W64} (ha : a = b.raddr) (hq : b.pfQ = [])
    (hact : b.active = true) (m : Memory) : prepare c m b a = (completeFetch c m b, .okWith 2#8 b.rem) := by
  simp [prepare, Block.pfHits, Block.pfEmpty, ha, hq, hact]

theorem prepare_of_miss {c : Cfg} {b : Block} {a : W64} (h : ¬ (a = b.raddr ∧ (b.active = true ∨ b.pfQ ≠ [])))
    (m : Memory) :
    prepare c m b a = (completeFetch c m (b.restartAt a), .okWith 0#8 (toW64 (latN c b a + extraCycle b))) := by
  have hbuf : (a == b.raddr && !b.pfEmpty) = false := by
    rw [Bool.eq_false_iff]
    simp only [Block.pfEmpty, ne_eq, Bool.and_eq_true, beq_iff_eq, Bool.not_eq_true', List.isEmpty_eq_false_iff]
    exact fun ⟨haddr, hne⟩ => h ⟨haddr, .inr hne⟩
  have hhits : b.pfHits a = false := by
    rw [Bool.eq_false_iff]
    simpa [Block.pfHits, Block.pfEmpty] using h
  simp [prepare, hbuf, hhits]

/-- With an empty buffer and no fetch in progress WADDR is RADDR (10_state.md R37 (c)). -/
theorem Block.EngineOk.waddr_eq_raddr {c : Cfg} {b : Block} (hv : c.valid = true) (ok : b.EngineOk c)
    (hq : b.pfQ = []) : b.waddr = b.raddr := by
  rw [ok.waddr_eq_wordAddr hv, hq, List.length_nil, wordAddr_zero hv ok.raddr_lt]

/-- Settles O44, class by class. -/
theorem prepareHasThreeClasses : Obligations.PrepareHasThreeClasses := by
  intro s a w go hs ha halign hw hgo
  obtain ⟨hv, inv⟩ := State.invariants_of_sound hs
  have hnext := eq_nextWord hv hw
  rw [exec_pfPrepare (State.running_of_sound hs) ha halign]
  refine ⟨fun haddr hq => ?_, fun haddr hq hact => ?_, fun hmiss => ?_⟩
  · rw [prepare_of_buffered haddr hq]
    rfl
  · have hwaddr : s.blk.waddr = a := (inv.engine.waddr_eq_raddr hv hq).trans haddr.symm
    rw [prepare_of_inProgress haddr hq hact,
      completeFetch_eq (w := w) (go := go) s.back (by rw [hnext, hwaddr]) (by rw [hgo, hq]; rfl), hwaddr, hq]
    rfl
  · rw [prepare_of_miss hmiss, completeFetch_eq (w := w) (go := go) s.back hnext hgo]
    have hextra : extraCycle s.blk = if s.blk.active = true ∧ s.blk.rem = 1#64 then 1 else 0 := by
      simp [extraCycle]
    rw [hextra]
    rfl

/-! ### PF_READ (R202, R203) -/

theorem readWord_of_head {c : Cfg} {b : Block} {a : W64} {w : PfWord} {q : List PfWord} (ha : a = b.raddr)
    (hq : b.pfQ = w :: q) :
    readWord c b a = (resume c { b with pfQ := q, raddr := nextWord c b.raddr }, .okWith 0#8 (w.setWidth 64)) := by
  simp [readWord, hq, ha]

theorem readWord_of_none {c : Cfg} {b : Block} {a : W64} (h : a ≠ b.raddr ∨ b.pfQ = []) :
    readWord c b a = (b, .nothing) := by
  unfold readWord
  split
  · rfl
  · rename_i w q hq
    have ha : a ≠ b.raddr := h.resolve_right (by simp [hq])
    simp [ha]

/-- The engine restarts at WADDR with LAT_N when it is enabled, paused and its buffer is empty. -/
theorem resume_eq (c : Cfg) (b : Block) :
    resume c b = { b with
      active := b.active || (b.pfQ.isEmpty && b.pfEn)
      rem := if b.pfQ = [] ∧ b.active = false ∧ b.pfEn = true then toW64 (latN c b b.waddr) else b.rem } := by
  by_cases h : b.pfQ = [] ∧ b.active = false ∧ b.pfEn = true
  · obtain ⟨hq, hact, hen⟩ := h
    simp [resume, Block.pfEmpty, Block.fetching, hq, hact, hen]
  · have hsame : (b.active || (b.pfQ.isEmpty && b.pfEn)) = b.active := by
      cases hact : b.active
      · simpa [hact] using h
      · rfl
    have hstay : (b.pfEmpty && !b.active && b.pfEn) = false := by
      rw [Bool.eq_false_iff]
      simpa [Block.pfEmpty, and_assoc] using h
    simp only [resume, hstay, hsame, if_neg h, Bool.false_eq_true, if_false]

/-- Settles O46, by whether the word asked for is at the head of the buffer. -/
theorem readPopsTheHeadWord : Obligations.ReadPopsTheHeadWord := by
  intro s a n hs ha halign hn
  obtain ⟨hv, -⟩ := State.invariants_of_sound hs
  rw [exec_pfRead (State.running_of_sound hs) ha halign]
  refine ⟨fun w q haddr hq => ?_, fun h => ?_⟩
  · rw [readWord_of_head haddr hq, resume_eq, ← haddr, ← eq_nextWord hv hn]
    rfl
  · rw [readWord_of_none h]
    rfl

/-! ### PF_READ after PF_PREPARE (R200, 70_reset_and_hazards.md R326) -/

/-- PF_PREPARE leaves the word of its address at the head of the buffer. -/
theorem prepare_head {c : Cfg} {b : Block} (hv : c.valid = true) (ok : b.EngineOk c) (m : Memory) (a : W64) :
    (prepare c m b a).1.raddr = a ∧ ∃ w q, (prepare c m b a).1.pfQ = w :: q ∧
      (a = b.raddr → b.pfQ ≠ [] → b.pfQ.head? = some w) ∧
      (¬ (a = b.raddr ∧ b.pfQ ≠ []) → w = memRead c m a) := by
  by_cases hbuf : a = b.raddr ∧ b.pfQ ≠ []
  · obtain ⟨haddr, hne⟩ := hbuf
    obtain ⟨w, q, hq⟩ := List.exists_cons_of_ne_nil hne
    rw [prepare_of_buffered haddr hne]
    exact ⟨haddr.symm, w, q, hq, fun _ _ => by rw [hq, List.head?_cons], fun h => absurd ⟨haddr, hne⟩ h⟩
  · obtain ⟨hraddr, hq⟩ : (prepare c m b a).1.raddr = a ∧ (prepare c m b a).1.pfQ = [memRead c m a] := by
      by_cases hprog : a = b.raddr ∧ b.active = true
      · obtain ⟨haddr, hact⟩ := hprog
        have hq : b.pfQ = [] := not_not.1 fun hne => hbuf ⟨haddr, hne⟩
        rw [prepare_of_inProgress haddr hq hact, completeFetch_raddr, completeFetch_pfQ, hq,
          ok.waddr_eq_raddr hv hq, haddr]
        exact ⟨rfl, rfl⟩
      · have hmiss : ¬ (a = b.raddr ∧ (b.active = true ∨ b.pfQ ≠ [])) := by tauto
        simp [prepare_of_miss hmiss]
    exact ⟨hraddr, _, [], hq, fun haddr hne => absurd ⟨haddr, hne⟩ hbuf, fun _ => rfl⟩

/-- The prefetch unit's commands leave FAULT alone. -/
theorem OnlyEngine.fault_eq {b b' : Block} (h : OnlyEngine b b') : b'.fault = b.fault := by
  obtain ⟨_, _, _, _, _, rfl⟩ := h
  rfl

/-- Settles O45: PF_PREPARE keeps the machine sound, and PF_READ finds what it left at the head. -/
theorem preparedWordIsThenRead : Obligations.PreparedWordIsThenRead := by
  intro s a hs ha halign
  obtain ⟨hv, inv⟩ := State.invariants_of_sound hs
  have hprep := exec_pfPrepare (State.running_of_sound hs) ha halign
  have hfault : (prepare s.cfg s.back s.blk a).1.fault = false :=
    (prepare_onlyEngine s.cfg s.back s.blk a).fault_eq.trans (s.sound_iff.1 hs).2
  obtain ⟨hraddr, w, q, hq, hbuffered, hstored⟩ := prepare_head hv inv.engine s.back a
  have hread := exec_pfRead (State.running_of_sound (exec_sound hs hprep hfault)) ha halign
  refine ⟨_, _, w, hprep, hraddr, ?_, hread, ?_, hbuffered, hstored⟩
  · rw [State.answer_blk, hq, List.head?_cons]
  · rw [State.answer_out, State.answer_blk, readWord_of_head hraddr.symm hq]
    rfl

/-! ### PF_ADVANCE (R204) -/

/-- What PF_ADVANCE n leaves. Tied to the command by `exec_pfAdvance`. -/
def advanced (c : Cfg) (m : Memory) (b : Block) (n : Nat) : Block := runEngine c m (c.pfN + 1) b n

/-- PF_ADVANCE has its effect in every state in RUN. -/
theorem exec_pfAdvance {s : State} (hs : s.running = true) (n : W64) :
    exec (.pfAdvance n) s = .next (s.answer (advanced s.cfg s.back s.blk n.toNat) .okay) :=
  exec_of_ok (i := .pfAdvance n) hs rfl

theorem runEngine_stopped {b : Block} {n : Nat} (h : b.active = false ∨ n = 0) (c : Cfg) (m : Memory) (fuel : Nat) :
    runEngine c m fuel b n = b := by
  cases fuel with
  | zero => rfl
  | succ fuel => rcases h with h | h <;> simp [runEngine, h]

theorem runEngine_short {b : Block} {n : Nat} (hact : b.active = true) (hn : n ≠ 0) (hlt : n < b.rem.toNat) (c : Cfg)
    (m : Memory) (fuel : Nat) :
    runEngine c m (fuel + 1) b n = { b with rem := toW64 (b.rem.toNat - n) } := by
  simp [runEngine, hact, hn, hlt]

theorem runEngine_fetch {b : Block} {n : Nat} (hact : b.active = true) (hn : n ≠ 0) (hle : b.rem.toNat ≤ n) (c : Cfg)
    (m : Memory) (fuel : Nat) :
    runEngine c m (fuel + 1) b n = runEngine c m fuel (completeFetch c m b) (n - b.rem.toNat) := by
  simp [runEngine, hact, hn, Nat.not_lt.2 hle]

theorem advanced_stopped {b : Block} {n : Nat} (h : b.active = false ∨ n = 0) (c : Cfg) (m : Memory) :
    advanced c m b n = b :=
  runEngine_stopped h c m (c.pfN + 1)

theorem advanced_short {b : Block} {n : Nat} (hact : b.active = true) (hn : n ≠ 0) (hlt : n < b.rem.toNat) (c : Cfg)
    (m : Memory) : advanced c m b n = { b with rem := toW64 (b.rem.toNat - n) } :=
  runEngine_short hact hn hlt c m c.pfN

/-- The turns left after the first fetch are as good as those of a PF_ADVANCE of its own: there is one word less to
make room for. -/
theorem advanced_fetch {b : Block} {n : Nat} (hact : b.active = true) (hn : n ≠ 0) (hle : b.rem.toNat ≤ n) (c : Cfg)
    (m : Memory) : advanced c m b n = advanced c m (completeFetch c m b) (n - b.rem.toNat) := by
  rw [advanced, runEngine_fetch hact hn hle, advanced,
    runEngine_fuel c m c.pfN _ _ (completeFetch_room c m b) (Nat.le_add_right _ _)]

/-- A fetch in progress completes in a sound machine into a sound one. -/
theorem State.sound_with_completeFetch {s : State} (hs : s.sound = true) (hact : s.blk.active = true) :
    ({ s with blk := completeFetch s.cfg s.back s.blk } : State).sound = true := by
  obtain ⟨hc, hf⟩ := s.sound_iff.1 hs
  obtain ⟨hv, inv⟩ := State.invariants_of_sound hs
  obtain ⟨q, w, act, rem, heq⟩ := completeFetch_frame s.cfg s.back s.blk
  have honly : OnlyEngine s.blk (completeFetch s.cfg s.back s.blk) := ⟨q, s.blk.raddr, w, act, rem, heq⟩
  have hok := inv.engine.completeFetch hv s.back (inv.engine.active_room hact)
  exact (State.sound_iff _).2
    ⟨consistent_of_running hc hf rfl rfl fun _ _ => inv.of_onlyEngine honly hok, honly.fault_eq.trans hf⟩

/-- Settles O47, by the first turn of the loop. -/
theorem advanceRunsTheEngine : Obligations.AdvanceRunsTheEngine := by
  intro s n w go hs hw hgo
  obtain ⟨hv, -⟩ := State.invariants_of_sound hs
  have hzero : n = 0#64 ↔ n.toNat = 0 := by rw [← BitVec.toNat_inj]; rfl
  rw [exec_pfAdvance (State.running_of_sound hs)]
  refine ⟨fun h => ?_, fun hact hn hlt => ?_, fun hact hn hle => ⟨_, rfl, ?_⟩⟩
  · rw [advanced_stopped (h.imp_right hzero.1)]
    rfl
  · have hrem : toW64 (s.blk.rem.toNat - n.toNat) = s.blk.rem - n := by
      rw [← BitVec.toNat_sub_of_le (BitVec.le_of_lt hlt), toW64, BitVec.ofNat_toNat, BitVec.setWidth_eq]
    rw [advanced_short hact (mt hzero.2 hn) hlt, hrem]
    rfl
  · rintro t rfl
    have hfetch := completeFetch_eq (b := s.blk) s.back (eq_nextWord hv hw) hgo
    have hsound := State.sound_with_completeFetch hs hact
    rw [hfetch] at hsound
    rw [advanced_fetch hact (mt hzero.2 hn) hle, ← BitVec.toNat_sub_of_le hle, hfetch]
    exact exec_pfAdvance (State.running_of_sound hsound) _

/-! ### Two PF_ADVANCE after each other -/

/-- A PF_ADVANCE that ends inside a fetch leaves the rest of REM to the next one. -/
theorem advanced_short_add {b : Block} {n : Nat} (hact : b.active = true) (hn : n ≠ 0) (hlt : n < b.rem.toNat)
    (c : Cfg) (m : Memory) (k : Nat) :
    advanced c m { b with rem := toW64 (b.rem.toNat - n) } k = advanced c m b (n + k) := by
  have hrem : (toW64 (b.rem.toNat - n)).toNat = b.rem.toNat - n :=
    toW64_toNat _ ((Nat.sub_le _ _).trans_lt b.rem.isLt)
  rcases Nat.eq_zero_or_pos k with rfl | hk
  · rw [advanced_stopped (.inr rfl), Nat.add_zero, advanced_short hact hn hlt]
  rcases Nat.lt_or_ge (n + k) b.rem.toNat with hshort | hfetch
  · rw [advanced_short (by exact hact) (by omega) (by simp only [hrem]; omega),
      advanced_short hact (by omega) hshort]
    simp only [hrem, Nat.sub_sub]
  · have hrest : k - (b.rem.toNat - n) = n + k - b.rem.toNat := by omega
    rw [advanced_fetch (by exact hact) (by omega) (by simp only [hrem]; omega), advanced_fetch hact (by omega) hfetch,
      completeFetch_with_rem]
    simp only [hrem, hrest]

/-- The loop over n cycles, with turns for every free slot, and PF_ADVANCE k after it leave what PF_ADVANCE (n + k)
leaves. -/
theorem advanced_runEngine (c : Cfg) (m : Memory) (fuel : Nat) (b : Block) (n k : Nat)
    (hroom : b.active = true → b.pfQ.length < c.pfN) (hfuel : c.pfN ≤ fuel + b.pfQ.length) :
    advanced c m (runEngine c m fuel b n) k = advanced c m b (n + k) := by
  induction fuel generalizing b n with
  | zero =>
    have hidle : b.active = false := Bool.eq_false_iff.2 fun hact => by have := hroom hact; omega
    rw [runEngine_stopped (.inl hidle), advanced_stopped (.inl hidle), advanced_stopped (.inl hidle)]
  | succ fuel ih =>
    cases hact : b.active with
    | false =>
      rw [runEngine_stopped (.inl hact), advanced_stopped (.inl hact), advanced_stopped (.inl hact)]
    | true =>
      by_cases hn : n = 0
      · rw [hn, runEngine_stopped (.inr rfl), Nat.zero_add]
      rcases Nat.lt_or_ge n b.rem.toNat with hlt | hle
      · rw [runEngine_short hact hn hlt, advanced_short_add hact hn hlt]
      · have hfuel' : c.pfN ≤ fuel + (completeFetch c m b).pfQ.length := by
          rw [completeFetch_pfQ, List.length_append, List.length_singleton]
          omega
        rw [runEngine_fetch hact hn hle, ih _ _ (completeFetch_room c m b) hfuel',
          advanced_fetch hact (by omega) (by omega), Nat.sub_add_comm hle]

/-- Settles O48: the loop of the first command, with its bound, ends where the second goes on. -/
theorem offeredCyclesAddUp : Obligations.OfferedCyclesAddUp := by
  intro s t v n k hs hsum ht hv
  have hrun := State.running_of_sound hs
  obtain ⟨-, inv⟩ := State.invariants_of_sound hs
  have hadd := advanced_runEngine s.cfg s.back (s.cfg.pfN + 1) s.blk n.toNat k.toNat inv.engine.active_room (by omega)
  have ht' := exec_pfAdvance hrun n
  rw [ht'] at ht
  cases ht
  have hfault : (advanced s.cfg s.back s.blk n.toNat).fault = false :=
    (runEngine_onlyEngine s.cfg s.back (s.cfg.pfN + 1) s.blk n.toNat).fault_eq.trans (s.sound_iff.1 hs).2
  rw [exec_pfAdvance (State.running_of_sound (exec_sound hs ht' hfault))] at hv
  cases hv
  refine ⟨_, exec_pfAdvance hrun (n + k), ?_⟩
  rw [State.answer_blk, BitVec.toNat_add_of_lt hsum, ← hadd]
  rfl

end Sys2Proof.Machine
end

section
/-! PROOFS. The Interrupt Priority Arbiter commands (spec/43_interrupt_arbiter.md R240 to R247): the masks hold no bit
of a source that does not exist, IA_ACK is a write that clears one bit, and PRIO lists every pending source. -/

namespace Sys2Proof

/-- `PRIO` is checked by its length and by what it contains, which is that it is a permutation (00_scope.md R9). -/
theorem prioOk_iff_perm (ns : Nat) (prio : List Nat) : prioOk ns prio = true ↔ prio.Perm (List.range ns) := by
  simp only [prioOk, Bool.and_eq_true, beq_iff_eq, List.all_eq_true, List.contains_iff_mem]
  constructor
  · rintro ⟨hlen, hall⟩
    have hsub : (List.range ns).Subperm prio := List.subperm_of_subset List.nodup_range hall
    exact (hsub.perm_of_length_le (by simp [hlen])).symm
  · exact fun hperm => ⟨by simpa using hperm.length_eq, fun s hs => hperm.mem_iff.2 hs⟩

/-- Under a valid CFG PRIO lists each source once. -/
theorem Cfg.prio_perm_of_valid {c : Cfg} (h : c.valid = true) : c.prio.Perm (List.range c.ns) := by
  simp only [Cfg.valid, Cfg.iaXrOk, Bool.and_eq_true, and_assoc] at h
  obtain ⟨-, -, -, -, -, hprio, -⟩ := h
  exact (prioOk_iff_perm c.ns c.prio).1 hprio

end Sys2Proof

namespace Sys2Proof.Machine

/-! ### Only the arbiter's commands reach the masks (R247) -/

/-- The commands of the arbiter are the five of R241 to R245. -/
theorem unitOf_eq_ia_iff (i : Instr) :
    unitOf i = .ia ↔
      (∃ x, i = .iaSetflag x) ∨ (∃ m, i = .iaWrenable m) ∨ (∃ m, i = .iaWrflagclr m) ∨ i = .iaHpp ∨
        ∃ x, i = .iaAck x := by
  cases i <;> simp [unitOf]

/-- A command of another unit leaves both masks. -/
theorem exec_masks_of_ne_ia {i : Instr} {s t : State} (h : exec i s = .next t) (hu : unitOf i ≠ .ia) :
    t.blk.enable = s.blk.enable ∧ t.blk.flag = s.blk.flag := by
  obtain ⟨-, -, -, -, -, -, -, -, -, -, hia, -⟩ := commandsTouchOnlyTheirOwnUnit i s t h
  exact hia hu

/-- An illegal frame leaves both masks, whether it takes its fault or finds the block FAULTED. -/
theorem serveIllegal_masks {s t : State} (h : serveIllegal s = .next t) :
    t.blk.enable = s.blk.enable ∧ t.blk.flag = s.blk.flag := by
  rcases serveIllegal_next s t h with ⟨-, rfl⟩ | ⟨-, rfl⟩
  · exact ⟨rfl, rfl⟩
  · exact ⟨rfl, rfl⟩

/-- Settles O14: a frame that is no command of the arbiter leaves both masks. -/
theorem onlyArbiterCommandsTouchTheMasks : Obligations.OnlyArbiterCommandsTouchTheMasks := by
  intro s t f rest hin hstep hchanged
  rw [step_frame s f rest hin] at hstep
  have hmoved : ¬ (t.blk.enable = s.blk.enable ∧ t.blk.flag = s.blk.flag) := not_and_or.2 hchanged
  rcases performFrame_cases f { s with inbox := rest } with ⟨i, hdec, hexec⟩ | ⟨_, -, hill⟩
  · rw [hexec] at hstep
    by_cases hu : unitOf i = .ia
    · exact ⟨i, hdec, (unitOf_eq_ia_iff i).1 hu⟩
    · exact absurd (exec_masks_of_ne_ia hstep hu) hmoved
  · rw [hill] at hstep
    exact absurd (serveIllegal_masks hstep) hmoved

/-! ### Writing the masks (R240 to R243, R245) -/

/-- Well-typed masks have NS bits (10_state.md R20). -/
theorem State.masks_lt_of_running {s : State} (hs : s.running = true) :
    s.blk.enable.toNat < 2 ^ s.cfg.ns ∧ s.blk.flag.toNat < 2 ^ s.cfg.ns := by
  obtain ⟨-, -, hfits⟩ := (running_iff s).1 hs
  simp only [Block.fits, Bool.and_eq_true, decide_eq_true_eq, and_assoc] at hfits
  obtain ⟨-, -, -, -, -, -, -, -, -, -, -, henable, hflag, -⟩ := hfits
  exact ⟨henable, hflag⟩

/-- On a register of NS bits clearing by a cut mask is clearing by the mask: the bits cut off are 0 already. -/
theorem and_not_maskOperand_bit {c : Cfg} {f : W64} (hf : f.toNat < 2 ^ c.ns) (m : W64) {j : Nat} (hj : j < 64) :
    (f &&& ~~~(maskOperand c m)).getLsbD j = (f.getLsbD j && !m.getLsbD j) := by
  rw [BitVec.getLsbD_and, BitVec.getLsbD_not, maskOperand_bit c m j hj]
  rcases Nat.lt_or_ge j c.ns with hlt | hge
  · simp [hj, hlt]
  · simp [(toNat_lt_two_pow_iff f c.ns).1 hf j hge]

/-- The mask of one source. -/
theorem one_shiftLeft_bit (n : Nat) {j : Nat} (hj : j < 64) : (1#64 <<< n).getLsbD j = (j == n) := by
  have hone : (1#64 <<< n).getLsbD j = (decide (n < 64) && decide (n = j)) := BitVec.getLsbD_twoPow n j
  rw [hone, Bool.eq_iff_iff]
  simp only [Bool.and_eq_true, decide_eq_true_eq, beq_iff_eq]
  omega

/-- IA_WRFLAGCLR m clears exactly the flags whose bit of m is 1 (R243). -/
theorem exec_iaWrflagclr {s : State} (hs : s.running = true) (m : W64) :
    ∃ f : W64, exec (.iaWrflagclr m) s = .next (s.answer { s.blk with flag := f } .okay) ∧
      ∀ j, j < 64 → f.getLsbD j = (s.blk.flag.getLsbD j && !m.getLsbD j) := by
  obtain ⟨-, hflag⟩ := State.masks_lt_of_running hs
  exact ⟨_, exec_of_ok (i := .iaWrflagclr m) hs rfl, fun j hj => and_not_maskOperand_bit hflag m hj⟩

/-- To acknowledge a source is to clear by the mask of its one bit (R245). -/
theorem exec_iaAck_eq (x : Idx) (s : State) : exec (.iaAck x) s = exec (.iaWrflagclr (1#64 <<< x.toNat)) s := rfl

/-- Settles O53, bit by bit. -/
theorem maskWritesReplaceAndClear : Obligations.MaskWritesReplaceAndClear := fun s m hs =>
  ⟨rfl, rfl, ⟨_, exec_of_ok (i := .iaWrenable m) hs rfl, maskOperand_bit s.cfg m⟩, exec_iaWrflagclr hs m⟩

/-- Settles O52: IA_SETFLAG sets the bit of its source, and IA_ACK clears by the mask of one bit. -/
theorem setFlagAndAckTouchOneFlag : Obligations.SetFlagAndAckTouchOneFlag := by
  intro s x hs
  refine ⟨rfl, rfl, ⟨_, exec_of_ok (i := .iaSetflag x) hs rfl, fun j hj => ?_⟩, ?_, exec_iaAck_eq x s⟩
  · rw [BitVec.getLsbD_or, sourceBit_bit s.cfg x j hj]
  · obtain ⟨f, hexec, hbit⟩ := exec_iaWrflagclr hs (1#64 <<< x.toNat)
    refine ⟨f, (exec_iaAck_eq x s).trans hexec, fun j hj => ?_⟩
    rw [hbit j hj, one_shiftLeft_bit x.toNat hj]
    rfl

/-! ### The pending source that comes first (R244, R246) -/

/-- Of the pending sources none comes before the one that is offered. -/
theorem firstPending_idxOf_le {c : Cfg} {p : W64} {src : Nat} (h : firstPending c p = some src) {j : Nat}
    (hj : p.getLsbD j = true) : c.prio.idxOf src ≤ c.prio.idxOf j := by
  obtain ⟨hsrc, before, after, hprio, hbefore⟩ := firstPending_some c p src h
  have hnotMem : ∀ k, p.getLsbD k = true → k ∉ before := fun k hk hmem => by
    rw [hbefore k hmem] at hk
    contradiction
  rw [hprio, List.idxOf_append_of_notMem (hnotMem src hsrc), List.idxOf_append_of_notMem (hnotMem j hj),
    List.idxOf_cons_self]
  omega

/-- A pending source exists. -/
theorem State.lt_ns_of_pending {s : State} (hs : s.running = true) {j : Nat}
    (hj : s.blk.pending.getLsbD j = true) : j < s.cfg.ns := by
  obtain ⟨henable, -⟩ := State.masks_lt_of_running hs
  rw [Block.pending, BitVec.getLsbD_and, Bool.and_eq_true] at hj
  by_contra hge
  rw [(toNat_lt_two_pow_iff _ _).1 henable j (Nat.le_of_not_lt hge)] at hj
  cases hj.1

/-- In RUN PRIO lists every pending source, so nothing is offered exactly when nothing is pending. -/
theorem State.firstPending_eq_none_iff {s : State} (hs : s.running = true) :
    firstPending s.cfg s.blk.pending = none ↔ s.blk.pending = 0#64 := by
  have hperm := Cfg.prio_perm_of_valid (State.valid_of_running hs)
  rw [firstPending_none]
  constructor
  · intro hnone
    refine BitVec.eq_of_getLsbD_eq fun j _ => ?_
    rw [BitVec.getLsbD_zero, Bool.eq_false_iff]
    intro hj
    have hmem : j ∈ s.cfg.prio := hperm.mem_iff.2 (List.mem_range.2 (State.lt_ns_of_pending hs hj))
    rw [hnone j hmem] at hj
    contradiction
  · intro hzero j _
    rw [hzero, BitVec.getLsbD_zero]

theorem exec_iaHpp_of_none {s : State} (hs : s.running = true) (h : firstPending s.cfg s.blk.pending = none) :
    exec .iaHpp s = .next (s.answer s.blk .nothing) :=
  exec_of_ok hs (by rw [effectOf, hppResponse, h])

theorem exec_iaHpp_of_some {s : State} (hs : s.running = true) {src : Nat}
    (h : firstPending s.cfg s.blk.pending = some src) :
    exec .iaHpp s = .next (s.answer s.blk (.okWith (toK src) 0#64)) :=
  exec_of_ok hs (by rw [effectOf, hppResponse, h])

/-- In the identity list a source stands at its own number. -/
theorem idxOf_range_of_lt {n j : Nat} (hj : j < n) : (List.range n).idxOf j = j := by
  have hself := (List.nodup_range (n := n)).idxOf_getElem j (by simpa using hj)
  rwa [List.getElem_range] at hself

/-- Settles O54, by whether something is pending. -/
theorem highestPriorityPendingIsFirstInPrio : Obligations.HighestPriorityPendingIsFirstInPrio := by
  intro s hs
  refine ⟨rfl, fun hzero => ?_, fun hne => ?_⟩
  · exact exec_iaHpp_of_none hs ((State.firstPending_eq_none_iff hs).2 hzero)
  · obtain ⟨src, hfirst⟩ := Option.ne_none_iff_exists'.1 (mt (State.firstPending_eq_none_iff hs).1 hne)
    obtain ⟨hpending, -⟩ := firstPending_some _ _ _ hfirst
    have hlt := State.lt_ns_of_pending hs hpending
    refine ⟨src, hlt, hpending, exec_iaHpp_of_some hs hfirst, fun j hj => firstPending_idxOf_le hfirst hj,
      fun hid j hj => ?_⟩
    have hle := firstPending_idxOf_le hfirst hj
    rwa [hid, idxOf_range_of_lt hlt, idxOf_range_of_lt (State.lt_ns_of_pending hs hj)] at hle

end Sys2Proof.Machine
end

section
/-! PROOFS. The Time-Ordered Register commands (spec/44_time_ordered_register.md R260 to R264): a read is determined by
the entries not after its cycle, and a write answers through `putStamp` and the eviction of the oldest entries. -/

namespace Sys2Proof.Machine

/-! ### Which entry a read selects (R261) -/

/-- In an increasing sequence a cycle has one entry. -/
theorem stamp_eq_of_cycle_eq {q : List Stamp} (hq : q.Pairwise fun a b => a.cycle < b.cycle) {e f : Stamp}
    (he : e ∈ q) (hf : f ∈ q) (h : e.cycle = f.cycle) : e = f := by
  have hnodup : (q.map Stamp.cycle).Nodup := List.pairwise_map.2 (hq.imp BitVec.ne_of_lt)
  exact List.inj_on_of_nodup_map hnodup he hf h

/-- The youngest entry not after a cycle is the one that a read finds; the converse is `lastAt_some`. -/
theorem lastAt_eq_some {q : List Stamp} (hq : q.Pairwise fun a b => a.cycle < b.cycle) {asOf : W64} {e : Stamp}
    (he : e ∈ q) (hle : e.cycle ≤ asOf) (hlast : ∀ f ∈ q, f.cycle ≤ asOf → f.cycle ≤ e.cycle) :
    lastAt q asOf = some e := by
  cases hfound : lastAt q asOf with
  | none => exact absurd ((lastAt_none q asOf).1 hfound e he) (BitVec.not_lt.2 hle)
  | some f =>
    obtain ⟨hf, hfle, hflast⟩ := lastAt_some q asOf f hq hfound
    rw [stamp_eq_of_cycle_eq hq hf he (BitVec.le_antisymm (hlast f hf hfle) (hflast e he hle))]

/-- A read depends on the entries not after its cycle alone. -/
theorem lastAt_congr {q q' : List Stamp} (hq : q.Pairwise fun a b => a.cycle < b.cycle)
    (hq' : q'.Pairwise fun a b => a.cycle < b.cycle) {asOf : W64}
    (h : ∀ e : Stamp, e.cycle ≤ asOf → (e ∈ q ↔ e ∈ q')) : lastAt q asOf = lastAt q' asOf := by
  cases hfound : lastAt q' asOf with
  | none =>
    rw [lastAt_none] at hfound ⊢
    intro e he
    by_contra hnot
    have hle : e.cycle ≤ asOf := BitVec.not_lt.1 hnot
    exact hnot (hfound e ((h e hle).1 he))
  | some e =>
    obtain ⟨he, hle, hlast⟩ := lastAt_some q' asOf e hq' hfound
    exact lastAt_eq_some hq ((h e hle).2 he) hle fun f hf hfle => hlast f ((h f hfle).1 hf) hfle

theorem readAsOf_of_some {b : Block} {x : Nat} {asOf : W64} {e : Stamp} (h : lastAt (seqOf b x) asOf = some e)
    (c : Cfg) : readAsOf c b x asOf = e.value := by
  rw [readAsOf, h]

theorem readAsOf_of_none {b : Block} {x : Nat} {asOf : W64} (h : lastAt (seqOf b x) asOf = none) (c : Cfg) :
    readAsOf c b x asOf = toW64 (c.xrDefault.getD x 0) := by
  rw [readAsOf, h]

/-! ### What a write does to the length (R260) -/

theorem insertStamp_length (e : Stamp) (q : List Stamp) : (insertStamp e q).length = q.length + 1 := by
  induction q with
  | nil => rfl
  | cons f q ih =>
    unfold insertStamp
    split
    · rfl
    · rw [List.length_cons, ih, List.length_cons]

/-- A write at a cycle that is not stored inserts. -/
theorem putStamp_of_new {e : Stamp} {q : List Stamp} (hnew : ∀ f ∈ q, f.cycle ≠ e.cycle) :
    putStamp e q = insertStamp e q := by
  rw [putStamp, if_neg (by simpa using hnew)]

theorem putStamp_length_le (e : Stamp) (q : List Stamp) : (putStamp e q).length ≤ q.length + 1 := by
  unfold putStamp
  split
  · rw [List.length_map]
    omega
  · rw [insertStamp_length]

theorem evict_of_length_le {cap : Nat} {q : List Stamp} (h : q.length ≤ cap) : evict cap q = q := by
  rw [evict, Nat.sub_eq_zero_of_le h, List.drop_zero]

/-- A write at a new cycle into a full sequence, younger than the oldest entry, evicts that entry (R260). -/
theorem evict_putStamp_of_full {cap : Nat} {e n : Stamp} {q : List Stamp} (hfull : (e :: q).length = cap)
    (hnew : ∀ f ∈ e :: q, f.cycle ≠ n.cycle) (hlt : e.cycle < n.cycle) :
    evict cap (putStamp n (e :: q)) = insertStamp n q := by
  have hput : putStamp n (e :: q) = e :: insertStamp n q := by
    rw [putStamp_of_new hnew, insertStamp, if_neg (BitVec.lt_asymm hlt)]
  have hover : (e :: insertStamp n q).length - cap = 1 := by
    rw [List.length_cons, insertStamp_length, ← hfull, List.length_cons]
    omega
  rw [hput, evict, hover, List.drop_one, List.tail_cons]

/-! ### The effects by cases (R260 to R262) -/

theorem xrWriteEffect_outOfRange {c : Cfg} {x : Idx} {v : W64} (h : c.nx ≤ x.toNat ∨ 2 ^ c.vw ≤ v.toNat) (b : Block)
    (t : W64) : xrWriteEffect c b x t v = .error .operandRange := by
  rcases Nat.lt_or_ge x.toNat c.nx with hx | hx
  · have hv : 2 ^ c.vw ≤ v.toNat := h.resolve_left (Nat.not_le.2 hx)
    simp [xrWriteEffect, registerInRange, valueInRange, idxNat, hx, Nat.not_lt.2 hv]
  · simp [xrWriteEffect, registerInRange, idxNat, Nat.not_lt.2 hx]

theorem xrReadEffect_outOfRange {c : Cfg} {x : Idx} (hx : c.nx ≤ x.toNat) (b : Block) (t : W64) :
    xrReadEffect c b x t = .error .operandRange := by
  simp [xrReadEffect, registerInRange, idxNat, Nat.not_lt.2 hx]

/-- The elements after an XR_WRITE with operands in range (R260). -/
def Block.written (c : Cfg) (b : Block) (x : Idx) (t v : W64) : Block :=
  { b with seq := b.seq.set x.toNat (evict c.xrCap (putStamp ⟨t, v⟩ (seqOf b x.toNat))) }

theorem exec_xrWrite {s : State} {x : Idx} {v : W64} (hs : s.running = true) (hx : x.toNat < s.cfg.nx)
    (hv : v.toNat < 2 ^ s.cfg.vw) (t : W64) :
    exec (.xrWrite x t v) s = .next (s.answer (s.blk.written s.cfg x t v) .okay) := by
  refine exec_of_ok hs ?_
  simp [effectOf, xrWriteEffect, registerInRange, valueInRange, idxNat, Block.written, hx, hv]

theorem exec_xrRead {s : State} {x : Idx} (hs : s.running = true) (hx : x.toNat < s.cfg.nx) (asOf : W64) :
    exec (.xrRead x asOf) s = .next (s.answer s.blk (.okWith 0#8 (readAsOf s.cfg s.blk x.toNat asOf))) := by
  refine exec_of_ok hs ?_
  simp [effectOf, xrReadEffect, registerInRange, idxNat, hx]

/-- Settles O56: each failed check is the same fault. -/
theorem registerOperandChecks : Obligations.RegisterOperandChecks := fun s x t v hs =>
  ⟨fun h => exec_of_error (i := .xrWrite x t v) hs (xrWriteEffect_outOfRange h s.blk t),
    fun hx => exec_of_error (i := .xrRead x t) hs (xrReadEffect_outOfRange hx s.blk t)⟩

/-! ### A sound machine's registers -/

/-- The cycles of every register of a sound machine increase (10_state.md R41). -/
theorem State.seqOf_increasing {s : State} (hs : s.sound = true) {x : Nat} (hx : x < s.cfg.nx) :
    (seqOf s.blk x).Pairwise fun a b => a.cycle < b.cycle := by
  obtain ⟨-, inv⟩ := State.invariants_of_sound hs
  have hlen : x < s.blk.seq.length := inv.seq_length ▸ hx
  rw [seqOf, List.getD_eq_getElem _ _ hlen]
  exact (inv.seq_ok _ (List.getElem_mem hlen)).cycles

/-- What the register holds after the write. -/
theorem State.seqOf_written {s : State} (hs : s.sound = true) {x : Idx} (hx : x.toNat < s.cfg.nx) (t v : W64) :
    seqOf (s.blk.written s.cfg x t v) x.toNat = evict s.cfg.xrCap (putStamp ⟨t, v⟩ (seqOf s.blk x.toNat)) := by
  obtain ⟨-, inv⟩ := State.invariants_of_sound hs
  have hlen : x.toNat < s.blk.seq.length := inv.seq_length ▸ hx
  rw [Block.written, seqOf, List.getD_eq_getElem?_getD, List.getElem?_set_self hlen, Option.getD_some]

theorem State.running_written {s : State} (hs : s.sound = true) {x : Idx} (hx : x.toNat < s.cfg.nx) {v : W64}
    (hv : v.toNat < 2 ^ s.cfg.vw) (t : W64) : (s.answer (s.blk.written s.cfg x t v) .okay).running = true :=
  State.running_of_sound (exec_sound hs (exec_xrWrite (State.running_of_sound hs) hx hv t) (s.sound_iff.1 hs).2)

/-- A read in RUN that finds an entry. -/
theorem exec_xrRead_of_some {s : State} {x : Idx} {asOf : W64} {e : Stamp} (hs : s.running = true)
    (hx : x.toNat < s.cfg.nx) (h : lastAt (seqOf s.blk x.toNat) asOf = some e) :
    exec (.xrRead x asOf) s = .next (s.answer s.blk (.okWith 0#8 e.value)) := by
  rw [exec_xrRead hs hx, readAsOf_of_some h]

/-- A read in RUN of a register all of whose entries are younger. -/
theorem exec_xrRead_of_none {s : State} {x : Idx} {asOf : W64} (hs : s.running = true) (hx : x.toNat < s.cfg.nx)
    (h : ∀ e ∈ seqOf s.blk x.toNat, asOf < e.cycle) :
    exec (.xrRead x asOf) s =
      .next (s.answer s.blk (.okWith 0#8 (toW64 (s.cfg.xrDefault.getD x.toNat 0)))) := by
  rw [exec_xrRead hs hx, readAsOf_of_none ((lastAt_none _ asOf).2 h)]

/-! ### XR_WRITE and XR_READ -/

/-- Settles O57: the sequence before eviction is the one of `putStamp`. -/
theorem writeInsertsReplacesAndEvicts : Obligations.WriteInsertsReplacesAndEvicts := fun s x t v hs hx hv =>
  ⟨rfl, putStamp ⟨t, v⟩ (seqOf s.blk x.toNat), putStamp_increasing _ _ (State.seqOf_increasing hs hx),
    fun e => mem_putStamp ⟨t, v⟩ e _, exec_xrWrite (State.running_of_sound hs) hx hv t⟩

/-- Settles O58, by whether an entry qualifies. -/
theorem readReturnsTheLatestNotAfter : Obligations.ReadReturnsTheLatestNotAfter := by
  intro s x asOf hs hx
  have hrun := State.running_of_sound hs
  refine ⟨rfl, fun e he hle hlast => ?_, fun hnone => ?_⟩
  · exact exec_xrRead_of_some hrun hx (lastAt_eq_some (State.seqOf_increasing hs hx) he hle hlast)
  · exact exec_xrRead_of_none hrun hx hnone

/-- The new entry is what a read from its cycle on finds, up to the next stored cycle (R263). -/
theorem lastAt_putStamp_self {q : List Stamp} (hq : q.Pairwise fun a b => a.cycle < b.cycle) {n : Stamp} {asOf : W64}
    (hle : n.cycle ≤ asOf) (hnext : ∀ e ∈ q, ¬ (n.cycle < e.cycle ∧ e.cycle ≤ asOf)) :
    lastAt (putStamp n q) asOf = some n := by
  refine lastAt_eq_some (putStamp_increasing n q hq) ((mem_putStamp n n q).2 (.inl rfl)) hle fun f hf hfle => ?_
  rcases (mem_putStamp n f q).1 hf with rfl | ⟨hold, -⟩
  · exact BitVec.le_refl _
  · exact BitVec.not_lt.1 fun hlt => hnext f hold ⟨hlt, hfle⟩

/-- A read as of an earlier cycle does not see the write (R263). -/
theorem lastAt_putStamp_of_lt {q : List Stamp} (hq : q.Pairwise fun a b => a.cycle < b.cycle) {n : Stamp} {asOf : W64}
    (hlt : asOf < n.cycle) : lastAt (putStamp n q) asOf = lastAt q asOf := by
  refine lastAt_congr (putStamp_increasing n q hq) hq fun e hle => ?_
  have hne : e.cycle ≠ n.cycle := fun hc => BitVec.not_lt.2 hle (hc ▸ hlt)
  rw [mem_putStamp]
  constructor
  · rintro (rfl | ⟨hold, -⟩)
    · exact absurd rfl hne
    · exact hold
  · exact fun hold => .inr ⟨hold, hne⟩

/-- Settles O59: with room nothing is evicted, and the reads are those of `putStamp`. -/
theorem writesAreSeenFromTheirCycleOn : Obligations.WritesAreSeenFromTheirCycleOn := by
  intro s x t v hs hx hv hroom
  have hrun := State.running_of_sound hs
  have hrun' := State.running_written hs hx hv t
  have hinc := State.seqOf_increasing hs hx
  have hseq : seqOf (s.blk.written s.cfg x t v) x.toNat = putStamp ⟨t, v⟩ (seqOf s.blk x.toNat) := by
    rw [State.seqOf_written hs hx]
    exact evict_of_length_le ((putStamp_length_le _ _).trans hroom)
  refine ⟨_, exec_xrWrite hrun hx hv t, fun asOf hle hnext => ?_, fun asOf hlt => ?_⟩
  · refine exec_xrRead_of_some (e := ⟨t, v⟩) hrun' hx ?_
    rw [State.answer_blk, hseq]
    exact lastAt_putStamp_self hinc hle hnext
  · have hsame : readAsOf s.cfg (s.blk.written s.cfg x t v) x.toNat asOf = readAsOf s.cfg s.blk x.toNat asOf := by
      rw [readAsOf, hseq, lastAt_putStamp_of_lt hinc hlt, readAsOf]
    refine ⟨_, _, _, exec_xrRead hrun hx asOf, exec_xrRead hrun' hx asOf, rfl, ?_⟩
    rw [State.answer_out, State.answer_cfg, State.answer_blk, hsame]

/-- Settles O60: without its oldest entry the register holds nothing at or before the cycle of the read. -/
theorem evictedEntryReadsAsDefault : Obligations.EvictedEntryReadsAsDefault := by
  intro s x t v asOf e q hs hx hv hq hfull hnew hlt hle hasOf hlater
  have hrun := State.running_of_sound hs
  have hold : seqOf s.blk x.toNat = e :: q := hq
  have hfind : lastAt (seqOf s.blk x.toNat) asOf = some e := by
    refine lastAt_eq_some (State.seqOf_increasing hs hx) (by simp [hold]) hle fun f hf hfle => ?_
    rcases List.mem_cons.1 (hold ▸ hf) with rfl | hmem
    · exact BitVec.le_refl _
    · exact absurd (hlater f hmem) (BitVec.not_lt.2 hfle)
  have hseq : seqOf (s.blk.written s.cfg x t v) x.toNat = insertStamp ⟨t, v⟩ q := by
    rw [State.seqOf_written hs hx, hold, evict_putStamp_of_full hfull hnew hlt]
  refine ⟨_, exec_xrWrite hrun hx hv t, exec_xrRead_of_some hrun hx hfind,
    exec_xrRead_of_none (State.running_written hs hx hv t) hx fun f hf => ?_⟩
  rw [State.answer_blk, hseq, mem_insertStamp] at hf
  rcases hf with rfl | hmem
  · exact hasOf
  · exact hlater f hmem

end Sys2Proof.Machine
end

section
/-! PROOFS. Equal images answer alike (spec/60_exceptions.md R301, 70_reset_and_hazards.md R331): serving a command reads
CFG, the elements and the store, so two machines that share these and what has arrived answer each frame alike,
whatever each handed out before and however many free values it drew. -/

namespace Sys2Proof.Machine

/-- The same CFG, elements, store and inbox: everything that a frame's answer can depend on. -/
structure SameImage (s u : State) : Prop where
  cfg : s.cfg = u.cfg
  blk : s.blk = u.blk
  back : s.back = u.back
  inbox : s.inbox = u.inbox

/-- The same answer: equal images, and the same thing handed out. -/
structure SameAnswer (s u : State) : Prop extends SameImage s u where
  out : s.out = u.out

theorem SameImage.answer {s u : State} (h : SameImage s u) (b : Block) (r : Response) :
    SameAnswer (s.answer b r) (u.answer b r) :=
  ⟨⟨h.cfg, rfl, h.back, h.inbox⟩, rfl⟩

theorem SameImage.takeFault {s u : State} (h : SameImage s u) (f : Cause) :
    SameAnswer (s.takeFault f) (u.takeFault f) := by
  rw [State.takeFault, State.takeFault, h.blk]
  exact h.answer _ _

theorem SameImage.stillFaulted {s u : State} (h : SameImage s u) : SameAnswer s.stillFaulted u.stillFaulted := by
  rw [State.stillFaulted, State.stillFaulted, h.blk]
  exact h.answer _ _

theorem SameImage.shaped {s u : State} (h : SameImage s u) : s.shaped = u.shaped := by
  rw [State.shaped, State.shaped, h.cfg, h.blk]

/-- Whatever has arrived first is taken from both. -/
theorem SameImage.take {s u : State} (h : SameImage s u) (rest : List Input) :
    SameImage { s with inbox := rest } { u with inbox := rest } :=
  ⟨h.cfg, h.blk, h.back, rfl⟩

/-- One effect is served alike, in either mode. -/
theorem SameImage.serve {s u t : State} (h : SameImage s u) {e : Effect} (hs : serve s e = .next t) :
    ∃ v, serve u e = .next v ∧ SameAnswer t v := by
  rcases serve_next s t e hs with ⟨hf, rfl⟩ | ⟨hf, hshaped, b, r, rfl, rfl⟩ | ⟨hf, hshaped, f, rfl, rfl⟩
  · exact ⟨_, serve_of_faulted u e (h.blk ▸ hf), h.stillFaulted⟩
  · exact ⟨_, serve_ok u b r (h.blk ▸ hf) (h.shaped ▸ hshaped), h.answer b r⟩
  · exact ⟨_, serve_error u f (h.blk ▸ hf) (h.shaped ▸ hshaped), h.takeFault f⟩

/-- A command's effect is a function of what equal images share. -/
theorem SameImage.exec {s u t : State} (h : SameImage s u) {i : Instr} (hs : exec i s = .next t) :
    ∃ v, exec i u = .next v ∧ SameAnswer t v := by
  rw [exec_eq_serve, h.cfg, h.back, h.blk] at hs
  rw [exec_eq_serve]
  exact h.serve hs

theorem SameImage.serveIllegal {s u t : State} (h : SameImage s u) (hs : serveIllegal s = .next t) :
    ∃ v, serveIllegal u = .next v ∧ SameAnswer t v := by
  rcases serveIllegal_next s t hs with ⟨hf, rfl⟩ | ⟨hf, rfl⟩ <;> rw [h.blk] at hf
  · exact ⟨_, by rw [Machine.serveIllegal, if_pos hf], h.stillFaulted⟩
  · exact ⟨_, by rw [Machine.serveIllegal, if_neg (by simp [hf])], h.takeFault .illegalCmd⟩

theorem SameImage.performFrame {s u t : State} (h : SameImage s u) {f : Frame} (hs : performFrame f s = .next t) :
    ∃ v, performFrame f u = .next v ∧ SameAnswer t v := by
  cases hdec : decode f with
  | ok i =>
    rw [performFrame_of_ok hdec] at hs ⊢
    exact h.exec hs
  | error e =>
    rw [Machine.performFrame, hdec] at hs ⊢
    exact h.serveIllegal hs

/-- Performing a frame takes nothing from what has arrived after it. -/
theorem performFrame_inbox {f : Frame} {s t : State} (h : performFrame f s = .next t) : t.inbox = s.inbox := by
  rcases performFrame_cases f s with ⟨i, -, hexec⟩ | ⟨_, -, hill⟩
  · rw [hexec, exec_eq_serve] at h
    obtain ⟨-, -, hinbox, -⟩ := serve_frame s t _ h
    exact hinbox
  · rcases serveIllegal_next s t (hill.symm.trans h) with ⟨-, rfl⟩ | ⟨-, rfl⟩
    · exact s.stillFaulted_inbox
    · exact s.takeFault_inbox _

/-- The step lemma: a frame at the head of what has arrived is answered alike. -/
theorem SameImage.step {s u t : State} (h : SameImage s u) {f : Frame} {rest : List Input}
    (hin : s.inbox = .frame f :: rest) (hs : step s = .next t) :
    t.inbox = rest ∧ ∃ v, step u = .next v ∧ SameAnswer t v := by
  rw [step_frame s f rest hin] at hs
  rw [step_frame u f rest (h.inbox ▸ hin)]
  exact ⟨performFrame_inbox hs, (h.take rest).performFrame hs⟩

/-- A run of one step more is a step and a run. -/
theorem run_succ_eq_next_iff (m : Host.Core) (k : Nat) (s t : m.State) :
    m.run (k + 1) s = .next t ↔ ∃ s', m.step s = .next s' ∧ m.run k s' = .next t := by
  rw [Host.Core.run]
  cases m.step s <;> simp

/-- By induction on the steps: after at least one of them, all frames, equal images have become equal answers. -/
theorem SameImage.run {k : Nat} {fs : List Frame} {s u t : State} (h : SameImage s u)
    (hin : s.inbox = fs.map Input.frame) (hk : k < fs.length)
    (hs : Host.Core.run Sys2Proof.core (k + 1) s = .next t) :
    ∃ v, Host.Core.run Sys2Proof.core (k + 1) u = .next v ∧ SameAnswer t v := by
  induction k generalizing fs s u with
  | zero =>
    obtain ⟨f, fs, rfl⟩ := List.exists_cons_of_length_pos hk
    obtain ⟨s', hstep, hrun⟩ := (run_succ_eq_next_iff Sys2Proof.core 0 s t).1 hs
    obtain ⟨-, v, hstep', hsame⟩ := h.step hin hstep
    cases hrun
    exact ⟨v, (run_succ_eq_next_iff Sys2Proof.core 0 u v).2 ⟨v, hstep', rfl⟩, hsame⟩
  | succ k ih =>
    obtain ⟨f, fs, rfl⟩ := List.exists_cons_of_length_pos (Nat.zero_lt_of_lt hk)
    obtain ⟨s', hstep, hrun⟩ := (run_succ_eq_next_iff Sys2Proof.core (k + 1) s t).1 hs
    obtain ⟨hrest, u', hstep', hsame⟩ := h.step hin hstep
    obtain ⟨v, hrun', hanswer⟩ := ih hsame.toSameImage hrest (Nat.lt_of_succ_lt_succ hk) hrun
    exact ⟨v, (run_succ_eq_next_iff Sys2Proof.core (k + 1) u v).2 ⟨u', hstep', hrun'⟩, hanswer⟩

/-- Settles O23: the step lemma, along a run of at least one step. -/
theorem equalImagesAnswerAlike : Obligations.EqualImagesAnswerAlike := by
  intro fs k s u t hcfg hblk hback hin hin' hpos hk hs
  obtain ⟨k, rfl⟩ := Nat.exists_eq_succ_of_ne_zero hpos.ne'
  have himage : SameImage s u := ⟨hcfg, hblk, hback, hin.trans hin'.symm⟩
  obtain ⟨v, hrun, hsame⟩ := himage.run hin hk hs
  exact ⟨v, hrun, hsame.blk, hsame.out, hsame.inbox⟩

end Sys2Proof.Machine
end

section
/-! PROOFS. The mode FAULTED, the faults and NONE (spec/60_exceptions.md R280 to R286): one description of what a
command's effect may be, and from it what each command may raise and which may answer NONE. -/

namespace Sys2Proof.Machine

/-! ### While FAULT = 1 (R283) -/

/-- In FAULTED every frame, legal or not, is answered FAULTED (R283). -/
theorem performFrame_of_faulted (f : Frame) {s : State} (hf : s.blk.fault = true) :
    performFrame f s = .next s.stillFaulted := by
  rcases performFrame_cases f s with ⟨i, -, hexec⟩ | ⟨_, -, hill⟩
  · rw [hexec, exec_eq_serve, serve_of_faulted s _ hf]
  · rw [hill, serveIllegal, if_pos hf]

/-- Settles O7: a FAULTED block never looks at the frame. -/
theorem faultedBlockOnlyAnswersFaulted : Obligations.FaultedBlockOnlyAnswersFaulted := by
  intro s f rest hin hf
  rw [step_frame s f rest hin, performFrame_of_faulted f (s := { s with inbox := rest }) hf]
  rfl

/-! ### What a command's effect may be -/

/-- The commands whose rules answer NONE (R137, R202, R244). -/
def MayAnswerNone (i : Instr) : Prop := (∃ now, i = .esPop now) ∨ (∃ a, i = .pfRead a) ∨ i = .iaHpp

/-- The three forms of a command's effect: a fault that the table of causes gives the command (R281), F_ILLEGAL_CMD only
for an ill-formed one; OK, with FAULT left alone; or NONE with every element left alone (R286). Tied to the commands by
`effectOf_orderly`. -/
inductive Effect.Orderly (i : Instr) (b : Block) : Effect → Prop
  | error {f : Cause} (hf : f ∈ raisable i) (hwf : f = .illegalCmd → i.wf = false) : Orderly i b (.error f)
  | ok {p : Block × Response} (hfault : p.1.fault = b.fault) (hstatus : p.2.status = .ok) : Orderly i b (.ok p)
  | none (hi : MayAnswerNone i) : Orderly i b (.ok (b, .nothing))

/-- An effect that is chosen by a check is orderly when both choices are. -/
theorem Effect.Orderly.ite {i : Instr} {b : Block} {p : Prop} [Decidable p] {e e' : Effect} (he : e.Orderly i b)
    (he' : e'.Orderly i b) : Effect.Orderly i b (if p then e else e') := by
  split
  · exact he
  · exact he'

/-- The address checks raise the two causes of R207. -/
theorem Effect.Orderly.checked {i : Instr} {b : Block} {p : Block × Response} (c : Cfg) (a : W64)
    (hi : raisable i = [.operandRange, .pfMisaligned]) (hp : Effect.Orderly i b (.ok p)) :
    Effect.Orderly i b (do checkPfAddress c a; return p) := by
  rcases checkPfAddress_cases c a with ⟨hchk, -⟩ | ⟨hchk, -⟩ | ⟨hchk, -⟩ <;> rw [hchk]
  · exact hp
  · exact .error (by simp [hi]) nofun
  · exact .error (by simp [hi]) nofun

/-- The prefetch unit does not touch FAULT. -/
theorem OnlyEngine.fault {b b' : Block} (h : OnlyEngine b b') : b'.fault = b.fault := by
  obtain ⟨_, _, _, _, _, rfl⟩ := h
  rfl

theorem prepare_status (c : Cfg) (m : Memory) (b : Block) (a : W64) : (prepare c m b a).2.status = .ok := by
  unfold prepare
  split
  · rfl
  · split
    · rfl
    · rfl

/-- PF_READ answers OK with the head word, or NONE and changes nothing (R202). -/
theorem readWord_answer (c : Cfg) (b : Block) (a : W64) :
    readWord c b a = (b, .nothing) ∨ (readWord c b a).2.status = .ok := by
  unfold readWord
  split
  · exact .inl rfl
  · split
    · exact .inr rfl
    · exact .inl rfl

theorem pfReadEffect_orderly (c : Cfg) (b : Block) (a : W64) : (pfReadEffect c b a).Orderly (.pfRead a) b := by
  refine .checked c a rfl ?_
  rcases readWord_answer c b a with hnone | hok
  · rw [hnone]
    exact .none (.inr (.inl ⟨a, rfl⟩))
  · exact .ok (readWord_onlyEngine c b a).fault hok

/-- BT_COST's check of the width code is the one of well-formedness (R107, R191). -/
theorem btCostEffect_orderly (c : Cfg) (b : Block) (w : BitVec 2) (seq : Bool) (a : W64) :
    (btCostEffect c b w seq a).Orderly (.btCost w seq a) b := by
  unfold btCostEffect
  split
  · rename_i hw
    exact .error (.head _) fun _ => by simpa [Instr.wf] using hw
  · exact .ite (.error (.tail _ (.head _)) nofun) (.ok rfl rfl)

theorem iaHppEffect_orderly (c : Cfg) (b : Block) : Effect.Orderly .iaHpp b (.ok (b, hppResponse c b)) := by
  unfold hppResponse
  split
  · exact .ok rfl rfl
  · exact .none (.inr (.inr rfl))

/-- Every command's effect is orderly, in every state. -/
theorem effectOf_orderly (c : Cfg) (m : Memory) (b : Block) (i : Instr) : (effectOf c m b i).Orderly i b := by
  cases i with
  | esInsert _ _ | esRemove _ =>
    refine .ite (.error (.head _) nofun) (.ite ?_ (.ok rfl rfl))
    split
    · exact .error (.tail _ (.head _)) nofun
    · exact .ok rfl rfl
  | esPop now => exact .ite (.ok rfl rfl) (.none (.inl ⟨now, rfl⟩))
  | cdAdvance long mc => exact .ite (.error (.head _) nofun) (.ok rfl rfl)
  | cdBusgrant d => exact .ite (.error (.head _) nofun) (.ite (.error (.tail _ (.head _)) nofun) (.ok rfl rfl))
  | btCost w seq addr => exact btCostEffect_orderly c b w seq addr
  | btSetbw r bit => exact .ite (.error (.head _) nofun) (.ok rfl rfl)
  | btSetpf en => exact .ite (.ok rfl rfl) (.ok rfl rfl)
  | pfPrepare addr =>
    exact .checked c addr rfl (.ok (prepare_onlyEngine c m b addr).fault (prepare_status c m b addr))
  | pfRead addr => exact pfReadEffect_orderly c b addr
  | pfAdvance cycles => exact .ok (runEngine_onlyEngine c m _ b _).fault rfl
  | iaHpp => exact iaHppEffect_orderly c b
  | xrWrite x cycle value =>
    exact .ite (.error (.head _) nofun) (.ite (.error (.head _) nofun) (.ok rfl rfl))
  | xrRead x asOf => exact .ite (.error (.head _) nofun) (.ok rfl rfl)
  | esReady _ | iaSetflag _ | iaWrenable _ | iaWrflagclr _ | iaAck _ => exact .ok rfl rfl

/-! ### Faults (R281, R282) -/

/-- A command that raises FAULT took one of its own faults, whole. -/
theorem exec_raises {i : Instr} {s t : State} (h : exec i s = .next t) (hf : s.blk.fault = false)
    (hf' : t.blk.fault = true) :
    ∃ f ∈ raisable i, (f = .illegalCmd → i.wf = false) ∧ t = s.takeFault f := by
  rw [exec_eq_serve] at h
  have horderly := effectOf_orderly s.cfg s.back s.blk i
  rcases serve_next s t _ h with ⟨hf1, -⟩ | ⟨-, -, b, r, heff, rfl⟩ | ⟨-, -, f, heff, rfl⟩
  · rw [hf] at hf1
    cases hf1
  · rw [State.answer_blk] at hf'
    rw [heff] at horderly
    cases horderly with
    | ok hfault _ => simp [hf, hf'] at hfault
    | none _ => simp [hf] at hf'
  · rw [heff] at horderly
    cases horderly with
    | error hmem hwf => exact ⟨f, hmem, hwf, rfl⟩

/-- Settles O9: the fault that was taken is one that the command's effect names. -/
theorem commandsRaiseOnlyTheirOwnCauses : Obligations.CommandsRaiseOnlyTheirOwnCauses := by
  intro i s t h hf hf'
  obtain ⟨f, hmem, hwf, rfl⟩ := exec_raises h hf hf'
  exact ⟨f, hmem, rfl, hwf⟩

/-- A frame that raises FAULT does nothing but take one fault. -/
theorem performFrame_raises {f : Frame} {s t : State} (h : performFrame f s = .next t) (hf : s.blk.fault = false)
    (hf' : t.blk.fault = true) : ∃ cause, t = s.takeFault cause := by
  rcases performFrame_cases f s with ⟨i, -, hexec⟩ | ⟨_, -, hill⟩
  · obtain ⟨cause, -, -, ht⟩ := exec_raises (hexec.symm.trans h) hf hf'
    exact ⟨cause, ht⟩
  · rcases serveIllegal_next s t (hill.symm.trans h) with ⟨hf1, -⟩ | ⟨-, ht⟩
    · rw [hf] at hf1
      cases hf1
    · exact ⟨.illegalCmd, ht⟩

/-- Settles O8: taking a fault is the change that R282 states. -/
theorem faultIsPrecise : Obligations.FaultIsPrecise := by
  intro s t f rest hin hf h hf'
  rw [step_frame s f rest hin] at h
  obtain ⟨cause, rfl⟩ := performFrame_raises h hf hf'
  exact ⟨cause, rfl⟩

/-! ### Leaving FAULTED (R284) -/

/-- A RESET that leaves FAULT at 0 had a valid CFG. -/
theorem valid_of_hostReset_running {c : Cfg} {s : State} (h : (hostReset c s).blk.fault = false) : c.valid = true := by
  by_contra hv
  rw [hostReset_of_invalid c s (by simpa using hv)] at h
  cases h

/-- A RESTORE that clears FAULT took a legal image whose FAULT is 0. -/
theorem legal_of_hostRestore_running {im : Block} {s : State} (hf : s.blk.fault = true)
    (h : (hostRestore im s).blk.fault = false) : s.cfg.valid = true ∧ im.legal s.cfg = true ∧ im.fault = false := by
  cases hgood : s.cfg.valid && im.legal s.cfg with
  | true =>
    obtain ⟨hv, hl⟩ := Bool.and_eq_true_iff.1 hgood
    rw [hostRestore_of_legal im s hv hl] at h
    exact ⟨hv, hl, h⟩
  | false =>
    rw [hostRestore_of_bad im s hgood, if_pos hf, State.silent_blk, hf] at h
    cases h

/-- Settles O10, by cases on what has arrived. -/
theorem onlyResetAndRestoreLeaveFaulted : Obligations.OnlyResetAndRestoreLeaveFaulted := by
  intro s t hf h
  have hframe : ∀ f rest, s.inbox = .frame f :: rest → t.blk = s.blk := fun f rest hin => by
    rw [faultedBlockOnlyAnswersFaulted s f rest hin hf] at h
    cases h
    rfl
  refine ⟨hframe, fun hrun => ?_⟩
  have hleft : t.blk ≠ s.blk := fun heq => by rw [heq, hf] at hrun; cases hrun
  cases hin : s.inbox with
  | nil =>
    rw [step_idle s hin] at h
    cases h
    exact absurd rfl hleft
  | cons item rest =>
    cases item with
    | frame f => exact absurd (hframe f rest hin) hleft
    | reset c =>
      rw [step_reset s c rest hin] at h
      cases h
      exact .inl ⟨c, rest, rfl, valid_of_hostReset_running hrun⟩
    | snapshot =>
      rw [step_snapshot s rest hin] at h
      cases h
      exact absurd rfl hleft
    | restore im =>
      rw [step_restore s im rest hin] at h
      cases h
      exact .inr ⟨im, rest, rfl, legal_of_hostRestore_running (s := { s with inbox := rest }) hf hrun⟩
    | backWrite a v =>
      rw [step_backWrite s a v rest hin, platformWrite] at h
      split at h
      · cases h
        exact absurd rfl hleft
      · cases h

/-! ### NONE (R286) -/

/-- Settles O11: NONE comes from one form of effect alone, which leaves the elements of a block in RUN. -/
theorem noneIsNoFaultAndChangesNothing : Obligations.NoneIsNoFaultAndChangesNothing := by
  intro i s t r h hout hr
  rw [exec_eq_serve] at h
  have horderly := effectOf_orderly s.cfg s.back s.blk i
  rcases serve_next s t _ h with ⟨-, rfl⟩ | ⟨hf, -, b, r', heff, rfl⟩ | ⟨-, -, f, -, rfl⟩ <;> cases hout
  · cases hr
  · rw [heff] at horderly
    cases horderly with
    | ok _ hstatus => cases hr.symm.trans hstatus
    | none hi => exact ⟨rfl, hf, hi⟩
  · cases hr

end Sys2Proof.Machine
end

section
/-! PROOFS. RESTORE and SNAPSHOT (spec/60_exceptions.md R301, R302): the check of an image in plain form, unit by unit,
and what the two host actions leave. -/

namespace Sys2Proof.Machine

/-! ### The check of an image in plain form (10_state.md R20, R26, R31, R37, R41, R42) -/

/-- Two live slots, as `getElem?` gives them, hold what `slot` reads. -/
theorem heapOrdered_iff_getElem? (h : List Entry) :
    heapOrdered h = true ↔ ∀ i e p, 0 < i → h[i]? = some e → h[(i - 1) / 2]? = some p →
      ¬ (e.due < p.due ∨ (e.due = p.due ∧ e.kind < p.kind)) := by
  simp only [heapOrdered_iff, ← less_iff, Bool.not_eq_true]
  constructor
  · intro ho i e p hi he hp
    obtain ⟨hlt, rfl⟩ := List.getElem?_eq_some_iff.1 he
    obtain ⟨hlt', rfl⟩ := List.getElem?_eq_some_iff.1 hp
    rw [← slot_of_lt h i hlt, ← slot_of_lt h _ hlt']
    exact ho i hi hlt
  · intro ho i hi hlt
    have hlt' : (i - 1) / 2 < h.length := by omega
    rw [slot_of_lt h i hlt, slot_of_lt h _ hlt']
    exact ho i _ _ hi (List.getElem?_eq_getElem hlt) (List.getElem?_eq_getElem hlt')

/-- R26 with the types of R20. -/
theorem scheduleOk_iff (c : Cfg) (h : List Entry) (p : BitVec 8) :
    ScheduleOk c h p ↔
      1 ≤ h.length ∧ h.length ≤ c.nk + 1 ∧ (∀ e ∈ h, e.kind ≤ c.nk) ∧ (⟨c.nk, BitVec.allOnes 64⟩ : Entry) ∈ h ∧
        h.Pairwise (fun e e' => e.kind ≠ e'.kind) ∧ p.toNat < 2 ^ c.nk ∧
        (∀ k, k < c.nk → (p.getLsbD k = true ↔ ∃ e ∈ h, e.kind = k)) ∧
        ∀ i e parent, 0 < i → h[i]? = some e → h[(i - 1) / 2]? = some parent →
          ¬ (e.due < parent.due ∨ (e.due = parent.due ∧ e.kind < parent.kind)) := by
  have hsent : (⟨c.nk, BitVec.allOnes 64⟩ : Entry) = sentinel c := rfl
  have hnodup : h.Pairwise (fun e e' => e.kind ≠ e'.kind) ↔ (h.map Entry.kind).Nodup := List.pairwise_map.symm
  have hbits : (∀ k, k < c.nk → (p.getLsbD k = true ↔ ∃ e ∈ h, e.kind = k)) ↔
      ∀ k, k < c.nk → isPresent p k = hasKind h k := by
    refine forall₂_congr fun k _ => ?_
    rw [← List.mem_map (f := Entry.kind), ← hasKind_iff, isPresent]
    exact Bool.eq_iff_iff.symm
  rw [hsent, hnodup, hbits, ← heapOrdered_iff_getElem?, ← List.forall_mem_map (P := (· ≤ c.nk))]
  constructor
  · intro ok
    obtain ⟨hlt, heq⟩ := (present_check_iff c h p).2 ok.present_iff
    exact ⟨ok.length_pos, ok.length_le, ok.kind_le, ok.sentinel_mem, ok.kinds_nodup, hlt, heq, ok.ordered⟩
  · rintro ⟨-, -, hkind, hmem, hdist, hlt, heq, hord⟩
    exact ⟨⟨hkind, hmem, hdist, (present_check_iff c h p).1 ⟨hlt, heq⟩⟩, hord⟩

/-- R31 with the lengths of R20. -/
theorem clockOk_iff (c : Cfg) (acc stall : List W64) (refcnt : W64) :
    ClockOk c acc stall refcnt ↔
      acc.length = c.nd ∧ stall.length = c.nd ∧ (∀ d, d < c.nd → (acc.getD d 0#64).toNat < c.div.getD d 0) ∧
        (0 < c.refPeriod → refcnt.toNat < c.refPeriod - c.refSlack) ∧ (c.refPeriod = 0 → refcnt = 0#64) := by
  rw [Nat.pos_iff_ne_zero]
  constructor
  · exact fun ok => ⟨ok.acc_length, ok.stall_length, ok.acc_lt, ok.refcnt_lt, ok.refcnt_off⟩
  · exact fun ⟨hacc, hstall, hlt, hon, hoff⟩ => ⟨hacc, hstall, hlt, hoff, hon⟩

/-- R37 with the widths of R20. -/
theorem Block.engineOk_iff (c : Cfg) (b : Block) :
    b.EngineOk c ↔
      b.pfQ.length ≤ c.pfN ∧ (∀ w ∈ b.pfQ, w.toNat < 2 ^ (8 * c.pfWb)) ∧ b.raddr.toNat < 2 ^ c.ab ∧
        b.waddr.toNat < 2 ^ c.ab ∧ (b.active = false → b.rem = 0#64) ∧
        b.waddr.toNat = (b.raddr.toNat + b.pfQ.length * c.pfWb) % 2 ^ c.ab ∧
        c.pfWb ∣ b.raddr.toNat ∧ c.pfWb ∣ b.waddr.toNat ∧
        (b.active = true → b.pfEn = true ∧ b.pfQ.length < c.pfN) := by
  rw [Nat.dvd_iff_mod_eq_zero, Nat.dvd_iff_mod_eq_zero]
  constructor
  · exact fun ok => ⟨ok.length_le, ok.word_lt, ok.raddr_lt, ok.waddr_lt, ok.rem_of_idle, ok.waddr_eq,
      ok.raddr_aligned, ok.waddr_aligned, fun ha => ⟨ok.active_enabled ha, ok.active_room ha⟩⟩
  · exact fun ⟨hlen, hword, hr, hw, hrem, heq, hra, hwa, hact⟩ => ⟨hlen, hword, hr, hw, hrem, heq, hra, hwa,
      fun ha => (hact ha).1, fun ha => (hact ha).2⟩

/-- R41 with the widths of R20. -/
theorem sequenceOk_iff (c : Cfg) (q : List Stamp) :
    SequenceOk c q ↔
      q.length ≤ c.xrCap ∧ q.Pairwise (fun e e' => e.cycle < e'.cycle) ∧ ∀ e ∈ q, e.value.toNat < 2 ^ c.vw :=
  ⟨fun ok => ⟨ok.length_le, ok.cycles, ok.value_lt⟩, fun ⟨hlen, hinc, hval⟩ => ⟨hlen, hval, hinc⟩⟩

/-- R42. -/
theorem Block.causeOk_iff (b : Block) :
    b.causeOk = true ↔
      (b.fault = false → b.cause = 0#8) ∧ (b.fault = true → 0x01 ≤ b.cause.toNat ∧ b.cause.toNat ≤ 0x09) := by
  unfold Block.causeOk
  cases b.fault <;> simp

/-- Settles O20: the invariants of the units, each in plain form. They do not depend on CFG being valid. -/
theorem legalImageMeansEveryInvariant : Obligations.LegalImageMeansEveryInvariant := by
  intro c b _
  rw [Block.legal_iff]
  constructor
  · intro inv
    exact ⟨(scheduleOk_iff c _ _).1 inv.schedule, (clockOk_iff c _ _ _).1 inv.clock,
      ⟨inv.bw_length, (b.engineOk_iff c).1 inv.engine⟩, ⟨inv.enable_lt, inv.flag_lt⟩,
      ⟨inv.seq_length, fun q hq => (sequenceOk_iff c q).1 (inv.seq_ok q hq)⟩, b.causeOk_iff.1 inv.cause_ok⟩
  · rintro ⟨hes, hcd, ⟨hbw, hpf⟩, ⟨henable, hflag⟩, ⟨hlen, hseq⟩, hcause⟩
    exact {
      schedule := (scheduleOk_iff c _ _).2 hes
      clock := (clockOk_iff c _ _ _).2 hcd
      bw_length := hbw
      engine := (b.engineOk_iff c).2 hpf
      enable_lt := henable
      flag_lt := hflag
      seq_length := hlen
      seq_ok := fun q hq => (sequenceOk_iff c q).2 (hseq q hq)
      cause_ok := b.causeOk_iff.2 hcause }

/-! ### RESTORE and SNAPSHOT -/

/-- RESTORE changes the elements alone; it never touches CFG, the store or what else has arrived (assumption 10). -/
theorem hostRestore_frame (im : Block) (s : State) :
    (hostRestore im s).cfg = s.cfg ∧ (hostRestore im s).back = s.back ∧ (hostRestore im s).inbox = s.inbox := by
  unfold hostRestore
  split
  · exact ⟨rfl, rfl, rfl⟩
  · split
    · exact ⟨rfl, rfl, rfl⟩
    · exact ⟨rfl, rfl, rfl⟩

/-- Settles O21, by whether the image is taken and by the mode that refuses it. -/
theorem restoreTakesExactlyLegalImages : Obligations.RestoreTakesExactlyLegalImages := by
  intro s im rest hin
  obtain ⟨hcfg, hback, hinbox⟩ := hostRestore_frame im { s with inbox := rest }
  refine ⟨_, step_restore s im rest hin, hcfg, hback, hinbox, fun hv hl => ?_, fun hbad => ?_⟩
  · rw [hostRestore_of_legal im { s with inbox := rest } hv hl]
  · rw [hostRestore_of_bad im { s with inbox := rest } (Bool.and_eq_false_iff.2 hbad)]
    refine ⟨fun hf => ?_, fun hf => ?_⟩
    · rw [if_neg (by simp [hf])]
      rfl
    · rw [if_pos hf, State.silent_blk]

/-- Settles O22: a consistent machine's elements are a legal image. -/
theorem snapshotRestoreRoundTrips : Obligations.SnapshotRestoreRoundTrips := by
  intro s u rest more hc hv hin hcfg hin'
  refine ⟨⟨_, step_snapshot s rest hin, rfl, rfl, rfl, rfl⟩, _, step_restore u s.blk more hin', ?_⟩
  obtain ⟨-, inv⟩ := (State.consistent_iff_of_valid s hv).1 hc
  have hl : s.blk.legal s.cfg = true := (Block.legal_iff _ _).2 inv
  rw [← hcfg] at hv hl
  rw [hostRestore_of_legal s.blk { u with inbox := more } hv hl]

end Sys2Proof.Machine
end

section
/-! PROOFS. Acknowledging the offered source (spec/60_exceptions.md R290, 43_interrupt_arbiter.md R244, R245): its flag is
0 afterwards, and IA_HPP offers flagged sources only. -/

namespace Sys2Proof.Machine

/-- Of FLAG the mode RUN reads the width alone. -/
theorem State.running_answer_flag {s : State} (hs : s.running = true) {flag : W64}
    (hlt : flag.toNat < 2 ^ s.cfg.ns) (r : Response) :
    (s.answer { s.blk with flag := flag } r).running = true := by
  obtain ⟨-, hold⟩ := State.masks_lt_of_running hs
  simp only [State.running, State.shaped, Block.fits, State.answer_cfg, State.answer_blk, hlt, hold] at hs ⊢
  exact hs

/-- A source that IA_HPP offers is pending, and its number fits the K field. -/
theorem State.pending_of_iaHpp {s t : State} (hs : s.running = true) {src : Idx} (h : exec .iaHpp s = .next t)
    (hout : t.out = some (.response (.okWith src 0#64))) : s.blk.pending.getLsbD src.toNat = true := by
  cases hfirst : firstPending s.cfg s.blk.pending with
  | none =>
    rw [exec_iaHpp_of_none hs hfirst] at h
    cases h
    cases hout
  | some n =>
    rw [exec_iaHpp_of_some hs hfirst] at h
    cases h
    cases hout
    obtain ⟨hpending, -⟩ := firstPending_some _ _ _ hfirst
    have hn : n < 64 := BitVec.lt_of_getLsbD hpending
    have hfits : (toK n).toNat = n := by
      rw [toK, BitVec.toNat_ofNat]
      omega
    rwa [hfits]

/-- IA_HPP always answers in RUN, and changes nothing. -/
theorem exec_iaHpp {s : State} (hs : s.running = true) :
    exec .iaHpp s = .next (s.answer s.blk (hppResponse s.cfg s.blk)) :=
  exec_of_ok (i := .iaHpp) hs rfl

/-- Settles O55: to be offered again the source would have to be flagged, and IA_ACK has cleared its flag. That it was
offered before plays no part. -/
theorem acknowledgedSourceIsNotOffered : Obligations.AcknowledgedSourceIsNotOffered := by
  intro s src hs _
  obtain ⟨-, -, -, ⟨f, hack, hbit⟩, -⟩ := setFlagAndAckTouchOneFlag s src hs
  obtain ⟨-, hflag⟩ := State.masks_lt_of_running hs
  have hlt : f.toNat < 2 ^ s.cfg.ns := (toNat_lt_two_pow_iff f _).2 fun j hj => by
    rcases Nat.lt_or_ge j 64 with h64 | h64
    · rw [hbit j h64, (toNat_lt_two_pow_iff _ _).1 hflag j hj, Bool.false_and]
    · exact BitVec.getLsbD_of_ge f j h64
  have hrun := State.running_answer_flag hs hlt .okay
  refine ⟨_, _, hack, exec_iaHpp hrun, fun hout => ?_, fun j hj hne => ?_⟩
  · have hpending := State.pending_of_iaHpp hrun (exec_iaHpp hrun) hout
    rw [Block.pending, BitVec.getLsbD_and, Bool.and_eq_true] at hpending
    obtain ⟨-, hset⟩ := hpending
    rw [State.answer_blk, hbit _ (BitVec.lt_of_getLsbD hset)] at hset
    simp at hset
  · rw [State.answer_blk, hbit j hj]
    simp [hne]

end Sys2Proof.Machine
end

section
/-! PROOFS. What a valid configuration is (spec/00_scope.md R9, 70_reset_and_hazards.md R321): the check of each part of
CFG in plain form. -/

namespace Sys2Proof

/-- A u64 parameter is at most 2^64-1. -/
theorem fits64_iff (n : Nat) : fits64 n = true ↔ n ≤ 2 ^ 64 - 1 := decide_eq_true_iff

/-- A 32-bit cost is at most 2^32-1. -/
theorem cost32_iff (n : Nat) : cost32 n = true ↔ n ≤ 2 ^ 32 - 1 := by
  rw [cost32, decide_eq_true_iff, Nat.le_sub_one_iff_lt (by positivity)]

/-- Each of the table's six pairs is looked up under a width code and a sequentiality. -/
theorem CostTable.exists_cost_eq (t : CostTable) {s : SeqCost} (hs : s ∈ [t.w8, t.w16, t.w32]) {p : BitCost}
    (hp : p ∈ [s.nonSeq, s.seq]) : ∃ w < 3, ∃ q, t.cost w q false = p.b0 ∧ t.cost w q true = p.b1 := by
  obtain ⟨w, hw, hlookup⟩ : ∃ w < 3, (if w = 0 then t.w8 else if w = 1 then t.w16 else t.w32) = s := by
    simp only [List.mem_cons, List.not_mem_nil, or_false] at hs
    rcases hs with rfl | rfl | rfl
    · exact ⟨0, by decide, rfl⟩
    · exact ⟨1, by decide, rfl⟩
    · exact ⟨2, by decide, rfl⟩
  simp only [List.mem_cons, List.not_mem_nil, or_false] at hp
  rcases hp with rfl | rfl
  · exact ⟨w, hw, false, by simp [CostTable.cost, hlookup]⟩
  · exact ⟨w, hw, true, by simp [CostTable.cost, hlookup]⟩

/-- The entries of a table are what its lookups find, so the check of the entries is one of the lookups. -/
theorem CostTable.inRange_iff (t : CostTable) :
    t.inRange = true ↔ ∀ w, w < 3 → ∀ q b, t.cost w q b ≤ 2 ^ 32 - 1 := by
  constructor
  · exact fun h w _ q b => Nat.le_sub_one_of_lt (CostTable.cost_lt h w q b)
  · intro h
    simp only [CostTable.inRange, List.all_eq_true, Bool.and_eq_true, cost32_iff]
    intro s hs p hp
    obtain ⟨w, hw, q, h0, h1⟩ := t.exists_cost_eq hs hp
    exact ⟨h0 ▸ h w hw q false, h1 ▸ h w hw q true⟩

/-- One region's own checks, its costs by the lookups. -/
theorem Region.ok_iff_costs_le (ab : Nat) (r : Region) :
    Region.ok ab r = true ↔ r.lo ≤ r.hi ∧ r.hi < 2 ^ ab ∧ r.bwReset ≤ 1 ∧
      ∀ w, w < 3 → ∀ q b, r.wt.cost w q b ≤ 2 ^ 32 - 1 := by
  rw [Region.ok_iff, CostTable.inRange_iff, and_comm (b := r.bwReset ≤ 1)]

/-- For nonempty regions the check by end points is that no two of them share an address. -/
theorem disjointRegions_iff_no_shared_address {rs : List Region} (hle : ∀ r ∈ rs, r.lo ≤ r.hi) :
    disjointRegions rs = true ↔
      rs.Pairwise fun r r' => ∀ a, ¬ ((r.lo ≤ a ∧ a ≤ r.hi) ∧ (r'.lo ≤ a ∧ a ≤ r'.hi)) := by
  rw [disjointRegions_iff]
  exact List.Pairwise.iff_of_mem fun hr hs => Region.disjoint_iff _ _ (hle _ hr) (hle _ hs)

/-- Powers of two up to `2^limit` are told by their size. -/
theorem isPow2UpTo_iff_le (limit n : Nat) : isPow2UpTo limit n = true ↔ (∃ k, n = 2 ^ k) ∧ n ≤ 2 ^ limit := by
  rw [isPow2UpTo_iff]
  constructor
  · rintro ⟨k, hk, rfl⟩
    exact ⟨⟨k, rfl⟩, Nat.pow_le_pow_right (by decide) hk⟩
  · rintro ⟨⟨k, rfl⟩, hle⟩
    exact ⟨k, (Nat.pow_le_pow_iff_right (by decide)).1 hle, rfl⟩

/-! ### The four parts of CFG -/

/-- The counts and the clock domain converter's constants. -/
theorem Cfg.clockOk_iff (c : Cfg) :
    c.clockOk = true ↔
      1 ≤ c.nk ∧ c.nk ≤ 8 ∧ 1 ≤ c.nd ∧ c.nd ≤ 8 ∧ (∀ d ∈ c.div, 1 ≤ d ∧ d ≤ 2 ^ 64 - 1) ∧
        c.refPeriod ≤ 2 ^ 64 - 1 ∧ ((c.refPeriod = 0 ∧ c.refSlack = 0) ∨ c.refSlack < c.refPeriod) ∧
        c.refStall ≤ 2 ^ 64 - 1 ∧ c.refStallLong ≤ c.refStall ∧
        c.grantPri ≤ 2 ^ 64 - 1 ∧ c.grantSecEven ≤ 2 ^ 64 - 1 ∧ c.grantSecOdd ≤ 2 ^ 64 - 1 := by
  simp only [Cfg.clockOk, Bool.and_eq_true, Bool.or_eq_true, decide_eq_true_eq, beq_iff_eq, List.all_eq_true,
    fits64_iff, and_assoc]

/-- The bus regions: their own checks make them ranges of the space, and for such ranges the two checks by end points
are disjointness and coverage. -/
theorem Cfg.busOk_iff (c : Cfg) :
    c.busOk = true ↔
      1 ≤ c.ab ∧ c.ab ≤ 64 ∧ 1 ≤ c.nr ∧ c.nr ≤ 256 ∧
        (∀ r ∈ c.regions, r.lo ≤ r.hi ∧ r.hi < 2 ^ c.ab ∧ r.bwReset ≤ 1 ∧
          ∀ w, w < 3 → ∀ q b, r.wt.cost w q b ≤ 2 ^ 32 - 1) ∧
        c.regions.Pairwise (fun r r' => ∀ a, ¬ ((r.lo ≤ a ∧ a ≤ r.hi) ∧ (r'.lo ≤ a ∧ a ≤ r'.hi))) ∧
        (∀ a, a < 2 ^ c.ab → ∃ r ∈ c.regions, r.lo ≤ a ∧ a ≤ r.hi) := by
  simp only [Cfg.busOk, Bool.and_eq_true, decide_eq_true_eq, List.all_eq_true, Region.ok_iff_costs_le]
  rw [and_assoc, and_assoc, and_assoc, and_assoc, and_assoc]
  refine and_congr_right fun _ => and_congr_right fun _ => and_congr_right fun _ => and_congr_right fun _ =>
    and_congr_right fun hok => ?_
  have hrange : ∀ r ∈ c.regions, r.lo ≤ r.hi ∧ r.hi < 2 ^ c.ab := fun r hr => by
    obtain ⟨hle, hhi, -⟩ := hok r hr
    exact ⟨hle, hhi⟩
  rw [← disjointRegions_iff_no_shared_address fun r hr => (hrange r hr).1]
  exact and_congr_right (coversSpace_iff c.ab c.regions hrange)

/-- The prefetch unit's constants. -/
theorem Cfg.pfOk_iff (c : Cfg) :
    c.pfOk = true ↔
      1 ≤ c.pfN ∧ c.pfN ≤ 255 ∧ (c.pfWb = 1 ∨ c.pfWb = 2 ∨ c.pfWb = 4) ∧
        (∃ k, c.pfBoundary = 2 ^ k) ∧ c.pfWb ≤ c.pfBoundary ∧ c.pfBoundary ≤ 2 ^ c.ab ∧
        c.pfHitCost ≤ 2 ^ 32 - 1 ∧ c.pfEnReset ≤ 1 := by
  simp only [Cfg.pfOk, Bool.and_eq_true, Bool.or_eq_true, decide_eq_true_eq, beq_iff_eq, isPow2UpTo_iff_le,
    cost32_iff, and_assoc, or_assoc, and_left_comm (b := c.pfWb ≤ c.pfBoundary)]

/-- The arbiter's and the time-ordered registers' constants. -/
theorem Cfg.iaXrOk_iff (c : Cfg) :
    c.iaXrOk = true ↔
      1 ≤ c.ns ∧ c.ns ≤ 64 ∧ c.prio.Perm (List.range c.ns) ∧ 1 ≤ c.nx ∧ c.nx ≤ 256 ∧ 1 ≤ c.vw ∧ c.vw ≤ 64 ∧
        (∀ v ∈ c.xrDefault, v < 2 ^ c.vw) ∧ 1 ≤ c.xrCap ∧ c.xrCap ≤ 255 := by
  simp only [Cfg.iaXrOk, Bool.and_eq_true, decide_eq_true_eq, List.all_eq_true, prioOk_iff_perm, and_assoc]

/-- Settles O18, part by part. -/
theorem validConfigurationMeansEveryCheck : Obligations.ValidConfigurationMeansEveryCheck := by
  intro c
  rw [Cfg.valid, Bool.and_eq_true, Bool.and_eq_true, Bool.and_eq_true, and_assoc, and_assoc, Cfg.clockOk_iff,
    Cfg.busOk_iff, Cfg.pfOk_iff, Cfg.iaXrOk_iff]

end Sys2Proof
end

section
/-! PROOFS. RESET (spec/70_reset_and_hazards.md R320, R322): the reset values under a valid configuration, and the
faulted block that an invalid one leaves. -/

namespace Sys2Proof

/-- The check that comes first: some divider is 0 (R320). -/
theorem Cfg.hasZeroDiv_iff (c : Cfg) : c.hasZeroDiv = true ↔ 0 ∈ c.div := by
  simp [Cfg.hasZeroDiv]

end Sys2Proof

namespace Sys2Proof.Machine

/-- The reset value of a region's bus-width bit (10_state.md R46). -/
theorem Block.reset_bw_getD (c : Cfg) {r : Nat} (hr : r < c.nr) :
    (Block.reset c).bw.getD r false = ((c.regions.getD r default).bwReset == 1) := by
  rw [Cfg.nr] at hr
  simp [hr]

/-- Settles O16: the next state holds `Block.reset`, whose elements are those of the table. -/
theorem validResetGivesTheResetValues : Obligations.ValidResetGivesTheResetValues := by
  intro s c rest hin hv
  have hstep := step_reset s c rest hin
  rw [hostReset_of_valid c _ (Cfg.no_zero_div_of_valid c hv) hv] at hstep
  refine ⟨_, hstep, rfl, rfl, rfl, ?acc_length, ?acc, ?stall_length, ?stall, rfl, rfl, ?bw_length, ?bw, rfl, rfl, rfl,
    rfl, rfl, rfl, rfl, rfl, ?seq_length, ?seq, rfl, rfl⟩
  case acc_length | stall_length | seq_length => exact List.length_replicate
  case acc | stall | seq => exact fun _ => List.eq_of_mem_replicate
  case bw_length => exact List.length_map _
  case bw => exact fun r => Block.reset_bw_getD c

/-- After a RESET that faults, FAULT and CAUSE are known, whatever the free elements are. -/
theorem hostReset_fault_of_invalid (c : Cfg) (s : State) (hv : c.valid = false) :
    (hostReset c s).cfg = c ∧ (hostReset c s).blk.fault = true ∧
      (hostReset c s).blk.cause = if 0 ∈ c.div then 0x04#8 else 0x05#8 := by
  rw [hostReset_of_invalid c s hv]
  refine ⟨rfl, rfl, ?_⟩
  simp only [Block.afterBadReset, Block.raised_cause, Cfg.hasZeroDiv_iff]
  split_ifs <;> rfl

/-- Settles O17: what follows the RESET is how a FAULTED block answers a frame (R283), and how RESTORE treats a FAULTED
block without a valid CFG (R302). -/
theorem invalidResetFaultsAndRefusesRestore : Obligations.InvalidResetFaultsAndRefusesRestore := by
  intro s c rest hin hv
  obtain ⟨hcfg, hfault, hcause⟩ := hostReset_fault_of_invalid c { s with inbox := rest } hv
  refine ⟨_, step_reset s c rest hin, hcfg, hfault, hcause, fun f more => ?_, fun im more => ?_⟩
  · exact ⟨_, faultedBlockOnlyAnswersFaulted _ f more rfl hfault, rfl, rfl⟩
  · obtain ⟨u, hstep, -, -, -, -, hrefused⟩ := restoreTakesExactlyLegalImages
      { hostReset c { s with inbox := rest } with inbox := .restore im :: more } im more rfl
    obtain ⟨-, hkept⟩ := hrefused (.inl (hcfg.symm ▸ hv))
    exact ⟨u, hstep, hkept hfault⟩

end Sys2Proof.Machine
end
